-- ==== Sys2Proof/Word.lean ====
section
/-! DEFINITION. The bit-vector types of the model (00_scope R11, R13). -/

namespace Sys2Proof

/-- One byte of memory or of an instruction. -/
abbrev Byte := BitVec 8

/-- A doubleword: the 32-bit pattern a form of MOVSS moves (R15). -/
abbrev DWord := BitVec 32

/-- A 64-bit value: an address, a general register, the instruction pointer. -/
abbrev Word := BitVec 64

/-- The carrier of one vector register: the widest value `MAXVL` may have (R7; log 3). -/
abbrev Vec := BitVec 512

/-- The carrier of one writemask register: a number, of which the register is the low `KW` bits. `KW` is
any width of at least 1, so no bit vector is wide enough for all of them (R9; log 4). -/
abbrev KMask := Nat

/-- A vector register number, 0 to 31 (R8, R74). -/
abbrev VReg := BitVec 5

/-- A general register number, 0 to 15 (R26). -/
abbrev GReg := BitVec 4

end Sys2Proof
end

