-- ==== Sys2Proof/Syntax.lean ====
section
/-! DEFINITION. The twelve forms of MOVSS (30_encoding R81), each with every field of its encoding.
All prefix bits are held as logical values: a bit the prefix stores inverted is held uninverted
(30_encoding R66, R69 to R71). -/

namespace Sys2Proof

/-- The legacy prefix bytes (30_encoding R62). -/
inductive Pfx where
  | lock      -- F0
  | repne     -- F2
  | rep       -- F3
  | opSize    -- 66
  | addrSize  -- 67
  | segCs     -- 2E
  | segSs     -- 36
  | segDs     -- 3E
  | segEs     -- 26
  | segFs     -- 64
  | segGs     -- 65
deriving DecidableEq, Repr

/-- The REX prefix `0100WRXB` (30_encoding R63). -/
structure Rex where
  w : Bool
  r : Bool
  x : Bool
  b : Bool
deriving DecidableEq, Repr

/-- What stands before the escape byte `0F`, the VEX prefix or the EVEX prefix: the legacy prefix bytes
in memory order, and the REX byte (30_encoding R61, R82 steps 1 and 2). -/
structure Head where
  pfx : List Pfx
  rex : Option Rex
deriving DecidableEq, Repr

/-- The VEX prefix (30_encoding R66, R67). `short` is the two-byte form. `vvvv` is the register number,
so stored `1111` is 0 here. -/
structure Vex where
  short : Bool
  r : Bool
  x : Bool
  b : Bool
  w : Bool
  vvvv : BitVec 4
  l : Bool
deriving DecidableEq, Repr

/-- The EVEX prefix with `mmm = 001`, `pp = 10`, `W = 0` (30_encoding R69 to R71). `r1` is the spec's
`R'`, `v1` its `V'`, `ll` its `L'L`, `bc` its `b`; `p0bit3` and `p1bit2` are the bits `P0[3]` and
`P1[2]` as stored; `vvvv` is the register number's low four bits. -/
structure Evex where
  r : Bool
  x : Bool
  b : Bool
  r1 : Bool
  p0bit3 : Bool
  vvvv : BitVec 4
  p1bit2 : Bool
  z : Bool
  ll : BitVec 2
  bc : Bool
  v1 : Bool
  aaa : BitVec 3
deriving DecidableEq, Repr

/-- The displacement bytes of a memory operand (30_encoding R76). -/
inductive Disp where
  | absent
  | d8 (v : BitVec 8)
  | d32 (v : BitVec 32)
deriving DecidableEq, Repr

/-- The memory operand forms of ModRM with `mod ≠ 11` (30_encoding R64, R65, R76, R77). The displacement
of `base` and `sib` fixes `mod`: absent 00, disp8 01, disp32 10. -/
inductive MemForm where
  /-- `mod = 00`, `rm = 101`: RIP-relative. -/
  | ripRel (d : BitVec 32)
  /-- `rm ≠ 100`: a base register and no SIB byte. -/
  | base (rm : BitVec 3) (d : Disp)
  /-- SIB byte with a base register. -/
  | sib (scale : BitVec 2) (index : BitVec 3) (sibBase : BitVec 3) (d : Disp)
  /-- SIB byte with `mod = 00` and `SIB.base = 101`: no base register. -/
  | sibNoBase (scale : BitVec 2) (index : BitVec 3) (d : BitVec 32)
deriving DecidableEq, Repr

/-- The twelve forms, named by their ids (30_encoding R81; 00_scope R5). `reg` is `ModRM.reg`; `rm` is
`ModRM.rm` with `mod = 11`; `m` is the memory operand with `mod ≠ 11`. -/
inductive Instr where
  /-- `MOVSS xmm1, xmm2`, `F3 0F 10 /r` (R100). -/
  | l10rr (h : Head) (reg rm : BitVec 3)
  /-- `MOVSS xmm1, m32`, `F3 0F 10 /r` (R101). -/
  | l10rm (h : Head) (reg : BitVec 3) (m : MemForm)
  /-- `MOVSS m32, xmm1`, `F3 0F 11 /r` (R102). -/
  | l11mr (h : Head) (reg : BitVec 3) (m : MemForm)
  /-- `MOVSS xmm2, xmm1`, `F3 0F 11 /r` (R103). -/
  | l11rr (h : Head) (reg rm : BitVec 3)
  /-- `VMOVSS xmm1, xmm2, xmm3`, `VEX.LIG.F3.0F.WIG 10 /r` (R110). -/
  | v10rr (h : Head) (p : Vex) (reg rm : BitVec 3)
  /-- `VMOVSS xmm1, m32`, `VEX.LIG.F3.0F.WIG 10 /r` (R111). -/
  | v10rm (h : Head) (p : Vex) (reg : BitVec 3) (m : MemForm)
  /-- `VMOVSS xmm1, xmm2, xmm3`, `VEX.LIG.F3.0F.WIG 11 /r` (R112). -/
  | v11rr (h : Head) (p : Vex) (reg rm : BitVec 3)
  /-- `VMOVSS m32, xmm1`, `VEX.LIG.F3.0F.WIG 11 /r` (R113). -/
  | v11mr (h : Head) (p : Vex) (reg : BitVec 3) (m : MemForm)
  /-- `VMOVSS xmm1 (k1)(z), xmm2, xmm3`, `EVEX.LLIG.F3.0F.W0 10 /r` (R120). -/
  | e10rr (h : Head) (p : Evex) (reg rm : BitVec 3)
  /-- `VMOVSS xmm1 (k1)(z), m32`, `EVEX.LLIG.F3.0F.W0 10 /r` (R121). -/
  | e10rm (h : Head) (p : Evex) (reg : BitVec 3) (m : MemForm)
  /-- `VMOVSS xmm1 (k1)(z), xmm2, xmm3`, `EVEX.LLIG.F3.0F.W0 11 /r` (R122). -/
  | e11rr (h : Head) (p : Evex) (reg rm : BitVec 3)
  /-- `VMOVSS m32 (k1), xmm1`, `EVEX.LLIG.F3.0F.W0 11 /r` (R123). -/
  | e11mr (h : Head) (p : Evex) (reg : BitVec 3) (m : MemForm)
deriving DecidableEq, Repr

end Sys2Proof
end

