-- ==== Sys2Proof/WellFormed.lean ====
section
/-! DEFINITION. Which terms of `Instr` stand for an encoding. Nothing here says whether the instruction
executes: a well-formed term may be refused or raise `#UD` when it runs (R104, R114, R125). -/

namespace Sys2Proof

/-- A legacy-class MOVSS has `F3` among its prefixes; without it the bytes are another instruction
(30_encoding R62, R82). -/
def Head.wfLegacy (h : Head) : Bool :=
  h.pfx.contains .rep

/-- The two-byte VEX prefix carries neither `X`, `B` nor `W` (30_encoding R67). -/
def Vex.wf (p : Vex) : Bool :=
  !p.short || (!p.x && !p.b && !p.w)

/-- The memory forms ModRM and SIB can spell (30_encoding R65, R76): `rm = 100` announces a SIB byte, and
`rm = 101` or `SIB.base = 101` without displacement spell another form. -/
def MemForm.wf : MemForm → Bool
  | .ripRel _ => true
  | .base rm d => rm != 4#3 && !(rm == 5#3 && d == .absent)
  | .sib _ _ sb d => !(sb == 5#3 && d == .absent)
  | .sibNoBase _ _ _ => true

/-- An instruction that some byte string encodes. -/
def Instr.wf : Instr → Bool
  | .l10rr h _ _ => h.wfLegacy
  | .l10rm h _ m => h.wfLegacy && m.wf
  | .l11mr h _ m => h.wfLegacy && m.wf
  | .l11rr h _ _ => h.wfLegacy
  | .v10rr _ p _ _ => p.wf
  | .v10rm _ p _ m => p.wf && m.wf
  | .v11rr _ p _ _ => p.wf
  | .v11mr _ p _ m => p.wf && m.wf
  | .e10rr _ _ _ _ => true
  | .e10rm _ _ _ m => m.wf
  | .e11rr _ _ _ _ => true
  | .e11mr _ _ _ m => m.wf

end Sys2Proof
end

