-- ==== Sys2Proof/Decode.lean ====
section
/-! DEFINITION. The decoder of 30_encoding R82, total on every byte string, the length rule R78, and
the encoder written from the same encoding tables (R61 to R72, R76). -/

namespace Sys2Proof

/-! ## The bytes of the prefixes -/

/-- The legacy prefix a byte is (R62). -/
def Pfx.ofByte (c : Byte) : Option Pfx :=
  if c = 0xF0#8 then some .lock
  else if c = 0xF2#8 then some .repne
  else if c = 0xF3#8 then some .rep
  else if c = 0x66#8 then some .opSize
  else if c = 0x67#8 then some .addrSize
  else if c = 0x2E#8 then some .segCs
  else if c = 0x36#8 then some .segSs
  else if c = 0x3E#8 then some .segDs
  else if c = 0x26#8 then some .segEs
  else if c = 0x64#8 then some .segFs
  else if c = 0x65#8 then some .segGs
  else none

/-- The byte of a legacy prefix (R62). -/
def Pfx.toByte : Pfx → Byte
  | .lock => 0xF0#8
  | .repne => 0xF2#8
  | .rep => 0xF3#8
  | .opSize => 0x66#8
  | .addrSize => 0x67#8
  | .segCs => 0x2E#8
  | .segSs => 0x36#8
  | .segDs => 0x3E#8
  | .segEs => 0x26#8
  | .segFs => 0x64#8
  | .segGs => 0x65#8

/-- REX is `0100WRXB` (R63). -/
def Rex.ofByte (c : Byte) : Option Rex :=
  if c.extractLsb' 4 4 = 4#4 then
    some ⟨c.getLsbD 3, c.getLsbD 2, c.getLsbD 1, c.getLsbD 0⟩
  else none

/-- The byte of a REX prefix (R63). -/
def Rex.toByte (r : Rex) : Byte :=
  4#4 ++ BitVec.ofBool r.w ++ BitVec.ofBool r.r ++ BitVec.ofBool r.x ++ BitVec.ofBool r.b

/-- Step 1 of R82: the prefix bytes at the front, and what follows them. -/
def takePfx : List Byte → List Pfx × List Byte
  | [] => ([], [])
  | c :: bs =>
    match Pfx.ofByte c with
    | some p => (p :: (takePfx bs).1, (takePfx bs).2)
    | none => ([], c :: bs)

/-- Step 2 of R82: an optional REX byte. -/
def takeRex : List Byte → Option Rex × List Byte
  | [] => (none, [])
  | c :: bs =>
    match Rex.ofByte c with
    | some r => (some r, bs)
    | none => (none, c :: bs)

/-! ## ModRM, SIB and displacement -/

/-- A little-endian `disp32` (R76, R41). -/
def takeDisp32 : List Byte → Option (BitVec 32 × List Byte)
  | b0 :: b1 :: b2 :: b3 :: bs => some (b3 ++ b2 ++ b1 ++ b0, bs)
  | _ => none

/-- The displacement that `mod = 00`, `01` or `10` announces, where `mod = 00` announces none (R76). -/
def takeDisp (mod : BitVec 2) (bs : List Byte) : Option (Disp × List Byte) :=
  if mod = 0#2 then some (.absent, bs)
  else if mod = 1#2 then
    match bs with
    | [] => none
    | c :: r => some (.d8 c, r)
  else (takeDisp32 bs).map fun r => (.d32 r.1, r.2)

/-- The SIB byte and the displacement after it (R65, R76). -/
def takeSib (mod : BitVec 2) : List Byte → Option (MemForm × List Byte)
  | [] => none
  | c :: bs =>
    let scale : BitVec 2 := c.extractLsb' 6 2
    let index : BitVec 3 := c.extractLsb' 3 3
    let base : BitVec 3 := c.extractLsb' 0 3
    if mod = 0#2 ∧ base = 5#3 then
      (takeDisp32 bs).map fun r => (.sibNoBase scale index r.1, r.2)
    else (takeDisp mod bs).map fun r => (.sib scale index base r.1, r.2)

/-- The memory operand of a ModRM byte with `mod ≠ 11` (R64, R65, R76). -/
def takeMem (mod : BitVec 2) (rm : BitVec 3) (bs : List Byte) : Option (MemForm × List Byte) :=
  if rm = 4#3 then takeSib mod bs
  else if mod = 0#2 ∧ rm = 5#3 then (takeDisp32 bs).map fun r => (.ripRel r.1, r.2)
  else (takeDisp mod bs).map fun r => (.base rm r.1, r.2)

/-- The `ModRM.r/m` operand: a register number's low three bits, or a memory operand (R64). -/
inductive RegMem where
  | reg (rm : BitVec 3)
  | mem (m : MemForm)
deriving DecidableEq, Repr

/-- The ModRM byte with all that it announces: `ModRM.reg`, the `r/m` operand, and the bytes after them. -/
def takeModRM : List Byte → Option (BitVec 3 × RegMem × List Byte)
  | [] => none
  | c :: bs =>
    let mod : BitVec 2 := c.extractLsb' 6 2
    let reg : BitVec 3 := c.extractLsb' 3 3
    let rm : BitVec 3 := c.extractLsb' 0 3
    if mod = 3#2 then some (reg, .reg rm, bs)
    else (takeMem mod rm bs).map fun r => (reg, .mem r.1, r.2)

/-! ## The decoder -/

/-- What the decoder makes of a byte string: one of the twelve forms with the bytes after it, "not
MOVSS", or a string that ends before the instruction does. The forms that `R82` sends to `#UD` or refuses
are forms too: their preambles say so when they run (R104, R114, R125). -/
inductive Decoded where
  | instr (i : Instr) (rest : List Byte)
  | notMovss
  | truncated
deriving DecidableEq, Repr

/-- `op` is `10` or `11` (R61). -/
def isMovssOp (op : Byte) : Bool :=
  op == 0x10#8 || op == 0x11#8

/-- The legacy form of an opcode byte and an `r/m` operand (R81). -/
def legacyForm (h : Head) (op : Byte) (reg : BitVec 3) : RegMem → Instr
  | .reg rm => if op = 0x10#8 then .l10rr h reg rm else .l11rr h reg rm
  | .mem m => if op = 0x10#8 then .l10rm h reg m else .l11mr h reg m

/-- The VEX form of an opcode byte and an `r/m` operand (R81). -/
def vexForm (h : Head) (p : Vex) (op : Byte) (reg : BitVec 3) : RegMem → Instr
  | .reg rm => if op = 0x10#8 then .v10rr h p reg rm else .v11rr h p reg rm
  | .mem m => if op = 0x10#8 then .v10rm h p reg m else .v11mr h p reg m

/-- The EVEX form of an opcode byte and an `r/m` operand (R81). -/
def evexForm (h : Head) (p : Evex) (op : Byte) (reg : BitVec 3) : RegMem → Instr
  | .reg rm => if op = 0x10#8 then .e10rr h p reg rm else .e11rr h p reg rm
  | .mem m => if op = 0x10#8 then .e10rm h p reg m else .e11mr h p reg m

/-- The opcode byte and everything after it, for a form whose other fields are `form`'s. -/
def decodeOp (form : Byte → BitVec 3 → RegMem → Instr) : List Byte → Decoded
  | [] => .truncated
  | op :: bs =>
    if !isMovssOp op then .notMovss
    else
      match takeModRM bs with
      | none => .truncated
      | some (reg, o, rest) => .instr (form op reg o) rest

/-- The legacy class, after `0F` (R82 step 3). -/
def decodeLegacy (h : Head) (bs : List Byte) : Decoded :=
  if h.wfLegacy then decodeOp (legacyForm h) bs else .notMovss

/-- The fields of the three-byte VEX prefix `C4 b1 b2` (R66). -/
def Vex.ofBytes3 (b1 b2 : Byte) : Vex :=
  { short := false
    r := !b1.getLsbD 7
    x := !b1.getLsbD 6
    b := !b1.getLsbD 5
    w := b2.getLsbD 7
    vvvv := ~~~ (b2.extractLsb' 3 4)
    l := b2.getLsbD 2 }

/-- The fields of the two-byte VEX prefix `C5 c1` (R67). -/
def Vex.ofByte2 (c1 : Byte) : Vex :=
  { short := true
    r := !c1.getLsbD 7
    x := false
    b := false
    w := false
    vvvv := ~~~ (c1.extractLsb' 3 4)
    l := c1.getLsbD 2 }

/-- The VEX class, after `C5` (R82 step 3, R67). -/
def decodeVex2 (h : Head) : List Byte → Decoded
  | c1 :: bs =>
    if c1.extractLsb' 0 2 = 2#2 then decodeOp (vexForm h (Vex.ofByte2 c1)) bs else .notMovss
  | [] => .truncated

/-- The VEX class, after `C4` (R82 step 3, R66). -/
def decodeVex3 (h : Head) : List Byte → Decoded
  | b1 :: b2 :: bs =>
    if b1.extractLsb' 0 5 = 1#5 ∧ b2.extractLsb' 0 2 = 2#2 then
      decodeOp (vexForm h (Vex.ofBytes3 b1 b2)) bs
    else .notMovss
  | _ => .truncated

/-- The fields of the EVEX prefix `62 P0 P1 P2` (R69 to R71). -/
def Evex.ofBytes (p0 p1 p2 : Byte) : Evex :=
  { r := !p0.getLsbD 7
    x := !p0.getLsbD 6
    b := !p0.getLsbD 5
    r1 := !p0.getLsbD 4
    p0bit3 := p0.getLsbD 3
    vvvv := ~~~ (p1.extractLsb' 3 4)
    p1bit2 := p1.getLsbD 2
    z := p2.getLsbD 7
    ll := p2.extractLsb' 5 2
    bc := p2.getLsbD 4
    v1 := !p2.getLsbD 3
    aaa := p2.extractLsb' 0 3 }

/-- The EVEX class, after `62` (R82 step 3, R69 to R71): `mmm = 001`, `pp = 10` and `W = 0`. -/
def decodeEvex (h : Head) : List Byte → Decoded
  | p0 :: p1 :: p2 :: bs =>
    if p0.extractLsb' 0 3 = 1#3 ∧ p1.extractLsb' 0 2 = 2#2 ∧ p1.getLsbD 7 = false then
      decodeOp (evexForm h (Evex.ofBytes p0 p1 p2)) bs
    else .notMovss
  | _ => .truncated

/-- Step 3 of R82: the class by the first byte after the prefixes. -/
def decodeClass (h : Head) : List Byte → Decoded
  | [] => .truncated
  | c :: bs =>
    if c = 0x0F#8 then decodeLegacy h bs
    else if c = 0xC5#8 then decodeVex2 h bs
    else if c = 0xC4#8 then decodeVex3 h bs
    else if c = 0x62#8 then decodeEvex h bs
    else .notMovss

/-- The decoding procedure (R82), for 64-bit mode. -/
def decode (bs : List Byte) : Decoded :=
  decodeClass ⟨(takePfx bs).1, (takeRex (takePfx bs).2).1⟩ (takeRex (takePfx bs).2).2

/-! ## Instruction length (R78) -/

/-- How many bytes may follow the legacy prefix bytes, at most: REX, `62 P0 P1 P2`, opcode, ModRM, SIB,
`disp32` (R61, R78). -/
def tailLen : Nat := 12

/-- How many displacement bytes (R76). -/
def Disp.size : Disp → Nat
  | .absent => 0
  | .d8 _ => 1
  | .d32 _ => 4

/-- How many bytes follow the ModRM byte: SIB and displacement (R65, R76). -/
def MemForm.size : MemForm → Nat
  | .ripRel _ => 4
  | .base _ d => d.size
  | .sib _ _ _ d => 1 + d.size
  | .sibNoBase _ _ _ => 5

/-- How many bytes stand before the escape byte or the VEX or EVEX prefix. -/
def Head.size (h : Head) : Nat :=
  h.pfx.length + (if h.rex.isSome then 1 else 0)

/-- How many bytes a VEX prefix has. -/
def Vex.size (p : Vex) : Nat :=
  if p.short then 2 else 3

/-- `ilen` (R78): prefix bytes, REX, escape or VEX or EVEX prefix, opcode, ModRM, SIB, displacement. -/
def Instr.ilen : Instr → Nat
  | .l10rr h _ _ => h.size + 1 + 1 + 1
  | .l10rm h _ m => h.size + 1 + 1 + 1 + m.size
  | .l11mr h _ m => h.size + 1 + 1 + 1 + m.size
  | .l11rr h _ _ => h.size + 1 + 1 + 1
  | .v10rr h p _ _ => h.size + p.size + 1 + 1
  | .v10rm h p _ m => h.size + p.size + 1 + 1 + m.size
  | .v11rr h p _ _ => h.size + p.size + 1 + 1
  | .v11mr h p _ m => h.size + p.size + 1 + 1 + m.size
  | .e10rr h _ _ _ => h.size + 4 + 1 + 1
  | .e10rm h _ _ m => h.size + 4 + 1 + 1 + m.size
  | .e11rr h _ _ _ => h.size + 4 + 1 + 1
  | .e11mr h _ _ m => h.size + 4 + 1 + 1 + m.size

/-! ## The encoder -/

/-- The four bytes of a `disp32`, bits 7:0 first (R76). -/
def encodeDisp32 (d : BitVec 32) : List Byte :=
  [d.extractLsb' 0 8, d.extractLsb' 8 8, d.extractLsb' 16 8, d.extractLsb' 24 8]

/-- The `mod` field a displacement stands under (R76). -/
def Disp.mod : Disp → BitVec 2
  | .absent => 0#2
  | .d8 _ => 1#2
  | .d32 _ => 2#2

/-- The displacement bytes (R76). -/
def Disp.encode : Disp → List Byte
  | .absent => []
  | .d8 v => [v]
  | .d32 v => encodeDisp32 v

/-- A byte of fields of 2, 3 and 3 bits: ModRM (R64) or SIB (R65). -/
def pack233 (a : BitVec 2) (b c : BitVec 3) : Byte :=
  a ++ b ++ c

/-- ModRM, SIB and displacement of a memory operand (R64, R65, R76). -/
def MemForm.encode (reg : BitVec 3) : MemForm → List Byte
  | .ripRel d => pack233 0#2 reg 5#3 :: encodeDisp32 d
  | .base rm d => pack233 d.mod reg rm :: d.encode
  | .sib scale index sb d => pack233 d.mod reg 4#3 :: pack233 scale index sb :: d.encode
  | .sibNoBase scale index d => pack233 0#2 reg 4#3 :: pack233 scale index 5#3 :: encodeDisp32 d

/-- The legacy prefixes and REX, in memory order (R61). -/
def Head.encode (h : Head) : List Byte :=
  h.pfx.map Pfx.toByte ++ (h.rex.map Rex.toByte).toList

/-- The VEX prefix with `mmmmm = 00001` and `pp = 10` (R66 to R68). -/
def Vex.encode (p : Vex) : List Byte :=
  if p.short then
    [0xC5#8, BitVec.ofBool (!p.r) ++ ~~~ p.vvvv ++ BitVec.ofBool p.l ++ 2#2]
  else
    [0xC4#8,
     BitVec.ofBool (!p.r) ++ BitVec.ofBool (!p.x) ++ BitVec.ofBool (!p.b) ++ 1#5,
     BitVec.ofBool p.w ++ ~~~ p.vvvv ++ BitVec.ofBool p.l ++ 2#2]

/-- The EVEX prefix with `mmm = 001`, `pp = 10`, `W = 0` (R69 to R71). -/
def Evex.encode (p : Evex) : List Byte :=
  [0x62#8,
   BitVec.ofBool (!p.r) ++ BitVec.ofBool (!p.x) ++ BitVec.ofBool (!p.b) ++ BitVec.ofBool (!p.r1) ++
     BitVec.ofBool p.p0bit3 ++ 1#3,
   0#1 ++ ~~~ p.vvvv ++ BitVec.ofBool p.p1bit2 ++ 2#2,
   BitVec.ofBool p.z ++ p.ll ++ BitVec.ofBool p.bc ++ BitVec.ofBool (!p.v1) ++ p.aaa]

/-- The bytes of a well-formed instruction, in memory order (R61, R81). -/
def encode : Instr → List Byte
  | .l10rr h reg rm => h.encode ++ [0x0F#8, 0x10#8, pack233 3#2 reg rm]
  | .l10rm h reg m => h.encode ++ 0x0F#8 :: 0x10#8 :: m.encode reg
  | .l11mr h reg m => h.encode ++ 0x0F#8 :: 0x11#8 :: m.encode reg
  | .l11rr h reg rm => h.encode ++ [0x0F#8, 0x11#8, pack233 3#2 reg rm]
  | .v10rr h p reg rm => h.encode ++ p.encode ++ [0x10#8, pack233 3#2 reg rm]
  | .v10rm h p reg m => h.encode ++ p.encode ++ 0x10#8 :: m.encode reg
  | .v11rr h p reg rm => h.encode ++ p.encode ++ [0x11#8, pack233 3#2 reg rm]
  | .v11mr h p reg m => h.encode ++ p.encode ++ 0x11#8 :: m.encode reg
  | .e10rr h p reg rm => h.encode ++ p.encode ++ [0x10#8, pack233 3#2 reg rm]
  | .e10rm h p reg m => h.encode ++ p.encode ++ 0x10#8 :: m.encode reg
  | .e11rr h p reg rm => h.encode ++ p.encode ++ [0x11#8, pack233 3#2 reg rm]
  | .e11mr h p reg m => h.encode ++ p.encode ++ 0x11#8 :: m.encode reg

/-! ## The host's view of a table word -/

/-- How many bytes of a table word are laid out: more than the longest form that executes has (R78). -/
def tableLen : Nat := 15

/-- The first `n` bytes of a word, bits 7:0 first. -/
def wordBytes : Nat → Nat → List Byte
  | 0, _ => []
  | n + 1, w => BitVec.ofNat 8 w :: wordBytes n (w / 256)

/-- The bytes of a table word, every bit from `nbits` on being 0, up to the longest instruction. -/
def tableBytes (nbits w : Nat) : List Byte :=
  wordBytes tableLen (w % 2 ^ nbits)

/-- The instruction the decoder reads from a table word. -/
def decodeTableWord (nbits w : Nat) : Option Instr :=
  match decode (tableBytes nbits w) with
  | .instr i _ => some i
  | _ => none

end Sys2Proof
end

