-- ==== Sys2Proof/Config.lean ====
section
/-! DEFINITION. What a launch fixes (the parameters of 92_eei_decisions), as plain data, and the free
Booleans that stand where the spec admits either of two outcomes. -/

namespace Sys2Proof

/-- The execution mode (R10, R60). Only `long64` is admitted; the others are refused (D1, log 20). -/
inductive Mode where
  | long64
  | compatibility
  | protectedMode
  | virtual8086
  | realAddress
  | systemManagement
deriving DecidableEq, Repr

/-- `MAXVL`, the width of a vector register (R7, D2). -/
inductive VectorLength where
  | vl128
  | vl256
  | vl512
deriving DecidableEq, Repr

/-- `MAXVL` as a number of bits. -/
def VectorLength.bits : VectorLength → Nat
  | .vl128 => 128
  | .vl256 => 256
  | .vl512 => 512

/-- `KW`, the width of a writemask register, held as `KW - 1` so that every value is a width of at least 1
(R9, D4, log 4). -/
structure MaskWidth where
  lessOne : Nat
deriving DecidableEq, Repr

/-- `KW` as a number of bits. -/
def MaskWidth.bits (w : MaskWidth) : Nat :=
  w.lessOne + 1

/-- 16 bits, the width with AVX512F alone (D4). -/
def MaskWidth.kw16 : MaskWidth := ⟨15⟩

/-- 64 bits, the width with AVX512BW (D4). -/
def MaskWidth.kw64 : MaskWidth := ⟨63⟩

/-- How many bits a linear address has: 48 with 4-level paging, 57 with 5-level (R32, log 7). -/
inductive LinearWidth where
  | la48
  | la57
deriving DecidableEq, Repr

/-- The CPUID feature flags the processor reports (R29). -/
structure Features where
  sse : Bool
  avx : Bool
  avx512f : Bool
deriving DecidableEq, Repr

/-- The encoding classes system software has enabled (R30). -/
structure Enabled where
  legacySse : Bool
  vex : Bool
  evex : Bool
deriving DecidableEq, Repr

/-- What a masked-off EVEX memory form checks (R139, D13). -/
inductive FaultSuppression where
  | suppress
  | check
  | either
deriving DecidableEq, Repr

/-- The segment an access uses (R26, R77). -/
inductive Seg where
  | cs
  | ss
  | ds
  | es
  | fs
  | gs
deriving DecidableEq, Repr

/-- The kind of an access, as `MemCheck` takes it (R47). -/
inductive AccessKind where
  | read
  | write
deriving DecidableEq, Repr

/-- What an entry of the launch map answers for an access (R47). A page fault carries its code and its
reported address as opaque values (R136); the address is given as an offset from the access (log 21). -/
inductive MapAnswer where
  | ok
  | ss
  | gp
  | pf (code : Nat) (offset : Word)
deriving DecidableEq, Repr

/-- One entry of the launch map: its answer for every access whose first byte lies in
`first .. last`, of the given kind and segment (`none`: of any). The first entry that fits an access
answers for it, so a list of entries can stand for every function `MemCheck` may be (log 6). -/
structure MapEntry where
  first : Nat
  last : Nat
  kind : Option AccessKind
  seg : Option Seg
  answer : MapAnswer
deriving DecidableEq, Repr

/-- A range of addresses, the last one included. -/
structure Region where
  first : Nat
  last : Nat
deriving DecidableEq, Repr

/-- The launch configuration: the parameters of the spec, none of which an instruction changes (R10,
R29 to R31, R150). -/
structure Launch where
  /-- `Mode` (R60). -/
  mode : Mode
  /-- `MAXVL` (R7). -/
  maxvl : VectorLength
  /-- `KW` (R9). -/
  kw : MaskWidth
  /-- The width of a linear address (R32). -/
  linearWidth : LinearWidth
  /-- `Features` (R29). -/
  features : Features
  /-- `Enabled` (R30). -/
  enabled : Enabled
  /-- `TS` (R31). -/
  ts : Bool
  /-- `AlignCheck` (R42). -/
  alignCheck : Bool
  /-- `FaultSuppression` (R139). -/
  faultSuppression : FaultSuppression
  /-- `MemCheck`'s answers at canonical addresses (R46, R47). -/
  memMap : List MapEntry
  /-- The device addresses (R45, log 16). -/
  devices : List Region
  /-- The addresses that are not admitted for fetch (R46, R163, log 25). -/
  noFetch : List Region
deriving DecidableEq, Repr

/-- FREE VALUE (R139, log 9): with `FaultSuppression = either`, whether the n-th open choice of the run
suppresses the fault of a masked-off access. -/
opaque Config.suppressChoice : Nat → Bool

/-- FREE VALUE (R142, log 10): where `#AC(0)` and a `MemCheck` exception both apply, whether the n-th
open choice of the run reports `#AC(0)`. -/
opaque Config.alignmentFirst : Nat → Bool

end Sys2Proof
end

