-- ==== Sys2Proof/Machine/System.lean ====
section
/-! DEFINITION. Where the launch configuration comes from: the CPUID, CR0, CR4 and XCR0 bits behind
`Features`, `Enabled` and `TS` (R29 to R31), their reset values (R160) and the steps by which system
software enables the classes (R162). No instruction of the model reads or writes these registers; State
holds the three switches (log 19). -/

namespace Sys2Proof.Machine

/-- The control registers that R30 and R31 name. They are no part of State (R30, log 19). -/
structure SystemRegs where
  cr0 : BitVec 64
  cr4 : BitVec 64
  xcr0 : BitVec 64
deriving DecidableEq, Repr

/-- Their values after power-up or RESET (R160). -/
def SystemRegs.afterReset : SystemRegs :=
  { cr0 := 0x60000010#64, cr4 := 0#64, xcr0 := 1#64 }

/-- Which classes are enabled (the table of R30): `CR0.EM` is bit 2, `CR4.OSFXSR` bit 9, `CR4.OSXSAVE`
bit 18, and XCR0 bits 2:1 and 7:5 are the state components. -/
def SystemRegs.enabled (r : SystemRegs) : Enabled :=
  { legacySse := !r.cr0.getLsbD 2 && r.cr4.getLsbD 9
    vex := r.cr4.getLsbD 18 && r.xcr0.extractLsb' 1 2 == 3#2
    evex := r.cr4.getLsbD 18 && r.xcr0.extractLsb' 1 2 == 3#2 && r.xcr0.extractLsb' 5 3 == 7#3 }

/-- `TS` is `CR0.TS`, bit 3 (R31). -/
def SystemRegs.ts (r : SystemRegs) : Bool :=
  r.cr0.getLsbD 3

/-- Steps 2 to 5 of R162: `OSFXSR` and `OSXSAVE` set, `EM` and `TS` kept 0, XCR0 bits 2:1 and 7:5 set. -/
def SystemRegs.boot (r : SystemRegs) : SystemRegs :=
  { cr0 := r.cr0 &&& ~~~ 0xC#64
    cr4 := r.cr4 ||| 0x40200#64
    xcr0 := r.xcr0 ||| 0xE6#64 }

/-- The feature flags in CPUID (R29): SSE is leaf 1 EDX bit 25, AVX leaf 1 ECX bit 28, AVX512F leaf 7
EBX bit 16. -/
def featuresOfCpuid (leaf1edx leaf1ecx leaf7ebx : BitVec 32) : Features :=
  { sse := leaf1edx.getLsbD 25
    avx := leaf1ecx.getLsbD 28
    avx512f := leaf7ebx.getLsbD 16 }

end Sys2Proof.Machine
end

