-- ==== Sys2Proof/Machine/State.lean ====
section
/-! DEFINITION. The machine's state as plain data, the reasons a step can stop, and the state a run
starts from. Behaviour is in Machine/Ops.lean and the files after it. -/

namespace Sys2Proof.Machine

/-- Memory: the bytes that differ from what an unlisted address reads as (0, log 5), by rising address
(R32). Its operations are in Machine/Ops.lean. -/
abbrev Memory := List Host.Cell

/-- The exceptions of R138. Each is a terminal, precise fault: it carries the address of the instruction
that raised it, and no state has changed (R143, D8, log 11). All are safe: the machine stops where a
processor would go on in a handler. -/
inductive Fault where
  /-- `#UD`, vector 6, no error code. Raised by the preambles of every form (R104, R114, R125). Safe. -/
  | invalidOpcode (pc : Word)
  /-- `#NM`, vector 7, no error code. Raised by the preambles of every form when `TS` is set (R133). Safe. -/
  | deviceNotAvailable (pc : Word)
  /-- `#SS(0)`, vector 12. Raised by the memory forms (R134). Safe. -/
  | stackFault (pc : Word)
  /-- `#GP(0)`, vector 13. Raised by the memory forms (R135). Safe. -/
  | generalProtection (pc : Word)
  /-- `#PF(code)`, vector 14, with the faulting linear address. Raised by the memory forms (R136). Safe. -/
  | pageFault (code : Nat) (addr : Word) (pc : Word)
  /-- `#AC(0)`, vector 17. Raised by the memory forms under `AlignCheck` (R137). Safe. -/
  | alignmentCheck (pc : Word)
deriving DecidableEq, Repr

/-- The vector number of R138 (informative, D29). -/
def Fault.vector : Fault → Nat
  | .invalidOpcode _ => 6
  | .deviceNotAvailable _ => 7
  | .stackFault _ => 12
  | .generalProtection _ => 13
  | .pageFault _ _ _ => 14
  | .alignmentCheck _ => 17

/-- The error code of R138, where the exception has one. -/
def Fault.errorCode : Fault → Option Nat
  | .invalidOpcode _ => none
  | .deviceNotAvailable _ => none
  | .stackFault _ => some 0
  | .generalProtection _ => some 0
  | .pageFault code _ _ => some code
  | .alignmentCheck _ => some 0

/-- The saved instruction pointer: the address of the instruction itself (R143). -/
def Fault.pc : Fault → Word
  | .invalidOpcode pc => pc
  | .deviceNotAvailable pc => pc
  | .stackFault pc => pc
  | .generalProtection pc => pc
  | .pageFault _ _ pc => pc
  | .alignmentCheck pc => pc

/-- Why a step is refused: the spec gives the case no meaning (R143). All are safe: nothing is claimed of
what a processor does there. -/
inductive Refusal where
  /-- An instruction without a meaning in the model. Raised by no arm of `exec`. Safe. -/
  | notModelled (mnemonic : String)
  /-- Any mode other than 64-bit mode (R60, D1, D28). Raised by the fetch and by every preamble. Safe. -/
  | unsupportedMode
  /-- The bytes are no form of MOVSS (R82, R89). Raised by the fetch and by the launch of a program.
  Safe. -/
  | notMovss
  /-- A prefix sequence that R62 (legacy) or R68 and R71 (VEX, EVEX, log 13) do not admit. Raised by the
  preambles. Safe. -/
  | prefixSequence
  /-- `VEX.L = 1`, unpredictable (R87, U1). Raised by the VEX preamble. Safe. -/
  | vexLengthOne
  /-- `z = 1` with `aaa = 000` (R88). Raised by the EVEX preamble. Safe. -/
  | zeroingWithoutMask
  /-- `L'L = 11` (R88). Raised by the EVEX preamble. Safe. -/
  | evexLengthReserved
  /-- The instruction's bytes or the next address wrap or leave the canonical range (R27, D15, log 14).
  Raised by the fetch and by the launch of a program. Safe. -/
  | fetchOutOfRange
  /-- A byte of the instruction is not admitted for fetch, which R163 has as a premise of the launch
  (log 25). Raised by the fetch and by the launch of a program. Safe. -/
  | fetchNotAdmitted
  /-- A byte of the instruction was written by a store of the run (R53, D22, log 15). Raised by the
  fetch. Safe. -/
  | selfModifyingCode
  /-- The access touches a device (R45, log 16). Raised by the memory forms. Safe. -/
  | deviceAccess
deriving DecidableEq, Repr

/-- The state of the one logical processor (R151), its memory, and the launch configuration. -/
structure State where
  /-- The vector registers `V[0..31]`, `MAXVL` bits each (R20). -/
  v : Vector Vec 32
  /-- The writemask registers `k[0..7]`, `KW` bits each (R23). -/
  k : Vector KMask 8
  /-- The general registers `x[0..15]` (R26). -/
  x : Vector Word 16
  /-- `FS.base` (R26). -/
  fsBase : Word
  /-- `GS.base` (R26). -/
  gsBase : Word
  /-- The instruction pointer (R27). -/
  pc : Word
  /-- RFLAGS, which no form reads or writes (R28, log 18). -/
  rflags : Word
  /-- MXCSR, which no form reads or writes (R15, R28, log 18). -/
  mxcsr : BitVec 32
  /-- Memory (R32). -/
  mem : Memory
  /-- The model's own: the addresses that stores of the run have written, rising (R53, log 15). -/
  stored : List Nat
  /-- The model's own: how many open choices the run has taken (R139, logs 9 and 10). -/
  choices : Nat
  /-- The launch configuration (R10), constant (R150). -/
  cfg : Launch
deriving DecidableEq, Repr

/-- The launch configuration a run starts with: the conventions at the head of 95_test_vectors, `Enabled`
and `TS` as R162's boot steps leave them after R160's reset values, and the defaults of R42 and R139
(log 1). -/
def launchAtReset : Launch :=
  { mode := .long64
    maxvl := .vl512
    kw := .kw16
    linearWidth := .la48
    features := ⟨true, true, true⟩
    enabled := SystemRegs.afterReset.boot.enabled
    ts := SystemRegs.afterReset.boot.ts
    alignCheck := false
    faultSuppression := .either
    memMap := []
    devices := []
    noFetch := [] }

/-- The state a run starts from. The spec has no reset step (R160, R161, D17): the model starts in 64-bit
mode, in a launch state. The register values are those of R160's table where it has them, else 0 (log 2);
`pc` is the base of 95_test_vectors (log 1). Nothing is claimed from these values: a claim is about every
state. -/
def State.reset : State :=
  { v := Vector.replicate 32 0#512
    k := Vector.replicate 8 0
    x := Vector.replicate 16 0#64
    fsBase := 0#64
    gsBase := 0#64
    pc := 0x1000#64
    rflags := 2#64
    mxcsr := 0x1F80#32
    mem := []
    stored := []
    choices := 0
    cfg := launchAtReset }

/-- The processor right after power-up or RESET as R160's table has it, for the record: real-address mode,
no class enabled. The model does not start here (R160, R161, log 1). -/
def State.powerUp : State :=
  { State.reset with
    pc := 0xFFF0#64
    cfg := { launchAtReset with
      mode := .realAddress
      enabled := SystemRegs.afterReset.enabled
      ts := SystemRegs.afterReset.ts } }

end Sys2Proof.Machine
end

