-- ==== Sys2Proof/Machine/Ops.lean ====
section
/-! DEFINITION. The named operations over registers and memory, the checks of a memory access, and how an
instruction ends: with an exception, a refusal, or the next state (00_scope R13, 20_memory,
60_exceptions R134 to R143). -/

namespace Sys2Proof.Machine

/-! ## How an instruction ends -/

/-- What stops an instruction before it has any effect (R143). -/
inductive Stop where
  | fault (f : Fault)
  | refuse (r : Refusal)
deriving DecidableEq, Repr

/-- TAKING AN EXCEPTION, and refusing: `raise` of R13. The step ends with the fault or the refusal and
gives no next state, so nothing the instruction would have done is done (R143, D8). The spec describes no
entry and no return (R144, R145). -/
def Stop.outcome : Stop → Host.Outcome State Fault Refusal
  | .fault f => .fault f
  | .refuse r => .refused r

/-- The first of a list of conditions that holds says what stops the instruction (R142). -/
def firstStop : List (Bool × Stop) → Option Stop
  | [] => none
  | (c, stop) :: rest => if c then some stop else firstStop rest

/-- The end of every form: what stopped it, or the state `t` it leads to. -/
def finish (stop : Option Stop) (t : State) : Host.Outcome State Fault Refusal :=
  match stop with
  | some e => e.outcome
  | none => .next t

/-- `pc <- (pc + ilen) mod 2^64` (R27). -/
def State.advance (n : Nat) (s : State) : State :=
  { s with pc := s.pc + BitVec.ofNat 64 n }

/-! ## Vector, mask and general registers -/

/-- The low `n` bits of a vector register, the rest of its carrier being 0 (R7, log 3). -/
def truncVec (n : Nat) (v : Vec) : Vec :=
  (v.setWidth n).setWidth 512

/-- `V[i]`: the `MAXVL` bits of vector register `i` (R13, R20). -/
def State.readVec (s : State) (i : VReg) : Vec :=
  truncVec s.cfg.maxvl.bits (s.v[i.toNat]'i.isLt)

/-- `V[i] <- v`: writes all `MAXVL` bits of vector register `i` (R13, R20). -/
def State.writeVec (i : VReg) (v : Vec) (s : State) : State :=
  { s with v := s.v.set i.toNat (truncVec s.cfg.maxvl.bits v) i.isLt }

/-- `k[i]`: the `KW` bits of mask register `i` (R13, R23). -/
def State.readMask (s : State) (i : BitVec 3) : BitVec s.cfg.kw.bits :=
  BitVec.ofNat s.cfg.kw.bits (s.k[i.toNat]'i.isLt)

/-- `x[i]`: general register `i` (R13, R26). -/
def State.readGpr (s : State) (i : GReg) : Word :=
  s.x[i.toNat]'i.isLt

/-- Bits 31:0 of a vector register, the low doubleword (R20). -/
def lowDword (v : Vec) : DWord :=
  v.extractLsb' 0 32

/-- Bits 127:32 of a vector register, the rest of its XMM part (R22). -/
def midBits (v : Vec) : BitVec 96 :=
  v.extractLsb' 32 96

/-- Bits `MAXVL-1:128` of a vector register, in the carrier (R22). -/
def upperBits (v : Vec) : BitVec 384 :=
  v.extractLsb' 128 384

/-- A vector register put together from the three bit ranges of R22: `MAXVL-1:128`, 127:32, 31:0. -/
def packVec (upper : BitVec 384) (mid : BitVec 96) (low : DWord) : Vec :=
  upper ++ mid ++ low

/-! ## Memory -/

/-- The byte at an address; an unlisted one reads 0 (log 5). -/
def Memory.read : Memory → Nat → Byte
  | [], _ => 0#8
  | (a', c) :: m, a => if a = a' then c else Memory.read m a

/-- Puts a listed byte before the first higher address. -/
def Memory.insert (a : Nat) (c : Byte) : Memory → Memory
  | [] => [(a, c)]
  | (a', c') :: m => if a < a' then (a, c) :: (a', c') :: m else (a', c') :: Memory.insert a c m

/-- Writes one byte; writing what an unlisted address reads as takes the entry out. -/
def Memory.write (m : Memory) (a : Nat) (c : Byte) : Memory :=
  if c = 0#8 then m.filter (fun e => e.1 != a)
  else Memory.insert a c (m.filter (fun e => e.1 != a))

/-- The canonical form: 64-bit addresses, strictly rising, each entry other than 0. -/
def Memory.wf : Memory → Bool
  | [] => true
  | (a, c) :: m =>
    decide (a < 2 ^ 64) && c != 0#8 && m.all (fun e => decide (a < e.1)) && Memory.wf m

/-- Puts an address into a rising list without repeats. -/
def insertAddr (a : Nat) : List Nat → List Nat
  | [] => [a]
  | b :: l => if a < b then a :: b :: l else if a = b then b :: l else b :: insertAddr a l

/-- The canonical form of the stored addresses: 64-bit, strictly rising. -/
def storedWf : List Nat → Bool
  | [] => true
  | a :: l => decide (a < 2 ^ 64) && l.all (fun b => decide (a < b)) && storedWf l

/-- `M[a]`: the byte at a linear address (R41). -/
def State.byteAt (s : State) (a : Word) : Byte :=
  s.mem.read a.toNat

/-- `M[a] <- c`, by a store of the run (R41, R53). -/
def State.writeByte (a : Word) (c : Byte) (s : State) : State :=
  { s with
    mem := s.mem.write a.toNat c
    stored := insertAddr a.toNat s.stored }

/-- The value `MemRead(a, 4)` returns: little-endian, addresses modulo 2^64 (R41, R43). -/
def State.read32 (s : State) (a : Word) : DWord :=
  s.byteAt (a + 3#64) ++ s.byteAt (a + 2#64) ++ s.byteAt (a + 1#64) ++ s.byteAt a

/-- What `MemWrite(a, 4, d)` does: bits 7:0 to `a`, up to bits 31:24 to `a + 3` (R41, R43). -/
def State.write32 (a : Word) (d : DWord) (s : State) : State :=
  (((s.writeByte a (d.extractLsb' 0 8)).writeByte (a + 1#64) (d.extractLsb' 8 8)).writeByte
    (a + 2#64) (d.extractLsb' 16 8)).writeByte (a + 3#64) (d.extractLsb' 24 8)

/-! ## What a memory access may raise -/

/-- A canonical address: its high bits all equal bit 47, or bit 56 with 5-level paging (R32). -/
def canonical (w : LinearWidth) (a : Word) : Bool :=
  match w with
  | .la48 => (a.setWidth 48).signExtend 64 == a
  | .la57 => (a.setWidth 57).signExtend 64 == a

/-- The addresses of the `n` bytes of an access (R41). -/
def accessBytes (a : Word) (n : Nat) : List Word :=
  (List.range n).map fun i => a + BitVec.ofNat 64 i

/-- Whether a map entry answers for an access (R47, log 6). -/
def entryFits (e : MapEntry) (a : Word) (kind : AccessKind) (seg : Seg) : Bool :=
  decide (e.first ≤ a.toNat) && decide (a.toNat ≤ e.last) &&
    (e.kind == none || e.kind == some kind) && (e.seg == none || e.seg == some seg)

/-- The exception a map answer is, for an access at `a` by the instruction at `pc` (R47, R136, log 21). -/
def answerFault (pc a : Word) : MapAnswer → Option Fault
  | .ok => none
  | .ss => some (.stackFault pc)
  | .gp => some (.generalProtection pc)
  | .pf code offset => some (.pageFault code (a + offset) pc)

/-- `MemCheck(a, n, kind, seg)` (R47): `#SS(0)` or `#GP(0)` by the segment when a byte is not canonical
(R134, R135); otherwise what the launch map answers. -/
def State.memCheck (s : State) (a : Word) (n : Nat) (kind : AccessKind) (seg : Seg) : Option Fault :=
  if (accessBytes a n).all (canonical s.cfg.linearWidth) then
    match s.cfg.memMap.find? (fun e => entryFits e a kind seg) with
    | some e => answerFault s.pc a e.answer
    | none => none
  else if seg = .ss then some (.stackFault s.pc)
  else some (.generalProtection s.pc)

/-- Whether an access at `a` is an unaligned one that `AlignCheck` forbids (R42, R137). -/
def State.misaligned (s : State) (a : Word) : Bool :=
  s.cfg.alignCheck && a.toNat % 4 != 0

/-- The exception of a 4-byte access: `#AC(0)` (R137) or `MemCheck`'s answer (R47), and either of them
where both apply (R142, log 10). -/
def State.accessFault (s : State) (a : Word) (kind : AccessKind) (seg : Seg) : Option Fault :=
  match s.memCheck a 4 kind seg, s.misaligned a with
  | none, false => none
  | none, true => some (.alignmentCheck s.pc)
  | some f, false => some f
  | some f, true =>
    some (if Config.alignmentFirst s.choices then .alignmentCheck s.pc else f)

/-- Whether one of the `n` bytes at `a` lies in one of the regions. -/
def touches (regions : List Region) (a : Word) (n : Nat) : Bool :=
  (accessBytes a n).any fun b =>
    regions.any fun r => decide (r.first ≤ b.toNat) && decide (b.toNat ≤ r.last)

/-- Whether one of the four bytes at `a` belongs to a device (R45, log 16). -/
def State.touchesDevice (s : State) (a : Word) : Bool :=
  touches s.cfg.devices a 4

/-- What stops an access of `MemRead(a, 4)` or `MemWrite(a, 4, v)` (R45, R47). -/
def State.accessStop (s : State) (a : Word) (kind : AccessKind) (seg : Seg) : Option Stop :=
  if s.touchesDevice a then some (.refuse .deviceAccess)
  else (s.accessFault a kind seg).map .fault

/-- `masked_off_probe` (R139): what stops a masked-off access. `either` takes a free Boolean (log 9). -/
def State.probeStop (s : State) (a : Word) (kind : AccessKind) (seg : Seg) : Option Stop :=
  match s.accessFault a kind seg with
  | none => none
  | some f =>
    match s.cfg.faultSuppression with
    | .suppress => none
    | .check => some (.fault f)
    | .either => if Config.suppressChoice s.choices then none else some (.fault f)

/-- The state after a masked-off access that was not stopped: where the choice of R139 was taken, the
next one is a fresh one (log 9). -/
def State.afterProbe (a : Word) (kind : AccessKind) (seg : Seg) (s : State) : State :=
  match s.accessFault a kind seg with
  | none => s
  | some _ =>
    if s.cfg.faultSuppression = .either then { s with choices := s.choices + 1 } else s

end Sys2Proof.Machine
end

