-- ==== Sys2Proof/Machine/Operands.lean ====
section
/-! DEFINITION. Every operand form: register numbers (30_encoding R73, R74), the effective and linear
address of a memory operand (R77) with its displacement (R76, R79), and its segment. -/

namespace Sys2Proof

/-! ## Register numbers -/

/-- `R` of a legacy-class form: that of REX, 0 without one (R63). -/
def Head.r (h : Head) : Bool := (h.rex.map Rex.r).getD false

/-- `X` of a legacy-class form (R63). -/
def Head.x (h : Head) : Bool := (h.rex.map Rex.x).getD false

/-- `B` of a legacy-class form (R63). -/
def Head.b (h : Head) : Bool := (h.rex.map Rex.b).getD false

/-- A general register number: `B ++ rm`, `B ++ SIB.base` or `X ++ SIB.index` (R77). -/
def gpr (hi : Bool) (lo : BitVec 3) : GReg :=
  BitVec.ofBool hi ++ lo

/-- A vector register number of the legacy and VEX classes, 0 to 15 (R73). -/
def vreg4 (hi : Bool) (lo : BitVec 3) : VReg :=
  BitVec.ofBool false ++ BitVec.ofBool hi ++ lo

/-- A vector register number of the EVEX class, 0 to 31 (R74). -/
def vreg5 (top hi : Bool) (lo : BitVec 3) : VReg :=
  BitVec.ofBool top ++ BitVec.ofBool hi ++ lo

/-- The register `VEX.vvvv` names (R73). -/
def Vex.vreg (p : Vex) : VReg :=
  0#1 ++ p.vvvv

/-- The register `EVEX.vvvv` names, `V' ++ vvvv` (R74). -/
def Evex.vreg (p : Evex) : VReg :=
  BitVec.ofBool p.v1 ++ p.vvvv

/-- A `67` prefix selects the 32-bit effective-address size (R62). -/
def Head.addr32 (h : Head) : Bool :=
  h.pfx.contains .addrSize

/-- `d` of R77: the displacement, `disp8` times the scale `N` (R76, R79). -/
def Disp.value (scale : Word) : Disp → Word
  | .absent => 0#64
  | .d8 c => c.signExtend 64 * scale
  | .d32 c => c.signExtend 64

/-- The default segment of R77: SS for base register 4 or 5, else DS. -/
def MemForm.defaultSeg (b : Bool) : MemForm → Seg
  | .ripRel _ => .ds
  | .base rm _ => if gpr b rm = 4#4 ∨ gpr b rm = 5#4 then .ss else .ds
  | .sib _ _ sb _ => if gpr b sb = 4#4 ∨ gpr b sb = 5#4 then .ss else .ds
  | .sibNoBase _ _ _ => .ds

/-- The segment of the access: an FS or GS override wins, the other overrides change nothing (R62, R77). -/
def Head.seg (h : Head) (b : Bool) (m : MemForm) : Seg :=
  if h.pfx.contains .segFs then .fs
  else if h.pfx.contains .segGs then .gs
  else m.defaultSeg b

end Sys2Proof

namespace Sys2Proof.Machine

/-! ## Memory operands -/

/-- A memory operand: its linear address and the segment of the access (R77). -/
structure MemOperand where
  addr : Word
  seg : Seg
deriving DecidableEq, Repr

/-- `r(n)` of R77: a general register at the effective-address size. -/
def State.addrReg (s : State) (addr32 : Bool) (n : GReg) : Word :=
  if addr32 then ((s.readGpr n).setWidth 32).setWidth 64 else s.readGpr n

/-- `iv` of R77: no index when `X ++ SIB.index` is 4, else the index register times `2^SIB.scale`. -/
def State.indexValue (s : State) (addr32 : Bool) (x : Bool) (scale : BitVec 2) (index : BitVec 3) : Word :=
  if gpr x index = 4#4 then 0#64 else s.addrReg addr32 (gpr x index) <<< scale.toNat

/-- The sum of R77 before it is cut to the address size. `next` is the address of the next
instruction, `n` the displacement scale `N` of R79. -/
def State.addrSum (s : State) (addr32 : Bool) (x b : Bool) (n next : Word) : MemForm → Word
  | .ripRel d => next + d.signExtend 64
  | .base rm d => s.addrReg addr32 (gpr b rm) + d.value n
  | .sib scale index sb d =>
    s.addrReg addr32 (gpr b sb) + s.indexValue addr32 x scale index + d.value n
  | .sibNoBase scale index d => s.indexValue addr32 x scale index + d.signExtend 64

/-- `ea` of R77: the sum modulo 2^64, or its low 32 bits zero-extended. -/
def State.effAddr (s : State) (addr32 : Bool) (x b : Bool) (n next : Word) (m : MemForm) : Word :=
  if addr32 then ((s.addrSum addr32 x b n next m).setWidth 32).setWidth 64
  else s.addrSum addr32 x b n next m

/-- `segbase` of R77. -/
def State.segBase (s : State) : Seg → Word
  | .fs => s.fsBase
  | .gs => s.gsBase
  | .cs => 0#64
  | .ss => 0#64
  | .ds => 0#64
  | .es => 0#64

/-- The memory operand of a form of length `ilen` whose prefixes give `X` and `B`, with displacement
scale `n` (R77, R79). -/
def State.operand (s : State) (h : Head) (x b : Bool) (n : Word) (ilen : Nat) (m : MemForm) :
    MemOperand :=
  { addr := s.segBase (h.seg b m) + s.effAddr h.addr32 x b n (s.pc + BitVec.ofNat 64 ilen) m
    seg := h.seg b m }

/-- The memory operand of a legacy-class form (`N = 1`). -/
def legacyOperand (h : Head) (m : MemForm) (ilen : Nat) (s : State) : MemOperand :=
  s.operand h h.x h.b 1#64 ilen m

/-- The memory operand of a VEX-class form (`N = 1`). -/
def vexOperand (h : Head) (p : Vex) (m : MemForm) (ilen : Nat) (s : State) : MemOperand :=
  s.operand h p.x p.b 1#64 ilen m

/-- The memory operand of an EVEX-class form (`N = 4`, Tuple1 Scalar, R79). -/
def evexOperand (h : Head) (p : Evex) (m : MemForm) (ilen : Nat) (s : State) : MemOperand :=
  s.operand h p.x p.b 4#64 ilen m

end Sys2Proof.Machine
end

