-- ==== Sys2Proof/Machine/Checks.lean ====
section
/-! DEFINITION. The preambles the forms run before anything else: refusals, then `#UD`, then `#NM`
(R104, R114, R125, R142). -/

namespace Sys2Proof

/-- How many prefix bytes satisfy a test. -/
def Head.count (h : Head) (p : Pfx → Bool) : Nat :=
  (h.pfx.filter p).length

/-- The six segment overrides (R62). -/
def isSegPfx : Pfx → Bool
  | .segCs => true
  | .segSs => true
  | .segDs => true
  | .segEs => true
  | .segFs => true
  | .segGs => true
  | .lock => false
  | .repne => false
  | .rep => false
  | .opSize => false
  | .addrSize => false

/-- At most one segment override and at most one `67` (R62, R68, R71). -/
def Head.overridesAdmitted (h : Head) : Bool :=
  decide (h.count isSegPfx ≤ 1) && decide (h.count (· == .addrSize) ≤ 1)

/-- What R62 admits before a legacy-class MOVSS, `F0` set aside: exactly one `F3`, no `F2`, no `66`, at
most one segment override, at most one `67`. -/
def Head.legacyAdmitted (h : Head) : Bool :=
  h.count (· == .rep) == 1 && !h.pfx.contains .repne && !h.pfx.contains .opSize &&
    h.overridesAdmitted

/-- A LOCK prefix is present (R131). -/
def Head.locked (h : Head) : Bool :=
  h.pfx.contains .lock

/-- A REX, `66`, `F2`, `F3` or `F0` byte, which may not stand before a VEX or EVEX prefix (R131). -/
def Head.badForVex (h : Head) : Bool :=
  h.rex.isSome || h.pfx.contains .opSize || h.pfx.contains .repne || h.pfx.contains .rep ||
    h.pfx.contains .lock

end Sys2Proof

namespace Sys2Proof.Machine

/-- `raise #UD` by the instruction at `pc`. -/
def State.ud (s : State) : Stop := .fault (.invalidOpcode s.pc)

/-- `raise #NM` by the instruction at `pc`. -/
def State.nm (s : State) : Stop := .fault (.deviceNotAvailable s.pc)

/-- `legacy_checks()` (R104). -/
def legacyChecks (h : Head) (s : State) : Option Stop :=
  firstStop
    [ (s.cfg.mode != .long64, .refuse .unsupportedMode),
      (!h.legacyAdmitted, .refuse .prefixSequence),
      (h.locked, s.ud),
      (!s.cfg.features.sse || !s.cfg.enabled.legacySse, s.ud),
      (s.cfg.ts, s.nm) ]

/-- `vex_checks(form)` (R114). `isMem` says the form is V10RM or V11MR. The refusal of a repeated segment
override or `67` is log 13. -/
def vexChecks (isMem : Bool) (h : Head) (p : Vex) (s : State) : Option Stop :=
  firstStop
    [ (s.cfg.mode != .long64, .refuse .unsupportedMode),
      (p.l, .refuse .vexLengthOne),
      (!h.overridesAdmitted, .refuse .prefixSequence),
      (h.badForVex, s.ud),
      (!s.cfg.features.avx || !s.cfg.enabled.vex, s.ud),
      (isMem && p.vvvv != 0#4, s.ud),
      (s.cfg.ts, s.nm) ]

/-- `evex_checks(form)` (R125). `isMem` says the form is E10RM or E11MR, `isStore` that it is E11MR. The
refusal of a repeated segment override or `67` is log 13. -/
def evexChecks (isMem isStore : Bool) (h : Head) (p : Evex) (s : State) : Option Stop :=
  firstStop
    [ (s.cfg.mode != .long64, .refuse .unsupportedMode),
      (p.z && p.aaa == 0#3, .refuse .zeroingWithoutMask),
      (p.ll == 3#2, .refuse .evexLengthReserved),
      (!h.overridesAdmitted, .refuse .prefixSequence),
      (h.badForVex, s.ud),
      (p.p0bit3 || !p.p1bit2, s.ud),
      (!s.cfg.features.avx512f || !s.cfg.enabled.evex, s.ud),
      (isMem && (p.vvvv != 0#4 || p.v1), s.ud),
      (isStore && p.z, s.ud),
      (p.bc, s.ud),
      (s.cfg.ts, s.nm) ]

end Sys2Proof.Machine
end

