-- ==== Sys2Proof/Machine/Masking.lean ====
section
/-! DEFINITION. The EVEX writemask (30_encoding R72, 42_vmovss_evex R124). -/

namespace Sys2Proof.Machine

/-- `maskbit` (R72): 1 without a writemask, else bit 0 of the mask register `aaa` names. -/
def State.maskBit (s : State) (p : Evex) : Bool :=
  if p.aaa = 0#3 then true else (s.readMask p.aaa).getLsbD 0

/-- `masked_low(new, old)` (R124). -/
def maskedLow (maskBit z : Bool) (new old : DWord) : DWord :=
  if maskBit then new else if z then 0#32 else old

end Sys2Proof.Machine
end

