-- ==== Sys2Proof/Machine/Moves.lean ====
section
/-! DEFINITION. The shared data movements of the three classes: what the forms do to the destination
once nothing stops them. Every source is read before the one write (00_scope R13, D24). -/

namespace Sys2Proof.Machine

/-- `V[d] <- V[d][MAXVL-1:32] ++ V[src][31:0]` (R100, R103). -/
def State.mergeLow (d src : VReg) (s : State) : State :=
  s.writeVec d
    (packVec (upperBits (s.readVec d)) (midBits (s.readVec d)) (lowDword (s.readVec src)))

/-- `V[d] <- V[d][MAXVL-1:128] ++ zeros(96) ++ t` (R101). -/
def State.loadKeepUpper (d : VReg) (t : DWord) (s : State) : State :=
  s.writeVec d (packVec (upperBits (s.readVec d)) 0#96 t)

/-- `V[d] <- zeros(MAXVL-128) ++ V[s1][127:32] ++ lo` (R110, R112, R120, R122). -/
def State.mergeZeroUpper (d s1 : VReg) (lo : DWord) (s : State) : State :=
  s.writeVec d (packVec 0#384 (midBits (s.readVec s1)) lo)

/-- `V[d] <- zeros(MAXVL-32) ++ lo` (R111, R121). -/
def State.loadZeroUpper (d : VReg) (lo : DWord) (s : State) : State :=
  s.writeVec d (packVec 0#384 0#96 lo)

/-- The legacy register move `V[d] <- V[d][MAXVL-1:32] ++ V[src][31:0]`, behind `stop`. -/
def moveLegacy (stop : Option Stop) (d src : VReg) (ilen : Nat) (s : State) :
    Host.Outcome State Fault Refusal :=
  finish stop ((s.mergeLow d src).advance ilen)

/-- The VEX register move, behind `stop`. -/
def moveVex (stop : Option Stop) (d s1 s2 : VReg) (ilen : Nat) (s : State) :
    Host.Outcome State Fault Refusal :=
  finish stop ((s.mergeZeroUpper d s1 (lowDword (s.readVec s2))).advance ilen)

/-- The EVEX register move under a writemask, behind `stop`. -/
def moveEvex (stop : Option Stop) (p : Evex) (d s1 s2 : VReg) (ilen : Nat) (s : State) :
    Host.Outcome State Fault Refusal :=
  finish stop
    ((s.mergeZeroUpper d s1
      (maskedLow (s.maskBit p) p.z (lowDword (s.readVec s2)) (lowDword (s.readVec d)))).advance ilen)

/-- The legacy load from `o`, behind the preamble `stop` and the access's own checks (R101). -/
def loadLegacy (stop : Option Stop) (o : MemOperand) (d : VReg) (ilen : Nat) (s : State) :
    Host.Outcome State Fault Refusal :=
  finish (stop.or (s.accessStop o.addr .read o.seg))
    ((s.loadKeepUpper d (s.read32 o.addr)).advance ilen)

/-- The VEX load from `o` (R111). -/
def loadVex (stop : Option Stop) (o : MemOperand) (d : VReg) (ilen : Nat) (s : State) :
    Host.Outcome State Fault Refusal :=
  finish (stop.or (s.accessStop o.addr .read o.seg))
    ((s.loadZeroUpper d (s.read32 o.addr)).advance ilen)

/-- The store to `o`, the same in every class (R102, R113, and R123 with the mask bit 1). -/
def storeLow (stop : Option Stop) (o : MemOperand) (src : VReg) (ilen : Nat) (s : State) :
    Host.Outcome State Fault Refusal :=
  finish (stop.or (s.accessStop o.addr .write o.seg))
    ((s.write32 o.addr (lowDword (s.readVec src))).advance ilen)

/-- The EVEX load from `o` under a writemask: with the mask bit 0 there is no access, only the probe of
R139 (R121, R45). -/
def loadEvex (stop : Option Stop) (p : Evex) (o : MemOperand) (d : VReg) (ilen : Nat) (s : State) :
    Host.Outcome State Fault Refusal :=
  if s.maskBit p then
    finish (stop.or (s.accessStop o.addr .read o.seg))
      ((s.loadZeroUpper d (s.read32 o.addr)).advance ilen)
  else
    finish (stop.or (s.probeStop o.addr .read o.seg))
      (((s.afterProbe o.addr .read o.seg).loadZeroUpper d
        (maskedLow false p.z 0#32 (lowDword (s.readVec d)))).advance ilen)

/-- The EVEX store to `o` under a writemask: with the mask bit 0 nothing is written (R123, R45). -/
def storeEvex (stop : Option Stop) (p : Evex) (o : MemOperand) (src : VReg) (ilen : Nat) (s : State) :
    Host.Outcome State Fault Refusal :=
  if s.maskBit p then storeLow stop o src ilen s
  else
    finish (stop.or (s.probeStop o.addr .write o.seg))
      ((s.afterProbe o.addr .write o.seg).advance ilen)

end Sys2Proof.Machine
end

