-- ==== Sys2Proof/Machine/EvexForms.lean ====
section
/-! DEFINITION. The EVEX-encoded forms (42_vmovss_evex R120 to R123). -/

namespace Sys2Proof.Machine

/-- `VMOVSS xmm1 (k1)(z), xmm2, xmm3`, opcode 10 (R120): `d = R' ++ R ++ reg`, `s1 = V' ++ vvvv`,
`s2 = X ++ B ++ rm`. -/
def execE10rr (h : Head) (p : Evex) (reg rm : BitVec 3) (s : State) :
    Host.Outcome State Fault Refusal :=
  moveEvex (evexChecks false false h p s) p (vreg5 p.r1 p.r reg) p.vreg (vreg5 p.x p.b rm)
    (Instr.e10rr h p reg rm).ilen s

/-- `VMOVSS xmm1 (k1)(z), m32` (R121): `d = R' ++ R ++ reg`. -/
def execE10rm (h : Head) (p : Evex) (reg : BitVec 3) (m : MemForm) (s : State) :
    Host.Outcome State Fault Refusal :=
  loadEvex (evexChecks true false h p s) p (evexOperand h p m (Instr.e10rm h p reg m).ilen s)
    (vreg5 p.r1 p.r reg) (Instr.e10rm h p reg m).ilen s

/-- `VMOVSS xmm1 (k1)(z), xmm2, xmm3`, opcode 11 (R122): `d = X ++ B ++ rm`, `s1 = V' ++ vvvv`,
`s2 = R' ++ R ++ reg`. -/
def execE11rr (h : Head) (p : Evex) (reg rm : BitVec 3) (s : State) :
    Host.Outcome State Fault Refusal :=
  moveEvex (evexChecks false false h p s) p (vreg5 p.x p.b rm) p.vreg (vreg5 p.r1 p.r reg)
    (Instr.e11rr h p reg rm).ilen s

/-- `VMOVSS m32 (k1), xmm1` (R123): `s = R' ++ R ++ reg`. -/
def execE11mr (h : Head) (p : Evex) (reg : BitVec 3) (m : MemForm) (s : State) :
    Host.Outcome State Fault Refusal :=
  storeEvex (evexChecks true true h p s) p (evexOperand h p m (Instr.e11mr h p reg m).ilen s)
    (vreg5 p.r1 p.r reg) (Instr.e11mr h p reg m).ilen s

end Sys2Proof.Machine
end

