-- ==== Sys2Proof/Machine/Legacy.lean ====
section
/-! DEFINITION. The legacy SSE forms (40_movss_legacy R100 to R103). -/

namespace Sys2Proof.Machine

/-- `MOVSS xmm1, xmm2`, opcode 10 (R100): `d = R ++ reg`, `s = B ++ rm`. -/
def execL10rr (h : Head) (reg rm : BitVec 3) (s : State) : Host.Outcome State Fault Refusal :=
  moveLegacy (legacyChecks h s) (vreg4 h.r reg) (vreg4 h.b rm) (Instr.l10rr h reg rm).ilen s

/-- `MOVSS xmm1, m32` (R101): `d = R ++ reg`. -/
def execL10rm (h : Head) (reg : BitVec 3) (m : MemForm) (s : State) :
    Host.Outcome State Fault Refusal :=
  loadLegacy (legacyChecks h s) (legacyOperand h m (Instr.l10rm h reg m).ilen s) (vreg4 h.r reg)
    (Instr.l10rm h reg m).ilen s

/-- `MOVSS m32, xmm1` (R102): `s = R ++ reg`. -/
def execL11mr (h : Head) (reg : BitVec 3) (m : MemForm) (s : State) :
    Host.Outcome State Fault Refusal :=
  storeLow (legacyChecks h s) (legacyOperand h m (Instr.l11mr h reg m).ilen s) (vreg4 h.r reg)
    (Instr.l11mr h reg m).ilen s

/-- `MOVSS xmm2, xmm1`, opcode 11 (R103): `d = B ++ rm`, `s = R ++ reg`. -/
def execL11rr (h : Head) (reg rm : BitVec 3) (s : State) : Host.Outcome State Fault Refusal :=
  moveLegacy (legacyChecks h s) (vreg4 h.b rm) (vreg4 h.r reg) (Instr.l11rr h reg rm).ilen s

end Sys2Proof.Machine
end

