-- ==== Sys2Proof/Machine/VexForms.lean ====
section
/-! DEFINITION. The VEX-encoded forms (41_vmovss_vex R110 to R113). -/

namespace Sys2Proof.Machine

/-- `VMOVSS xmm1, xmm2, xmm3`, opcode 10 (R110): `d = R ++ reg`, `s1 = vvvv`, `s2 = B ++ rm`. -/
def execV10rr (h : Head) (p : Vex) (reg rm : BitVec 3) (s : State) :
    Host.Outcome State Fault Refusal :=
  moveVex (vexChecks false h p s) (vreg4 p.r reg) p.vreg (vreg4 p.b rm) (Instr.v10rr h p reg rm).ilen s

/-- `VMOVSS xmm1, m32` (R111): `d = R ++ reg`. -/
def execV10rm (h : Head) (p : Vex) (reg : BitVec 3) (m : MemForm) (s : State) :
    Host.Outcome State Fault Refusal :=
  loadVex (vexChecks true h p s) (vexOperand h p m (Instr.v10rm h p reg m).ilen s) (vreg4 p.r reg)
    (Instr.v10rm h p reg m).ilen s

/-- `VMOVSS xmm1, xmm2, xmm3`, opcode 11 (R112): `d = B ++ rm`, `s1 = vvvv`, `s2 = R ++ reg`. -/
def execV11rr (h : Head) (p : Vex) (reg rm : BitVec 3) (s : State) :
    Host.Outcome State Fault Refusal :=
  moveVex (vexChecks false h p s) (vreg4 p.b rm) p.vreg (vreg4 p.r reg) (Instr.v11rr h p reg rm).ilen s

/-- `VMOVSS m32, xmm1` (R113): `s = R ++ reg`. -/
def execV11mr (h : Head) (p : Vex) (reg : BitVec 3) (m : MemForm) (s : State) :
    Host.Outcome State Fault Refusal :=
  storeLow (vexChecks true h p s) (vexOperand h p m (Instr.v11mr h p reg m).ilen s) (vreg4 p.r reg)
    (Instr.v11mr h p reg m).ilen s

end Sys2Proof.Machine
end

