-- ==== Sys2Proof/Machine/Dispatch.lean ====
section
/-! DEFINITION. The meaning of every instruction, one arm per constructor of Instr. -/

namespace Sys2Proof.Machine

def exec (i : Instr) (s : State) : Host.Outcome State Fault Refusal :=
  match i with
  | .l10rr h reg rm => Sys2Proof.Machine.execL10rr h reg rm s
  | .l10rm h reg m => Sys2Proof.Machine.execL10rm h reg m s
  | .l11mr h reg m => Sys2Proof.Machine.execL11mr h reg m s
  | .l11rr h reg rm => Sys2Proof.Machine.execL11rr h reg rm s
  | .v10rr h p reg rm => Sys2Proof.Machine.execV10rr h p reg rm s
  | .v10rm h p reg m => Sys2Proof.Machine.execV10rm h p reg m s
  | .v11rr h p reg rm => Sys2Proof.Machine.execV11rr h p reg rm s
  | .v11mr h p reg m => Sys2Proof.Machine.execV11mr h p reg m s
  | .e10rr h p reg rm => Sys2Proof.Machine.execE10rr h p reg rm s
  | .e10rm h p reg m => Sys2Proof.Machine.execE10rm h p reg m s
  | .e11rr h p reg rm => Sys2Proof.Machine.execE11rr h p reg rm s
  | .e11mr h p reg m => Sys2Proof.Machine.execE11mr h p reg m s

end Sys2Proof.Machine
end

