-- ==== Sys2Proof/Machine/Fetch.lean ====
section
/-! DEFINITION. Reading the instruction at `pc` (R60, R82, R27, R53) and placing one there. -/

namespace Sys2Proof.Machine

/-- What the fetch finds at `pc`. -/
inductive Fetched where
  | instr (i : Instr)
  | refuse (r : Refusal)
deriving DecidableEq, Repr

/-- The `n` bytes from address `a` on, addresses modulo 2^64. -/
def State.bytesFrom (s : State) (a : Word) (n : Nat) : List Byte :=
  (accessBytes a n).map s.byteAt

/-- An instruction of length `n` at `pc` neither wraps past 2^64 nor leaves the canonical range, nor does
the address after it (R27, D15, log 14). -/
def State.fetchInRange (s : State) (n : Nat) : Bool :=
  decide (s.pc.toNat + n < 2 ^ 64) &&
    (accessBytes s.pc (n + 1)).all (canonical s.cfg.linearWidth)

/-- Whether a store of the run wrote one of the `n` bytes at `pc` (R53, D22, log 15). -/
def State.codeModified (s : State) (n : Nat) : Bool :=
  (accessBytes s.pc n).any fun a => s.stored.contains a.toNat

/-- Every one of the `n` bytes at `pc` is admitted for fetch (R46, R163, log 25). -/
def State.codeAdmitted (s : State) (n : Nat) : Bool :=
  !touches s.cfg.noFetch s.pc n

/-- How many bytes the fetch looks at: enough for every instruction there is in memory. A legacy prefix
byte is not 0, so it is a listed byte, and `tailLen` bytes are enough after the last one. There is no
other limit on the length of an instruction (R78, D25, log 12). -/
def State.fetchWindow (s : State) : Nat :=
  s.mem.length + tailLen

/-- The instruction at `pc`, or why there is none (R60, R82, R143). The bytes looked at end before the
instruction only where prefix bytes fill the address space, and go round it (R27, log 12). -/
def State.fetch (s : State) : Fetched :=
  if s.cfg.mode ≠ .long64 then .refuse .unsupportedMode
  else
    match decode (s.bytesFrom s.pc s.fetchWindow) with
    | .notMovss => .refuse .notMovss
    | .truncated => .refuse .fetchOutOfRange
    | .instr i _ =>
      if !s.fetchInRange i.ilen then .refuse .fetchOutOfRange
      else if !s.codeAdmitted i.ilen then .refuse .fetchNotAdmitted
      else if s.codeModified i.ilen then .refuse .selfModifyingCode
      else .instr i

/-- Puts bytes into memory from address `a` on, from outside the run: they do not count as stored by the
program (log 24). -/
def State.placeBytes (a : Word) : List Byte → State → State
  | [], s => s
  | c :: bs, s =>
    State.placeBytes (a + 1#64) bs
      { s with
        mem := s.mem.write a.toNat c
        stored := s.stored.filter (· != a.toNat) }

/-- `s` with the bytes at `pc`, in 64-bit mode (R163, log 24). -/
def State.placeProgram (bs : List Byte) (s : State) : State :=
  State.placeBytes s.pc bs { s with cfg := { s.cfg with mode := .long64 } }

end Sys2Proof.Machine
end

