-- ==== Sys2Proof/Machine/Step.lean ====
section
/-! DEFINITION. One step: fetch, then run (R27, R82, R143). -/

namespace Sys2Proof.Machine

/-- One step of the machine (R143): the next state, a fault, or a refusal. -/
def step (s : State) : Host.Outcome State Fault Refusal :=
  match s.fetch with
  | .refuse r => .refused r
  | .instr i => exec i s

/-- `s` with the instruction of a table word placed where `step` fetches next (log 24). -/
def State.withFetchWord (s : State) (nbits w : Nat) : State :=
  State.placeProgram (tableBytes nbits w) s

end Sys2Proof.Machine
end

