-- ==== Sys2Proof/Machine/OpcodeTable.lean ====
section
/-! DEFINITION. The twelve rows of spec/opcode_table.json as data: match, mask and the constraint on
`mod`, over the normalised byte string of 30_encoding R81. The decoder does not use them: they are here
to be compared with it. -/

namespace Sys2Proof

/-- One row: a byte string fits it when `(bytes AND mask) = pattern` and its `mod` is 11 exactly when the
row is a register form (R81). -/
structure OpRow where
  id : String
  pattern : List Byte
  mask : List Byte
  regForm : Bool
deriving DecidableEq, Repr

/-- The rows of the legacy class. -/
def legacyRows : List OpRow :=
  [ ⟨"L10RR", [0xF3#8, 0x0F#8, 0x10#8, 0xC0#8], [0xFF#8, 0xFF#8, 0xFF#8, 0xC0#8], true⟩,
    ⟨"L10RM", [0xF3#8, 0x0F#8, 0x10#8, 0x00#8], [0xFF#8, 0xFF#8, 0xFF#8, 0x00#8], false⟩,
    ⟨"L11MR", [0xF3#8, 0x0F#8, 0x11#8, 0x00#8], [0xFF#8, 0xFF#8, 0xFF#8, 0x00#8], false⟩,
    ⟨"L11RR", [0xF3#8, 0x0F#8, 0x11#8, 0xC0#8], [0xFF#8, 0xFF#8, 0xFF#8, 0xC0#8], true⟩ ]

/-- The rows of the VEX class. -/
def vexRows : List OpRow :=
  [ ⟨"V10RR", [0xC4#8, 0x01#8, 0x02#8, 0x10#8, 0xC0#8],
      [0xFF#8, 0x1F#8, 0x03#8, 0xFF#8, 0xC0#8], true⟩,
    ⟨"V10RM", [0xC4#8, 0x01#8, 0x02#8, 0x10#8, 0x00#8],
      [0xFF#8, 0x1F#8, 0x03#8, 0xFF#8, 0x00#8], false⟩,
    ⟨"V11RR", [0xC4#8, 0x01#8, 0x02#8, 0x11#8, 0xC0#8],
      [0xFF#8, 0x1F#8, 0x03#8, 0xFF#8, 0xC0#8], true⟩,
    ⟨"V11MR", [0xC4#8, 0x01#8, 0x02#8, 0x11#8, 0x00#8],
      [0xFF#8, 0x1F#8, 0x03#8, 0xFF#8, 0x00#8], false⟩ ]

/-- The rows of the EVEX class. -/
def evexRows : List OpRow :=
  [ ⟨"E10RR", [0x62#8, 0x01#8, 0x02#8, 0x00#8, 0x10#8, 0xC0#8],
      [0xFF#8, 0x07#8, 0x83#8, 0x00#8, 0xFF#8, 0xC0#8], true⟩,
    ⟨"E10RM", [0x62#8, 0x01#8, 0x02#8, 0x00#8, 0x10#8, 0x00#8],
      [0xFF#8, 0x07#8, 0x83#8, 0x00#8, 0xFF#8, 0x00#8], false⟩,
    ⟨"E11RR", [0x62#8, 0x01#8, 0x02#8, 0x00#8, 0x11#8, 0xC0#8],
      [0xFF#8, 0x07#8, 0x83#8, 0x00#8, 0xFF#8, 0xC0#8], true⟩,
    ⟨"E11MR", [0x62#8, 0x01#8, 0x02#8, 0x00#8, 0x11#8, 0x00#8],
      [0xFF#8, 0x07#8, 0x83#8, 0x00#8, 0xFF#8, 0x00#8], false⟩ ]

/-- The twelve rows. -/
def opcodeRows : List OpRow :=
  legacyRows ++ vexRows ++ evexRows

/-- Whether a normalised byte string, its last byte being ModRM, fits a row (R81). -/
def OpRow.fits (r : OpRow) (bs : List Byte) : Bool :=
  bs.length == r.mask.length && List.zipWith (· &&& ·) bs r.mask == r.pattern &&
    (match bs.getLast? with
      | some c => (c.extractLsb' 6 2 == 3#2) == r.regForm
      | none => false)

/-- The row of an instruction, by its id (R81). -/
def Instr.rowId : Instr → String
  | .l10rr _ _ _ => "L10RR"
  | .l10rm _ _ _ => "L10RM"
  | .l11mr _ _ _ => "L11MR"
  | .l11rr _ _ _ => "L11RR"
  | .v10rr _ _ _ _ => "V10RR"
  | .v10rm _ _ _ _ => "V10RM"
  | .v11rr _ _ _ _ => "V11RR"
  | .v11mr _ _ _ _ => "V11MR"
  | .e10rr _ _ _ _ => "E10RR"
  | .e10rm _ _ _ _ => "E10RM"
  | .e11rr _ _ _ _ => "E11RR"
  | .e11mr _ _ _ _ => "E11MR"

/-- The normalised byte string of R81 from the bytes of an encoding: for the legacy class `F3 0F op
ModRM` without the other prefixes, for the VEX class the three-byte prefix, for all without prefixes
before the class byte, and nothing after ModRM. -/
def normalise (h : Head) (bs : List Byte) : List Byte :=
  match bs.drop h.size with
  | 0x0F#8 :: op :: c :: _ => [0xF3#8, 0x0F#8, op, c]
  | 0xC5#8 :: c1 :: op :: c :: _ =>
    [0xC4#8, c1.extractLsb' 7 1 ++ 3#2 ++ 1#5, 0#1 ++ c1.extractLsb' 0 7, op, c]
  | 0xC4#8 :: b1 :: b2 :: op :: c :: _ => [0xC4#8, b1, b2, op, c]
  | 0x62#8 :: p0 :: p1 :: p2 :: op :: c :: _ => [0x62#8, p0, p1, p2, op, c]
  | _ => []

/-- What stands before the class byte. -/
def Instr.head : Instr → Head
  | .l10rr h _ _ => h
  | .l10rm h _ _ => h
  | .l11mr h _ _ => h
  | .l11rr h _ _ => h
  | .v10rr h _ _ _ => h
  | .v10rm h _ _ _ => h
  | .v11rr h _ _ _ => h
  | .v11mr h _ _ _ => h
  | .e10rr h _ _ _ => h
  | .e10rm h _ _ _ => h
  | .e11rr h _ _ _ => h
  | .e11mr h _ _ _ => h

end Sys2Proof
end

