-- ==== Sys2Proof/Machine/Flags.lean ====
section
/-! DEFINITION. The status and control registers that hold flags. No form of MOVSS computes, reads or
writes a flag (R28, R130), so there is no flag computation to define: the model's flag operations are
the view of both registers and the replacement of both, in terms of which that rule is stated. -/

namespace Sys2Proof.Machine

/-- RFLAGS and MXCSR (R28). -/
def State.flagRegs (s : State) : Word × BitVec 32 :=
  (s.rflags, s.mxcsr)

/-- The same state with other contents of RFLAGS and MXCSR. -/
def State.withFlags (rflags : Word) (mxcsr : BitVec 32) (s : State) : State :=
  { s with rflags := rflags, mxcsr := mxcsr }

end Sys2Proof.Machine
end

