-- ==== Sys2Proof/Machine/Program.lean ====
section
/-! DEFINITION. A program as a finite byte string, the refusal of a whole program at its launch, and its
run to its end (R163, R169, R142). -/

namespace Sys2Proof.Machine

/-! ## The forms of a program -/

/-- How the reading of a program's bytes, form after form, comes to an end. -/
inductive Reading where
  /-- After the last byte of a form. -/
  | whole
  /-- At bytes that are no form of MOVSS (R82). -/
  | notMovss
  /-- Within a form, the program ending before it does. -/
  | cut
deriving DecidableEq, Repr

/-- Reads at most `n` forms off the front of a byte string (R82, R90). -/
def readForms : Nat → List Byte → List Instr × Reading
  | _, [] => ([], .whole)
  | 0, _ :: _ => ([], .cut)
  | n + 1, c :: bs =>
    match decode (c :: bs) with
    | .instr i rest => (i :: (readForms n rest).1, (readForms n rest).2)
    | .notMovss => ([], .notMovss)
    | .truncated => ([], .cut)

/-- The forms a program uses, in order, up to the first bytes that are none. -/
def programForms (prog : List Byte) : List Instr :=
  (readForms prog.length prog).1

/-- How the reading of a program comes to an end. -/
def programReading (prog : List Byte) : Reading :=
  (readForms prog.length prog).2

/-- The address just past a program (R169). -/
def programEnd (prog : List Byte) (base : Word) : Word :=
  base + BitVec.ofNat 64 prog.length

/-! ## The refusal of a program -/

/-- The preamble of a form (R104, R114, R125). -/
def preamble (i : Instr) (s : State) : Option Stop :=
  match i with
  | .l10rr h _ _ => legacyChecks h s
  | .l10rm h _ _ => legacyChecks h s
  | .l11mr h _ _ => legacyChecks h s
  | .l11rr h _ _ => legacyChecks h s
  | .v10rr h p _ _ => vexChecks false h p s
  | .v10rm h p _ _ => vexChecks true h p s
  | .v11rr h p _ _ => vexChecks false h p s
  | .v11mr h p _ _ => vexChecks true h p s
  | .e10rr h p _ _ => evexChecks false false h p s
  | .e10rm h p _ _ => evexChecks true false h p s
  | .e11rr h p _ _ => evexChecks false false h p s
  | .e11mr h p _ _ => evexChecks true true h p s

/-- The refusal among what may stop an instruction. -/
def Stop.refusal? : Stop → Option Refusal
  | .fault _ => none
  | .refuse r => some r

/-- The refusal of a form, for a form the spec gives no meaning (R143). It depends on the form and on the
mode alone. -/
def formRefusal (i : Instr) (s : State) : Option Refusal :=
  (preamble i s).bind Stop.refusal?

/-- Why a program has no run at all, where that can be told from its bytes and its place: it leaves the
canonical range (R27, D15), it is not admitted for fetch (R163), it holds a form the spec gives no meaning
(R87, R88, R62, R60), or bytes that are no form (R82). -/
def State.programRefusal (prog : List Byte) (base : Word) (s : State) : Option Refusal :=
  let here : State := { s with pc := base }
  if !here.fetchInRange prog.length then some .fetchOutOfRange
  else if !here.codeAdmitted prog.length then some .fetchNotAdmitted
  else
    match (programForms prog).findSome? (fun i => formRefusal i s) with
    | some r => some r
    | none => if programReading prog = .notMovss then some .notMovss else none

/-! ## The run of a program -/

/-- What becomes of a program (R169). -/
inductive RunEnd where
  /-- `pc` is at the end of the program: the run's final state. -/
  | final (t : State)
  /-- The instruction at `pc` of a state that is not final has raised an exception: the run ends there. -/
  | faulted (f : Fault) (t : State)
  /-- The program is refused and has no run. -/
  | refused (r : Refusal)
  /-- The steps allowed are over and `pc` is not at the end: only a program that is cut within its last
  form can pass its end. -/
  | unended (t : State)
deriving DecidableEq, Repr

/-- At most `n` steps, until `pc` is at `stop` (R169). -/
def State.runTo (stop : Word) : Nat → State → RunEnd
  | 0, s => if s.pc = stop then .final s else .unended s
  | n + 1, s =>
    if s.pc = stop then .final s
    else
      match step s with
      | .next t => State.runTo stop n t
      | .fault f => .faulted f s
      | .refused r => .refused r

/-- The run of a program placed at `base`, from a launch state (R169). A refusal, at the launch or at a
step, gives it no run. No form is shorter than a byte, so `prog.length` steps are enough. -/
def State.runProgram (prog : List Byte) (base : Word) (s : State) : RunEnd :=
  match s.programRefusal prog base with
  | some r => .refused r
  | none => s.runTo (programEnd prog base) prog.length

end Sys2Proof.Machine
end

