-- ==== Sys2Proof/Safety.lean ====
section
/-! DEFINITION. The terms claims are made in: the invariant of the machine, when a form executes rather
than stops, what a form leaves unchanged, and the launch premises and the end of a run (R163, R169). -/

namespace Sys2Proof.Machine

/-! ## The invariant -/

/-- What every state of a run satisfies: memory and the stored addresses in their canonical form, no bit
of a register outside its width (R20, R23), vector registers 16 to 31 empty where they do not exist (D3),
and `pc` canonical (R27). -/
structure State.Inv (s : State) : Prop where
  memWf : s.mem.wf = true
  storedOk : storedWf s.stored = true
  vecWidth : ∀ i : VReg, s.readVec i = s.v[i.toNat]'i.isLt
  maskWidth : ∀ i : BitVec 3, s.k[i.toNat]'i.isLt < 2 ^ s.cfg.kw.bits
  absentVecs : s.cfg.features.avx512f = false → ∀ i : VReg, 16 ≤ i.toNat → s.readVec i = 0#512
  pcCanonical : canonical s.cfg.linearWidth s.pc = true

/-! ## When a form executes -/

/-- The conditions of R104 under which a legacy form is neither refused nor faults in its preamble. -/
def LegacyReady (h : Head) (s : State) : Prop :=
  s.cfg.mode = .long64 ∧ h.legacyAdmitted = true ∧ h.locked = false ∧
    s.cfg.features.sse = true ∧ s.cfg.enabled.legacySse = true ∧ s.cfg.ts = false

/-- The conditions of R114 (and log 13), `isMem` for the two memory forms. -/
def VexReady (isMem : Bool) (h : Head) (p : Vex) (s : State) : Prop :=
  s.cfg.mode = .long64 ∧ p.l = false ∧ h.overridesAdmitted = true ∧ h.badForVex = false ∧
    s.cfg.features.avx = true ∧ s.cfg.enabled.vex = true ∧ (isMem = true → p.vvvv = 0#4) ∧
    s.cfg.ts = false

/-- The conditions of R125 (and log 13), `isMem` for the two memory forms, `isStore` for the store. -/
def EvexReady (isMem isStore : Bool) (h : Head) (p : Evex) (s : State) : Prop :=
  s.cfg.mode = .long64 ∧ (p.z = true → p.aaa ≠ 0#3) ∧ p.ll ≠ 3#2 ∧ h.overridesAdmitted = true ∧
    h.badForVex = false ∧ p.p0bit3 = false ∧ p.p1bit2 = true ∧
    s.cfg.features.avx512f = true ∧ s.cfg.enabled.evex = true ∧
    (isMem = true → p.vvvv = 0#4 ∧ p.v1 = false) ∧ (isStore = true → p.z = false) ∧
    p.bc = false ∧ s.cfg.ts = false

/-- The 4-byte access at an operand goes through: `MemCheck` answers ok (R47), it is aligned or
`AlignCheck` is off (R42), and it touches no device (R45). -/
def AccessOk (s : State) (o : MemOperand) (kind : AccessKind) : Prop :=
  s.memCheck o.addr 4 kind o.seg = none ∧ s.misaligned o.addr = false ∧ s.touchesDevice o.addr = false

/-- A masked-off access goes through: its check finds nothing, or `FaultSuppression` is `suppress`
(R139). -/
def ProbeOk (s : State) (o : MemOperand) (kind : AccessKind) : Prop :=
  (s.memCheck o.addr 4 kind o.seg = none ∧ s.misaligned o.addr = false) ∨
    s.cfg.faultSuppression = .suppress

/-- What form an instruction is of, and whether it then executes: `LegacyReady`, `VexReady` or
`EvexReady` of its own fields. -/
def Ready (i : Instr) (s : State) : Prop :=
  match i with
  | .l10rr h _ _ => LegacyReady h s
  | .l10rm h _ _ => LegacyReady h s
  | .l11mr h _ _ => LegacyReady h s
  | .l11rr h _ _ => LegacyReady h s
  | .v10rr h p _ _ => VexReady false h p s
  | .v10rm h p _ _ => VexReady true h p s
  | .v11rr h p _ _ => VexReady false h p s
  | .v11mr h p _ _ => VexReady true h p s
  | .e10rr h p _ _ => EvexReady false false h p s
  | .e10rm h p _ _ => EvexReady true false h p s
  | .e11rr h p _ _ => EvexReady false false h p s
  | .e11mr h p _ _ => EvexReady true true h p s

/-- `k1[0] or no writemask` (R72, R124): the writemask lets the low doubleword through. -/
def MaskOn (p : Evex) (s : State) : Prop :=
  p.aaa = 0#3 ∨ (s.readMask p.aaa).getLsbD 0 = true

/-- The destination register of a form, for a form that has one (R22). -/
def destReg : Instr → Option VReg
  | .l10rr h reg _ => some (vreg4 h.r reg)
  | .l10rm h reg _ => some (vreg4 h.r reg)
  | .l11mr _ _ _ => none
  | .l11rr h _ rm => some (vreg4 h.b rm)
  | .v10rr _ p reg _ => some (vreg4 p.r reg)
  | .v10rm _ p reg _ => some (vreg4 p.r reg)
  | .v11rr _ p _ rm => some (vreg4 p.b rm)
  | .v11mr _ _ _ _ => none
  | .e10rr _ p reg _ => some (vreg5 p.r1 p.r reg)
  | .e10rm _ p reg _ => some (vreg5 p.r1 p.r reg)
  | .e11rr _ p _ rm => some (vreg5 p.x p.b rm)
  | .e11mr _ _ _ _ => none

/-- The memory operand of a form that has one, computed as its meaning computes it, and the kind of its
access (R40). -/
def memOperand (i : Instr) (s : State) : Option (MemOperand × AccessKind) :=
  match i with
  | .l10rr _ _ _ => none
  | .l10rm h _ m => some (legacyOperand h m i.ilen s, .read)
  | .l11mr h _ m => some (legacyOperand h m i.ilen s, .write)
  | .l11rr _ _ _ => none
  | .v10rr _ _ _ _ => none
  | .v10rm h p _ m => some (vexOperand h p m i.ilen s, .read)
  | .v11rr _ _ _ _ => none
  | .v11mr h p _ m => some (vexOperand h p m i.ilen s, .write)
  | .e10rr _ _ _ _ => none
  | .e10rm h p _ m => some (evexOperand h p m i.ilen s, .read)
  | .e11rr _ _ _ _ => none
  | .e11mr h p _ m => some (evexOperand h p m i.ilen s, .write)

/-- A form's access is made: it has no writemask, or its writemask lets it through (R121, R123). -/
def AccessMade (i : Instr) (s : State) : Prop :=
  match i with
  | .l10rr _ _ _ => True
  | .l10rm _ _ _ => True
  | .l11mr _ _ _ => True
  | .l11rr _ _ _ => True
  | .v10rr _ _ _ _ => True
  | .v10rm _ _ _ _ => True
  | .v11rr _ _ _ _ => True
  | .v11mr _ _ _ _ => True
  | .e10rr _ _ _ _ => True
  | .e10rm _ p _ _ => MaskOn p s
  | .e11rr _ _ _ _ => True
  | .e11mr _ p _ _ => MaskOn p s

/-- The source register of a store (R102, R113, R123). -/
def storeSource : Instr → Option VReg
  | .l10rr _ _ _ => none
  | .l10rm _ _ _ => none
  | .l11mr h reg _ => some (vreg4 h.r reg)
  | .l11rr _ _ _ => none
  | .v10rr _ _ _ _ => none
  | .v10rm _ _ _ _ => none
  | .v11rr _ _ _ _ => none
  | .v11mr _ p reg _ => some (vreg4 p.r reg)
  | .e10rr _ _ _ _ => none
  | .e10rm _ _ _ _ => none
  | .e11rr _ _ _ _ => none
  | .e11mr _ p reg _ => some (vreg5 p.r1 p.r reg)

/-- The three encoding classes (R2). -/
inductive EncClass where
  | legacy
  | vex
  | evex
deriving DecidableEq, Repr

/-- The class of a form (R81). -/
def encClass : Instr → EncClass
  | .l10rr _ _ _ => .legacy
  | .l10rm _ _ _ => .legacy
  | .l11mr _ _ _ => .legacy
  | .l11rr _ _ _ => .legacy
  | .v10rr _ _ _ _ => .vex
  | .v10rm _ _ _ _ => .vex
  | .v11rr _ _ _ _ => .vex
  | .v11mr _ _ _ _ => .vex
  | .e10rr _ _ _ _ => .evex
  | .e10rm _ _ _ _ => .evex
  | .e11rr _ _ _ _ => .evex
  | .e11mr _ _ _ _ => .evex

/-- The only exceptions of `r` are `#UD` and `#NM`, raised by the instruction at `pc`. -/
def RaisesOnlyUdOrNm (s : State) (r : Host.Outcome State Fault Refusal) : Prop :=
  ∀ f, r = .fault f → f = .invalidOpcode s.pc ∨ f = .deviceNotAvailable s.pc

/-- The same outcome with the next state changed by `f`. -/
def mapNext (f : State → State) :
    Host.Outcome State Fault Refusal → Host.Outcome State Fault Refusal
  | .next t => .next (f t)
  | .fault e => .fault e
  | .refused e => .refused e

/-! ## Frames -/

/-- Mask registers, general registers, segment bases, flags and the launch configuration are unchanged
(95_test_vectors section 7 (1)). -/
def KeepsControl (s t : State) : Prop :=
  t.k = s.k ∧ t.x = s.x ∧ t.fsBase = s.fsBase ∧ t.gsBase = s.gsBase ∧ t.flagRegs = s.flagRegs ∧
    t.cfg = s.cfg

/-- Every vector register is unchanged. -/
def KeepsVecs (s t : State) : Prop :=
  ∀ i : VReg, t.readVec i = s.readVec i

/-- Every vector register but `d` is unchanged. -/
def KeepsVecsBut (d : VReg) (s t : State) : Prop :=
  ∀ i : VReg, i ≠ d → t.readVec i = s.readVec i

/-- Every byte of memory is unchanged, and nothing counts as stored that did not before. -/
def KeepsMem (s t : State) : Prop :=
  (∀ a : Word, t.byteAt a = s.byteAt a) ∧ t.stored = s.stored

/-- Every byte of memory outside the four bytes at `o` is unchanged. -/
def KeepsMemBut (o : Word) (s t : State) : Prop :=
  ∀ a : Word, a ∉ accessBytes o 4 → t.byteAt a = s.byteAt a

/-! ## Runs, launch premises and the end of a run -/

/-- `features_ok` and `enabled_ok` of one class (R163). -/
def State.classReady (s : State) : EncClass → Bool
  | .legacy => s.cfg.features.sse && s.cfg.enabled.legacySse
  | .vex => s.cfg.features.avx && s.cfg.enabled.vex
  | .evex => s.cfg.features.avx512f && s.cfg.enabled.evex

/-- The CPUID feature flag of a class is reported (R2, R29). -/
def State.classReported (s : State) : EncClass → Bool
  | .legacy => s.cfg.features.sse
  | .vex => s.cfg.features.avx
  | .evex => s.cfg.features.avx512f

/-- A class is enabled (R30). -/
def State.classEnabled (s : State) : EncClass → Bool
  | .legacy => s.cfg.enabled.legacySse
  | .vex => s.cfg.enabled.vex
  | .evex => s.cfg.enabled.evex

/-- `n` steps from `s` lead to `t`, without a fault or a refusal, whatever program there is. -/
inductive Runs : Nat → State → State → Prop where
  | done (s : State) : Runs 0 s s
  | step (n : Nat) (s t u : State) : Sys2Proof.Machine.step s = .next t → Runs n t u → Runs (n + 1) s u

/-- `n` steps of a program that ends at `stop` lead from `s` to `t`: none is made from its end (R169). -/
inductive RunsUntil (stop : Word) : Nat → State → State → Prop where
  | done (s : State) : RunsUntil stop 0 s s
  | step (n : Nat) (s t u : State) : s.pc ≠ stop → Sys2Proof.Machine.step s = .next t →
      RunsUntil stop n t u → RunsUntil stop (n + 1) s u

/-- `features_ok(prog)` (R163): the class of every form the program uses is reported. -/
def FeaturesOk (prog : List Byte) (s : State) : Prop :=
  ∀ i ∈ programForms prog, s.classReported (encClass i) = true

/-- `enabled_ok(prog)` (R163): the class of every form the program uses is enabled. -/
def EnabledOk (prog : List Byte) (s : State) : Prop :=
  ∀ i ∈ programForms prog, s.classEnabled (encClass i) = true

/-- `code_mapped(prog, base)` (R163): the program's bytes stand in memory from `base` on, are admitted for
fetch, and are not written by the program: in no state of its run, the first and the last one included,
does one of them count as stored. -/
def CodeMapped (prog : List Byte) (base : Word) (s : State) : Prop :=
  s.bytesFrom base prog.length = prog ∧
    touches s.cfg.noFetch base prog.length = false ∧
    ∀ n t, RunsUntil (programEnd prog base) n s t →
      ∀ a ∈ accessBytes base prog.length, a.toNat ∉ t.stored

/-- The launch premises of R163. `no_fault` needs no words: a state holds no fault, since a fault has no
next state (R143). -/
def LaunchPremises (prog : List Byte) (base : Word) (s : State) : Prop :=
  s.cfg.mode = .long64 ∧ FeaturesOk prog s ∧ EnabledOk prog s ∧ s.cfg.ts = false ∧
    CodeMapped prog base s ∧ s.pc = base

/-- The end of a run (R169): the last instruction has completed and `pc` points just past it. -/
def AtEnd (prog : List Byte) (base : Word) (s : State) : Prop :=
  s.pc = programEnd prog base

end Sys2Proof.Machine
end

