-- ==== Sys2Proof/Certificates/Slice0/Obligations.lean ====
section
/-! DEFINITION. The statements for the provers, from the numbered rules of spec/. -/

open Sys2Proof Sys2Proof.Machine

/-! ## Encoding and decoding -/

/-- R61 to R81: decoding the encoding of a well-formed instruction gives it back, with the bytes after it
untouched, whatever they are. Every operand and every prefix field at every value. -/
def Obligations.DecodeReadsBackEveryEncoding : Prop :=
  ∀ (i : Instr) (rest : List Byte), i.wf = true → decode (encode i ++ rest) = .instr i rest

/-- R82, R90: whatever the decoder reads is well-formed, and encoding it gives the bytes that were read: no
bit of an encoding is dropped. -/
def Obligations.EncodeReadsBackEveryDecoding : Prop :=
  ∀ (i : Instr) (bs rest : List Byte), decode bs = .instr i rest →
    i.wf = true ∧ encode i ++ rest = bs

/-- R81: the normalised bytes of a well-formed form fit its own row of the opcode table and no other. -/
def Obligations.EachFormFitsExactlyItsOpcodeTableRow : Prop :=
  ∀ i : Instr, i.wf = true → ∀ r ∈ opcodeRows,
    (r.fits (normalise i.head (encode i)) = true ↔ r.id = i.rowId)

/-- Decoding vectors of 95_test_vectors section 2, one of each class and operand shape. -/
def Obligations.SpecWordsDecodeToTheirForms : Prop :=
  decode [0xF3#8, 0x0F#8, 0x10#8, 0xCA#8] = .instr (.l10rr ⟨[.rep], none⟩ 1#3 2#3) [] ∧
  decode [0xF3#8, 0x42#8, 0x0F#8, 0x11#8, 0x44#8, 0xA0#8, 0xFC#8] =
    .instr (.l11mr ⟨[.rep], some ⟨false, false, true, false⟩⟩ 0#3
      (.sib 2#2 4#3 0#3 (.d8 0xFC#8))) [] ∧
  decode [0xC5#8, 0x6A#8, 0x11#8, 0xC1#8] =
    .instr (.v11rr ⟨[], none⟩ ⟨true, true, false, false, false, 2#4, false⟩ 0#3 1#3) [] ∧
  decode [0xC4#8, 0xE1#8, 0xFA#8, 0x10#8, 0x00#8] =
    .instr (.v10rm ⟨[], none⟩ ⟨false, false, false, false, true, 0#4, false⟩ 0#3
      (.base 0#3 .absent)) [] ∧
  decode [0x62#8, 0x01#8, 0x16#8, 0x07#8, 0x10#8, 0xF4#8] =
    .instr (.e10rr ⟨[], none⟩
      ⟨true, true, true, true, false, 13#4, true, false, 0#2, false, true, 7#3⟩ 6#3 4#3) [] ∧
  decode [0x62#8, 0xF1#8, 0x7E#8, 0x09#8, 0x11#8, 0x08#8] =
    .instr (.e11mr ⟨[], none⟩
      ⟨false, false, false, false, false, 0#4, true, false, 0#2, false, false, 1#3⟩ 1#3
      (.base 0#3 .absent)) [] ∧
  decode [0x62#8, 0xF1#8, 0xFE#8, 0x09#8, 0x10#8, 0x00#8] = .notMovss ∧
  decode [0x66#8, 0x0F#8, 0x10#8, 0x06#8] = .notMovss

/-- R78: a form that executes is at least 4 and at most 13 bytes long, an EVEX form at least 6. -/
def Obligations.ExecutedFormsAreFourToThirteenBytesLong : Prop :=
  ∀ (i : Instr) (s t : State), i.wf = true → exec i s = .next t →
    4 ≤ i.ilen ∧ i.ilen ≤ 13 ∧ (encClass i = .evex → 6 ≤ i.ilen)

/-! ## The step -/

/-- R82: when the bytes at `pc`, however many it takes (log 12), decode to an instruction in 64-bit mode, in
range (log 14), admitted for fetch (log 25) and not written by the run (log 15), the step is that
instruction's meaning; `pc` still stands at its first byte, and the meaning itself advances it. -/
def Obligations.StepRunsTheDecodedInstruction : Prop :=
  ∀ (s : State) (i : Instr) (n : Nat) (rest : List Byte), s.cfg.mode = .long64 →
    decode (s.bytesFrom s.pc n) = .instr i rest → s.fetchInRange i.ilen = true →
    s.codeAdmitted i.ilen = true → s.codeModified i.ilen = false → step s = exec i s

/-- R60: "the model refuses to decode in any mode other than 64-bit mode". -/
def Obligations.StepRefusesEveryOtherMode : Prop :=
  ∀ s : State, s.cfg.mode ≠ .long64 → step s = .refused .unsupportedMode

/-- R82, R89: bytes that are no form of MOVSS are refused, and given no `#UD`. -/
def Obligations.StepRefusesBytesThatAreNoForm : Prop :=
  ∀ (s : State) (n : Nat), s.cfg.mode = .long64 → decode (s.bytesFrom s.pc n) = .notMovss →
    step s = .refused .notMovss

/-- R27: an instruction whose end wraps past 2^64, or one of whose bytes or whose next address is not
canonical, is refused (log 14); one that lies in range and has a byte that is not admitted for fetch is
refused too (R163, log 25). -/
def Obligations.StepRefusesCodeThatLeavesTheCanonicalRange : Prop :=
  ∀ (s : State) (i : Instr) (n : Nat) (rest : List Byte), s.cfg.mode = .long64 →
    decode (s.bytesFrom s.pc n) = .instr i rest →
    ((2 ^ 64 ≤ s.pc.toNat + i.ilen ∨
      ∃ k ≤ i.ilen, canonical s.cfg.linearWidth (s.pc + BitVec.ofNat 64 k) = false) →
      step s = .refused .fetchOutOfRange) ∧
    (s.fetchInRange i.ilen = true → ∀ k < i.ilen, ∀ r ∈ s.cfg.noFetch,
      r.first ≤ (s.pc + BitVec.ofNat 64 k).toNat → (s.pc + BitVec.ofNat 64 k).toNat ≤ r.last →
      step s = .refused .fetchNotAdmitted)

/-- R53: after a form has stored to an address, an instruction one of whose bytes stands there is refused
when it is fetched, in every later state in which the address still counts as stored. -/
def Obligations.StepRefusesCodeTheRunHasStoredTo : Prop :=
  (∀ (i : Instr) (s t : State) (o : MemOperand) (a : Word), exec i s = .next t →
    memOperand i s = some (o, .write) → AccessMade i s → a ∈ accessBytes o.addr 4 →
    a.toNat ∈ t.stored) ∧
  (∀ (i : Instr) (s t : State) (n : Nat), exec i s = .next t → n ∈ s.stored → n ∈ t.stored) ∧
  (∀ (s : State) (i : Instr) (n : Nat) (rest : List Byte) (k : Nat), s.cfg.mode = .long64 →
    decode (s.bytesFrom s.pc n) = .instr i rest → s.fetchInRange i.ilen = true →
    s.codeAdmitted i.ilen = true → k < i.ilen →
    (s.pc + BitVec.ofNat 64 k).toNat ∈ s.stored → step s = .refused .selfModifyingCode)

/-- R163, R169: under the launch premises the first instruction of the program is the one that runs, and a
program of one instruction is at its end once it completes. Moreover, in a program made of whole forms,
after `n` steps the form with number `n` is the one that runs, wherever the stores of the steps before it
went, and after the last form the state is at the end. In range as log 14 says. -/
def Obligations.UnderTheLaunchPremisesTheFirstInstructionRuns : Prop :=
  (∀ (i : Instr) (rest : List Byte) (base : Word) (s : State),
    i.wf = true → LaunchPremises (encode i ++ rest) base s → s.fetchInRange i.ilen = true →
    step s = exec i s ∧ ∀ t, step s = .next t → rest = [] → AtEnd (encode i ++ rest) base t) ∧
  (∀ (is : List Instr) (base : Word) (s t : State) (n : Nat),
    (∀ i ∈ is, i.wf = true) → LaunchPremises (is.flatMap encode) base s →
    s.fetchInRange (is.flatMap encode).length = true →
    RunsUntil (programEnd (is.flatMap encode) base) n s t →
    programForms (is.flatMap encode) = is ∧ n ≤ is.length ∧
    t.pc = base + BitVec.ofNat 64 ((is.take n).flatMap encode).length ∧
    (∀ i, is[n]? = some i → step t = exec i t) ∧
    (n = is.length ↔ AtEnd (is.flatMap encode) base t))

/-- R169: the run of a program. It has a final state exactly where steps of the program lead to its end; a
fault ends it in a state that is not final; a program that holds a form the spec gives no meaning, or bytes
that are none, or that comes to a refusal, has no run; a program of whole forms has one of these ends under
the launch premises. The refusals told from the program's place are those of logs 14 and 25. -/
def Obligations.ARunEndsAtTheEndOfItsProgram : Prop :=
  ∀ (prog : List Byte) (base : Word) (s t : State),
    (s.runProgram prog base = .final t → AtEnd prog base t ∧
      ∃ n ≤ prog.length, RunsUntil (programEnd prog base) n s t) ∧
    (∀ f, s.runProgram prog base = .faulted f t → ¬ AtEnd prog base t ∧ step t = .fault f ∧
      ∃ n < prog.length, RunsUntil (programEnd prog base) n s t) ∧
    (∀ n, s.pc = base → s.programRefusal prog base = none →
      RunsUntil (programEnd prog base) n s t →
      (AtEnd prog base t → s.runProgram prog base = .final t) ∧
      (∀ f, ¬ AtEnd prog base t → n < prog.length → step t = .fault f →
        s.runProgram prog base = .faulted f t) ∧
      (∀ r, ¬ AtEnd prog base t → n < prog.length → step t = .refused r →
        s.runProgram prog base = .refused r)) ∧
    (((∃ i ∈ programForms prog, ∃ u : State, ∃ r, u.cfg.mode = .long64 ∧ exec i u = .refused r ∧
          r ≠ .deviceAccess) ∨
        programReading prog = .notMovss ∨ (programForms prog ≠ [] ∧ s.cfg.mode ≠ .long64)) →
      ∃ r, s.runProgram prog base = .refused r) ∧
    (programReading prog = .whole → LaunchPremises prog base s → s.runProgram prog base ≠ .unended t)

/-! ## The legacy forms -/

/-- R100: `MOVSS xmm1, xmm2`, opcode 10: result, frame and exceptions. -/
def Obligations.LegacyMoveOpcode10 : Prop :=
  ∀ (h : Head) (reg rm : BitVec 3) (s : State),
    (LegacyReady h s → ∃ t, exec (.l10rr h reg rm) s = .next t ∧
      (∀ j, (t.readVec (vreg4 h.r reg)).getLsbD j =
        if j < 32 then (s.readVec (vreg4 h.b rm)).getLsbD j
        else (s.readVec (vreg4 h.r reg)).getLsbD j) ∧
      t.pc = s.pc + BitVec.ofNat 64 (Instr.l10rr h reg rm).ilen ∧
      KeepsVecsBut (vreg4 h.r reg) s t ∧ KeepsControl s t ∧ KeepsMem s t ∧ t.choices = s.choices) ∧
    RaisesOnlyUdOrNm s (exec (.l10rr h reg rm) s)

/-- R101: `MOVSS xmm1, m32`: result, frame and exceptions. -/
def Obligations.LegacyLoad : Prop :=
  ∀ (h : Head) (reg : BitVec 3) (m : MemForm) (s : State) (o : MemOperand),
    o = legacyOperand h m (Instr.l10rm h reg m).ilen s → LegacyReady h s →
    (AccessOk s o .read → ∃ t, exec (.l10rm h reg m) s = .next t ∧
      (∀ j, (t.readVec (vreg4 h.r reg)).getLsbD j =
        if j < 32 then (s.read32 o.addr).getLsbD j
        else if j < 128 then false
        else (s.readVec (vreg4 h.r reg)).getLsbD j) ∧
      t.pc = s.pc + BitVec.ofNat 64 (Instr.l10rm h reg m).ilen ∧
      KeepsVecsBut (vreg4 h.r reg) s t ∧ KeepsControl s t ∧ KeepsMem s t ∧ t.choices = s.choices) ∧
    (∀ f, s.touchesDevice o.addr = false → s.accessFault o.addr .read o.seg = some f →
      exec (.l10rm h reg m) s = .fault f)

/-- R102: `MOVSS m32, xmm1`: the four bytes stored, frame and exceptions. -/
def Obligations.LegacyStore : Prop :=
  ∀ (h : Head) (reg : BitVec 3) (m : MemForm) (s : State) (o : MemOperand),
    o = legacyOperand h m (Instr.l11mr h reg m).ilen s → LegacyReady h s →
    (AccessOk s o .write → ∃ t, exec (.l11mr h reg m) s = .next t ∧
      (∀ k < 4, t.byteAt (o.addr + BitVec.ofNat 64 k) =
        (s.readVec (vreg4 h.r reg)).extractLsb' (8 * k) 8) ∧
      t.pc = s.pc + BitVec.ofNat 64 (Instr.l11mr h reg m).ilen ∧
      KeepsVecs s t ∧ KeepsControl s t ∧ KeepsMemBut o.addr s t ∧ t.choices = s.choices) ∧
    (∀ f, s.touchesDevice o.addr = false → s.accessFault o.addr .write o.seg = some f →
      exec (.l11mr h reg m) s = .fault f)

/-- R103: `MOVSS xmm2, xmm1`, opcode 11: result, frame and exceptions. -/
def Obligations.LegacyMoveOpcode11 : Prop :=
  ∀ (h : Head) (reg rm : BitVec 3) (s : State),
    (LegacyReady h s → ∃ t, exec (.l11rr h reg rm) s = .next t ∧
      (∀ j, (t.readVec (vreg4 h.b rm)).getLsbD j =
        if j < 32 then (s.readVec (vreg4 h.r reg)).getLsbD j
        else (s.readVec (vreg4 h.b rm)).getLsbD j) ∧
      t.pc = s.pc + BitVec.ofNat 64 (Instr.l11rr h reg rm).ilen ∧
      KeepsVecsBut (vreg4 h.b rm) s t ∧ KeepsControl s t ∧ KeepsMem s t ∧ t.choices = s.choices) ∧
    RaisesOnlyUdOrNm s (exec (.l11rr h reg rm) s)

/-- R104: the preamble of the four legacy forms, in its order, before anything else, with what R62 admits
counted out over the prefix bytes. The mode test is R60's and its refusal R143's. -/
def Obligations.LegacyPreambleOrder : Prop :=
  ∀ (i : Instr) (h : Head) (reg rm : BitVec 3) (m : MemForm) (s : State),
    i = .l10rr h reg rm ∨ i = .l10rm h reg m ∨ i = .l11mr h reg m ∨ i = .l11rr h reg rm →
    if s.cfg.mode ≠ .long64 then exec i s = .refused .unsupportedMode
    else if h.pfx.count .rep ≠ 1 ∨ .repne ∈ h.pfx ∨ .opSize ∈ h.pfx ∨
        1 < h.pfx.countP (· ∈ [.segCs, .segSs, .segDs, .segEs, .segFs, .segGs]) ∨
        1 < h.pfx.count .addrSize then
      exec i s = .refused .prefixSequence
    else if .lock ∈ h.pfx then exec i s = .fault (.invalidOpcode s.pc)
    else if s.cfg.features.sse = false ∨ s.cfg.enabled.legacySse = false then
      exec i s = .fault (.invalidOpcode s.pc)
    else if s.cfg.ts = true then exec i s = .fault (.deviceNotAvailable s.pc)
    else Ready i s

/-! ## The VEX forms -/

/-- R110: `VMOVSS xmm1, xmm2, xmm3`, opcode 10: result, frame and exceptions. -/
def Obligations.VexMoveOpcode10 : Prop :=
  ∀ (h : Head) (p : Vex) (reg rm : BitVec 3) (s : State),
    (VexReady false h p s → ∃ t, exec (.v10rr h p reg rm) s = .next t ∧
      (∀ j, (t.readVec (vreg4 p.r reg)).getLsbD j =
        if j < 32 then (s.readVec (vreg4 p.b rm)).getLsbD j
        else if j < 128 then (s.readVec p.vreg).getLsbD j
        else false) ∧
      t.pc = s.pc + BitVec.ofNat 64 (Instr.v10rr h p reg rm).ilen ∧
      KeepsVecsBut (vreg4 p.r reg) s t ∧ KeepsControl s t ∧ KeepsMem s t ∧ t.choices = s.choices) ∧
    RaisesOnlyUdOrNm s (exec (.v10rr h p reg rm) s)

/-- R111: `VMOVSS xmm1, m32`: result, frame and exceptions. -/
def Obligations.VexLoad : Prop :=
  ∀ (h : Head) (p : Vex) (reg : BitVec 3) (m : MemForm) (s : State) (o : MemOperand),
    o = vexOperand h p m (Instr.v10rm h p reg m).ilen s → VexReady true h p s →
    (AccessOk s o .read → ∃ t, exec (.v10rm h p reg m) s = .next t ∧
      (∀ j, (t.readVec (vreg4 p.r reg)).getLsbD j =
        if j < 32 then (s.read32 o.addr).getLsbD j else false) ∧
      t.pc = s.pc + BitVec.ofNat 64 (Instr.v10rm h p reg m).ilen ∧
      KeepsVecsBut (vreg4 p.r reg) s t ∧ KeepsControl s t ∧ KeepsMem s t ∧ t.choices = s.choices) ∧
    (∀ f, s.touchesDevice o.addr = false → s.accessFault o.addr .read o.seg = some f →
      exec (.v10rm h p reg m) s = .fault f)

/-- R112: `VMOVSS xmm1, xmm2, xmm3`, opcode 11: result, frame and exceptions. -/
def Obligations.VexMoveOpcode11 : Prop :=
  ∀ (h : Head) (p : Vex) (reg rm : BitVec 3) (s : State),
    (VexReady false h p s → ∃ t, exec (.v11rr h p reg rm) s = .next t ∧
      (∀ j, (t.readVec (vreg4 p.b rm)).getLsbD j =
        if j < 32 then (s.readVec (vreg4 p.r reg)).getLsbD j
        else if j < 128 then (s.readVec p.vreg).getLsbD j
        else false) ∧
      t.pc = s.pc + BitVec.ofNat 64 (Instr.v11rr h p reg rm).ilen ∧
      KeepsVecsBut (vreg4 p.b rm) s t ∧ KeepsControl s t ∧ KeepsMem s t ∧ t.choices = s.choices) ∧
    RaisesOnlyUdOrNm s (exec (.v11rr h p reg rm) s)

/-- R113: `VMOVSS m32, xmm1`: the four bytes stored, frame and exceptions. -/
def Obligations.VexStore : Prop :=
  ∀ (h : Head) (p : Vex) (reg : BitVec 3) (m : MemForm) (s : State) (o : MemOperand),
    o = vexOperand h p m (Instr.v11mr h p reg m).ilen s → VexReady true h p s →
    (AccessOk s o .write → ∃ t, exec (.v11mr h p reg m) s = .next t ∧
      (∀ k < 4, t.byteAt (o.addr + BitVec.ofNat 64 k) =
        (s.readVec (vreg4 p.r reg)).extractLsb' (8 * k) 8) ∧
      t.pc = s.pc + BitVec.ofNat 64 (Instr.v11mr h p reg m).ilen ∧
      KeepsVecs s t ∧ KeepsControl s t ∧ KeepsMemBut o.addr s t ∧ t.choices = s.choices) ∧
    (∀ f, s.touchesDevice o.addr = false → s.accessFault o.addr .write o.seg = some f →
      exec (.v11mr h p reg m) s = .fault f)

/-- R114: the preamble of the four VEX forms, in its order. The mode test is R60's and its refusal R143's;
the refusal of a repeated segment override or `67`, counted out over the prefix bytes, is the model's
reading (log 13). -/
def Obligations.VexPreambleOrder : Prop :=
  ∀ (i : Instr) (h : Head) (p : Vex) (reg rm : BitVec 3) (m : MemForm) (s : State),
    i = .v10rr h p reg rm ∨ i = .v10rm h p reg m ∨ i = .v11rr h p reg rm ∨ i = .v11mr h p reg m →
    if s.cfg.mode ≠ .long64 then exec i s = .refused .unsupportedMode
    else if p.l = true then exec i s = .refused .vexLengthOne
    else if 1 < h.pfx.countP (· ∈ [.segCs, .segSs, .segDs, .segEs, .segFs, .segGs]) ∨
        1 < h.pfx.count .addrSize then
      exec i s = .refused .prefixSequence
    else if h.rex ≠ none ∨ .opSize ∈ h.pfx ∨ .repne ∈ h.pfx ∨ .rep ∈ h.pfx ∨ .lock ∈ h.pfx then
      exec i s = .fault (.invalidOpcode s.pc)
    else if s.cfg.features.avx = false ∨ s.cfg.enabled.vex = false then
      exec i s = .fault (.invalidOpcode s.pc)
    else if (i = .v10rm h p reg m ∨ i = .v11mr h p reg m) ∧ p.vvvv ≠ 0#4 then
      exec i s = .fault (.invalidOpcode s.pc)
    else if s.cfg.ts = true then exec i s = .fault (.deviceNotAvailable s.pc)
    else Ready i s

/-! ## The EVEX forms -/

/-- R120: `VMOVSS xmm1 (k1)(z), xmm2, xmm3`, opcode 10: result under the writemask, frame, exceptions. -/
def Obligations.EvexMoveOpcode10 : Prop :=
  ∀ (h : Head) (p : Evex) (reg rm : BitVec 3) (s : State),
    (EvexReady false false h p s → ∃ t, exec (.e10rr h p reg rm) s = .next t ∧
      (∀ j, ((MaskOn p s → j < 32 → (t.readVec (vreg5 p.r1 p.r reg)).getLsbD j =
            (s.readVec (vreg5 p.x p.b rm)).getLsbD j) ∧
          (¬ MaskOn p s → p.z = false → j < 32 → (t.readVec (vreg5 p.r1 p.r reg)).getLsbD j =
            (s.readVec (vreg5 p.r1 p.r reg)).getLsbD j) ∧
          (¬ MaskOn p s → p.z = true → j < 32 →
            (t.readVec (vreg5 p.r1 p.r reg)).getLsbD j = false) ∧
          (32 ≤ j → j < 128 → (t.readVec (vreg5 p.r1 p.r reg)).getLsbD j =
            (s.readVec p.vreg).getLsbD j) ∧
          (128 ≤ j → (t.readVec (vreg5 p.r1 p.r reg)).getLsbD j = false))) ∧
      t.pc = s.pc + BitVec.ofNat 64 (Instr.e10rr h p reg rm).ilen ∧
      KeepsVecsBut (vreg5 p.r1 p.r reg) s t ∧ KeepsControl s t ∧ KeepsMem s t ∧
      t.choices = s.choices) ∧
    RaisesOnlyUdOrNm s (exec (.e10rr h p reg rm) s)

/-- R121: `VMOVSS xmm1 (k1)(z), m32`: result with the mask bit 1 and with the mask bit 0, frame,
exceptions; a masked-off access is suppressed or checked as R139's parameter says. Under `either` it
completes, with the result of a masked-off access and the model's own counter advanced (log 9), or raises
the fault; which of two faults is raised is log 10. -/
def Obligations.EvexLoad : Prop :=
  ∀ (h : Head) (p : Evex) (reg : BitVec 3) (m : MemForm) (s : State) (o : MemOperand),
    o = evexOperand h p m (Instr.e10rm h p reg m).ilen s → EvexReady true false h p s →
    (MaskOn p s → AccessOk s o .read → ∃ t, exec (.e10rm h p reg m) s = .next t ∧
      (∀ j, (t.readVec (vreg5 p.r1 p.r reg)).getLsbD j =
        if j < 32 then (s.read32 o.addr).getLsbD j else false) ∧
      t.pc = s.pc + BitVec.ofNat 64 (Instr.e10rm h p reg m).ilen ∧
      KeepsVecsBut (vreg5 p.r1 p.r reg) s t ∧ KeepsControl s t ∧ KeepsMem s t ∧
      t.choices = s.choices) ∧
    (¬ MaskOn p s → ProbeOk s o .read → ∃ t, exec (.e10rm h p reg m) s = .next t ∧
      (∀ j, (t.readVec (vreg5 p.r1 p.r reg)).getLsbD j =
        if j < 32 ∧ p.z = false then (s.readVec (vreg5 p.r1 p.r reg)).getLsbD j else false) ∧
      t.pc = s.pc + BitVec.ofNat 64 (Instr.e10rm h p reg m).ilen ∧
      KeepsVecsBut (vreg5 p.r1 p.r reg) s t ∧ KeepsControl s t ∧ KeepsMem s t ∧
      t.choices = s.choices) ∧
    (∀ f, MaskOn p s → s.touchesDevice o.addr = false →
      s.accessFault o.addr .read o.seg = some f → exec (.e10rm h p reg m) s = .fault f) ∧
    (∀ f, ¬ MaskOn p s → s.accessFault o.addr .read o.seg = some f →
      (s.cfg.faultSuppression = .check → exec (.e10rm h p reg m) s = .fault f) ∧
      (s.cfg.faultSuppression = .either → exec (.e10rm h p reg m) s = .fault f ∨
        ∃ t, exec (.e10rm h p reg m) s = .next t ∧
          (∀ j, (t.readVec (vreg5 p.r1 p.r reg)).getLsbD j =
            if j < 32 ∧ p.z = false then (s.readVec (vreg5 p.r1 p.r reg)).getLsbD j else false) ∧
          t.pc = s.pc + BitVec.ofNat 64 (Instr.e10rm h p reg m).ilen ∧
          KeepsVecsBut (vreg5 p.r1 p.r reg) s t ∧ KeepsControl s t ∧ KeepsMem s t ∧
          t.choices = s.choices + 1))

/-- R122: `VMOVSS xmm1 (k1)(z), xmm2, xmm3`, opcode 11: result under the writemask, frame, exceptions. -/
def Obligations.EvexMoveOpcode11 : Prop :=
  ∀ (h : Head) (p : Evex) (reg rm : BitVec 3) (s : State),
    (EvexReady false false h p s → ∃ t, exec (.e11rr h p reg rm) s = .next t ∧
      (∀ j, ((MaskOn p s → j < 32 → (t.readVec (vreg5 p.x p.b rm)).getLsbD j =
            (s.readVec (vreg5 p.r1 p.r reg)).getLsbD j) ∧
          (¬ MaskOn p s → p.z = false → j < 32 → (t.readVec (vreg5 p.x p.b rm)).getLsbD j =
            (s.readVec (vreg5 p.x p.b rm)).getLsbD j) ∧
          (¬ MaskOn p s → p.z = true → j < 32 →
            (t.readVec (vreg5 p.x p.b rm)).getLsbD j = false) ∧
          (32 ≤ j → j < 128 → (t.readVec (vreg5 p.x p.b rm)).getLsbD j =
            (s.readVec p.vreg).getLsbD j) ∧
          (128 ≤ j → (t.readVec (vreg5 p.x p.b rm)).getLsbD j = false))) ∧
      t.pc = s.pc + BitVec.ofNat 64 (Instr.e11rr h p reg rm).ilen ∧
      KeepsVecsBut (vreg5 p.x p.b rm) s t ∧ KeepsControl s t ∧ KeepsMem s t ∧
      t.choices = s.choices) ∧
    RaisesOnlyUdOrNm s (exec (.e11rr h p reg rm) s)

/-- R123: `VMOVSS m32 (k1), xmm1`: the four bytes stored with the mask bit 1, nothing with the mask bit 0,
frame, exceptions. Under `either` (R139) a masked-off store with a fault raises it, or changes nothing but
`pc` and the model's own counter (log 9); which of two faults is raised is log 10. -/
def Obligations.EvexStore : Prop :=
  ∀ (h : Head) (p : Evex) (reg : BitVec 3) (m : MemForm) (s : State) (o : MemOperand),
    o = evexOperand h p m (Instr.e11mr h p reg m).ilen s → EvexReady true true h p s →
    (MaskOn p s → AccessOk s o .write → ∃ t, exec (.e11mr h p reg m) s = .next t ∧
      (∀ k < 4, t.byteAt (o.addr + BitVec.ofNat 64 k) =
        (s.readVec (vreg5 p.r1 p.r reg)).extractLsb' (8 * k) 8) ∧
      t.pc = s.pc + BitVec.ofNat 64 (Instr.e11mr h p reg m).ilen ∧
      KeepsVecs s t ∧ KeepsControl s t ∧ KeepsMemBut o.addr s t ∧ t.choices = s.choices) ∧
    (¬ MaskOn p s → ProbeOk s o .write →
      exec (.e11mr h p reg m) s =
        .next { s with pc := s.pc + BitVec.ofNat 64 (Instr.e11mr h p reg m).ilen }) ∧
    (∀ f, MaskOn p s → s.touchesDevice o.addr = false →
      s.accessFault o.addr .write o.seg = some f → exec (.e11mr h p reg m) s = .fault f) ∧
    (∀ f, ¬ MaskOn p s → s.accessFault o.addr .write o.seg = some f →
      (s.cfg.faultSuppression = .check → exec (.e11mr h p reg m) s = .fault f) ∧
      (s.cfg.faultSuppression = .either → exec (.e11mr h p reg m) s = .fault f ∨
        exec (.e11mr h p reg m) s =
          .next { s with
            pc := s.pc + BitVec.ofNat 64 (Instr.e11mr h p reg m).ilen
            choices := s.choices + 1 }))

/-- R124: the truth table of `masked_low`, with the mask bit of R72. Its last row (no writemask, `z = 1`)
passes no EVEX preamble, and in 64-bit mode each of the four EVEX forms refuses it. -/
def Obligations.MaskedLowTruthTable : Prop :=
  ∀ (p : Evex) (s : State) (new old : DWord),
    (p.aaa = 0#3 → maskedLow (s.maskBit p) p.z new old = new) ∧
    (p.aaa ≠ 0#3 → (s.readMask p.aaa).getLsbD 0 = true →
      maskedLow (s.maskBit p) p.z new old = new) ∧
    (p.aaa ≠ 0#3 → (s.readMask p.aaa).getLsbD 0 = false → p.z = false →
      maskedLow (s.maskBit p) p.z new old = old) ∧
    (p.aaa ≠ 0#3 → (s.readMask p.aaa).getLsbD 0 = false → p.z = true →
      maskedLow (s.maskBit p) p.z new old = 0#32) ∧
    (p.aaa = 0#3 → p.z = true →
      (∀ isMem isStore h, ¬ EvexReady isMem isStore h p s) ∧
      (s.cfg.mode = .long64 → ∀ (h : Head) (reg rm : BitVec 3) (m : MemForm),
        ∀ i ∈ [Instr.e10rr h p reg rm, .e10rm h p reg m, .e11rr h p reg rm, .e11mr h p reg m],
          exec i s = .refused .zeroingWithoutMask))

/-- R125: the preamble of the four EVEX forms, in its order. The mode test is R60's and its refusal R143's;
the refusal of a repeated segment override or `67`, counted out over the prefix bytes, is the model's
reading (log 13). -/
def Obligations.EvexPreambleOrder : Prop :=
  ∀ (i : Instr) (h : Head) (p : Evex) (reg rm : BitVec 3) (m : MemForm) (s : State),
    i = .e10rr h p reg rm ∨ i = .e10rm h p reg m ∨ i = .e11rr h p reg rm ∨ i = .e11mr h p reg m →
    if s.cfg.mode ≠ .long64 then exec i s = .refused .unsupportedMode
    else if p.z = true ∧ p.aaa = 0#3 then exec i s = .refused .zeroingWithoutMask
    else if p.ll = 3#2 then exec i s = .refused .evexLengthReserved
    else if 1 < h.pfx.countP (· ∈ [.segCs, .segSs, .segDs, .segEs, .segFs, .segGs]) ∨
        1 < h.pfx.count .addrSize then
      exec i s = .refused .prefixSequence
    else if h.rex ≠ none ∨ .opSize ∈ h.pfx ∨ .repne ∈ h.pfx ∨ .rep ∈ h.pfx ∨ .lock ∈ h.pfx then
      exec i s = .fault (.invalidOpcode s.pc)
    else if p.p0bit3 = true ∨ p.p1bit2 = false then exec i s = .fault (.invalidOpcode s.pc)
    else if s.cfg.features.avx512f = false ∨ s.cfg.enabled.evex = false then
      exec i s = .fault (.invalidOpcode s.pc)
    else if (i = .e10rm h p reg m ∨ i = .e11mr h p reg m) ∧ (p.vvvv ≠ 0#4 ∨ p.v1 = true) then
      exec i s = .fault (.invalidOpcode s.pc)
    else if i = .e11mr h p reg m ∧ p.z = true then exec i s = .fault (.invalidOpcode s.pc)
    else if p.bc = true then exec i s = .fault (.invalidOpcode s.pc)
    else if s.cfg.ts = true then exec i s = .fault (.deviceNotAvailable s.pc)
    else Ready i s

/-! ## Reserved encodings -/

/-- R84, R85: the VEX store and the VEX load with stored `vvvv ≠ 1111` (here: register number not 0) raise
`#UD`, whatever the features and `TS` are. -/
def Obligations.VexMemoryFormsRaiseUdOnVvvv : Prop :=
  ∀ (h : Head) (p : Vex) (reg : BitVec 3) (m : MemForm) (s : State), s.cfg.mode = .long64 →
    p.l = false → h.overridesAdmitted = true → p.vvvv ≠ 0#4 →
    exec (.v11mr h p reg m) s = .fault (.invalidOpcode s.pc) ∧
    exec (.v10rm h p reg m) s = .fault (.invalidOpcode s.pc)

/-- R86: the EVEX store and the EVEX load raise `#UD` when stored `vvvv ≠ 1111` or stored `V' ≠ 1`. -/
def Obligations.EvexMemoryFormsRaiseUdOnVvvv : Prop :=
  ∀ (h : Head) (p : Evex) (reg : BitVec 3) (m : MemForm) (s : State), s.cfg.mode = .long64 →
    (p.z = true → p.aaa ≠ 0#3) → p.ll ≠ 3#2 → h.overridesAdmitted = true →
    (p.vvvv ≠ 0#4 ∨ p.v1 = true) →
    exec (.e11mr h p reg m) s = .fault (.invalidOpcode s.pc) ∧
    exec (.e10rm h p reg m) s = .fault (.invalidOpcode s.pc)

/-- R87, R164: a VEX form is recognised at either value of `L`, and refused with `L = 1` whatever else is
true of it. -/
def Obligations.VexLengthOneIsRecognisedAndRefused : Prop :=
  ∀ (h : Head) (p : Vex) (reg rm : BitVec 3) (m : MemForm) (s : State) (i : Instr),
    i = .v10rr h p reg rm ∨ i = .v10rm h p reg m ∨ i = .v11rr h p reg rm ∨ i = .v11mr h p reg m →
    (i.wf = true → decode (encode i) = .instr i []) ∧
    (s.cfg.mode = .long64 → p.l = true → exec i s = .refused .vexLengthOne)

/-- R88: the other EVEX fields. `W = 1` is not MOVSS; `z = 1` with `aaa = 000` and `L'L = 11` are refused;
`P0[3] = 1`, `P1[2] = 0`, `b = 1`, and `z = 1` on the store raise `#UD`; `L'L` 00, 01 and 10 make no
difference. -/
def Obligations.EvexReservedFields : Prop :=
  (∀ (p0 p1 p2 : Byte) (bs : List Byte), p1.getLsbD 7 = true →
    decode (0x62#8 :: p0 :: p1 :: p2 :: bs) = .notMovss) ∧
  (∀ (h : Head) (p : Evex) (reg rm : BitVec 3) (m : MemForm) (s : State) (i : Instr),
    i = .e10rr h p reg rm ∨ i = .e10rm h p reg m ∨ i = .e11rr h p reg rm ∨ i = .e11mr h p reg m →
    s.cfg.mode = .long64 →
    (p.z = true → p.aaa = 0#3 → exec i s = .refused .zeroingWithoutMask) ∧
    ((p.z = true → p.aaa ≠ 0#3) → p.ll = 3#2 → exec i s = .refused .evexLengthReserved) ∧
    ((p.z = true → p.aaa ≠ 0#3) → p.ll ≠ 3#2 → h.overridesAdmitted = true →
      p.p0bit3 = true ∨ p.p1bit2 = false ∨ p.bc = true ∨ (i = .e11mr h p reg m ∧ p.z = true) →
      exec i s = .fault (.invalidOpcode s.pc))) ∧
  (∀ (h : Head) (p : Evex) (reg rm : BitVec 3) (m : MemForm) (s : State) (ll : BitVec 2),
    p.ll ≠ 3#2 → ll ≠ 3#2 →
    exec (.e10rr h { p with ll := ll } reg rm) s = exec (.e10rr h p reg rm) s ∧
    exec (.e10rm h { p with ll := ll } reg m) s = exec (.e10rm h p reg m) s ∧
    exec (.e11rr h { p with ll := ll } reg rm) s = exec (.e11rr h p reg rm) s ∧
    exec (.e11mr h { p with ll := ll } reg m) s = exec (.e11mr h p reg m) s)

/-- R83: in every class the two encodings of one register-to-register move, which differ only in which
ModRM field names the destination, have the same effect. -/
def Obligations.Opcode10And11RegisterFormsAgree : Prop :=
  ∀ (h : Head) (q : Rex) (v : Vex) (e : Evex) (reg rm : BitVec 3) (s : State),
    (h.rex = none → exec (.l10rr h reg rm) s = exec (.l11rr h rm reg) s) ∧
    (h.rex = some q →
      exec (.l10rr h reg rm) s =
        exec (.l11rr { h with rex := some { q with r := q.b, b := q.r } } rm reg) s) ∧
    exec (.v10rr h v reg rm) s = exec (.v11rr h { v with r := v.b, b := v.r } rm reg) s ∧
    exec (.e10rr h e reg rm) s =
      exec (.e11rr h { e with r := e.b, b := e.r, r1 := e.x, x := e.r1 } rm reg) s

/-- R120, R121, R123 (corner cases on `aaa = 000`): an EVEX form without a writemask acts as the VEX form
on the same registers and the same memory operand, up to the length it advances `pc` by. -/
def Obligations.EvexWithoutMaskActsAsVex : Prop :=
  ∀ (h h' : Head) (p : Evex) (q : Vex) (reg reg' rm rm' : BitVec 3) (m m' : MemForm) (s : State),
    p.aaa = 0#3 → vreg5 p.r1 p.r reg = vreg4 q.r reg' →
    (EvexReady false false h p s → VexReady false h' q s → vreg5 p.x p.b rm = vreg4 q.b rm' →
      p.vreg = q.vreg →
      (∃ t u, exec (.e10rr h p reg rm) s = .next t ∧ exec (.v10rr h' q reg' rm') s = .next u ∧
        t = { u with pc := t.pc }) ∧
      (∃ t u, exec (.e11rr h p reg rm) s = .next t ∧ exec (.v11rr h' q reg' rm') s = .next u ∧
        t = { u with pc := t.pc })) ∧
    (EvexReady true false h p s → VexReady true h' q s →
      evexOperand h p m (Instr.e10rm h p reg m).ilen s =
        vexOperand h' q m' (Instr.v10rm h' q reg' m').ilen s →
      AccessOk s (evexOperand h p m (Instr.e10rm h p reg m).ilen s) .read →
      ∃ t u, exec (.e10rm h p reg m) s = .next t ∧ exec (.v10rm h' q reg' m') s = .next u ∧
        t = { u with pc := t.pc }) ∧
    (EvexReady true true h p s → VexReady true h' q s →
      evexOperand h p m (Instr.e11mr h p reg m).ilen s =
        vexOperand h' q m' (Instr.v11mr h' q reg' m').ilen s →
      AccessOk s (evexOperand h p m (Instr.e11mr h p reg m).ilen s) .write →
      ∃ t u, exec (.e11mr h p reg m) s = .next t ∧ exec (.v11mr h' q reg' m') s = .next u ∧
        t = { u with pc := t.pc })

/-! ## Rules of the whole machine -/

/-- Every form whose preamble passes and whose access, if any, goes through completes. -/
def Obligations.EveryReadyFormCompletes : Prop :=
  ∀ (i : Instr) (s : State), Ready i s →
    (∀ o k, memOperand i s = some (o, k) → AccessMade i s → AccessOk s o k) →
    (∀ o k, memOperand i s = some (o, k) → ¬ AccessMade i s → ProbeOk s o k) →
    ∃ t, exec i s = .next t

/-- R27: every form that completes advances `pc` by its length, modulo 2^64. -/
def Obligations.EveryCompletedFormAdvancesPc : Prop :=
  ∀ (i : Instr) (s t : State), exec i s = .next t →
    t.pc.toNat = (s.pc.toNat + i.ilen) % 2 ^ 64

/-- 95_test_vectors section 7 (1), R23, R26, R28: no form changes a mask register, a general register, a
segment base, a flag register or the launch configuration. -/
def Obligations.NoStepChangesControlState : Prop :=
  ∀ s t : State, step s = .next t → KeepsControl s t

/-- 95_test_vectors section 7 (2), R22: only the destination register changes, and a store changes none. -/
def Obligations.OnlyTheDestinationRegisterChanges : Prop :=
  ∀ (i : Instr) (s t : State), exec i s = .next t →
    (∀ d, destReg i = some d → KeepsVecsBut d s t) ∧ (destReg i = none → KeepsVecs s t)

/-- R43, R45: memory changes only in the four bytes of a store whose access is made. -/
def Obligations.MemoryChangesOnlyInTheStoredBytes : Prop :=
  ∀ (i : Instr) (s t : State), exec i s = .next t →
    (∀ o, memOperand i s = some (o, .write) → AccessMade i s → KeepsMemBut o.addr s t) ∧
    ((∀ o, memOperand i s = some (o, .write) → ¬ AccessMade i s) → KeepsMem s t)

/-- 95_test_vectors section 7 (4) and (5): every VEX and EVEX form with a register destination leaves
bits `MAXVL-1:128` of it zero, every legacy form leaves them as they were. -/
def Obligations.UpperBitsAreKeptOrZeroedByClass : Prop :=
  ∀ (i : Instr) (s t : State) (d : VReg) (j : Nat), exec i s = .next t → destReg i = some d →
    128 ≤ j →
    (encClass i = .legacy → (t.readVec d).getLsbD j = (s.readVec d).getLsbD j) ∧
    (encClass i ≠ .legacy → (t.readVec d).getLsbD j = false)

/-- R102 corner case (4), R49: a store followed by a load of the same address leaves the stored
doubleword in the low doubleword of the loaded register, across all classes. -/
def Obligations.StoreThenLoadGivesTheStoredDoubleword : Prop :=
  ∀ (i j : Instr) (s t u : State) (src d : VReg) (o o' : MemOperand),
    storeSource i = some src → memOperand i s = some (o, .write) → AccessMade i s →
    exec i s = .next t →
    memOperand j t = some (o', .read) → AccessMade j t → destReg j = some d → o'.addr = o.addr →
    exec j t = .next u →
    ∀ b < 32, (u.readVec d).getLsbD b = (s.readVec src).getLsbD b

/-- R15, R28, R130: no form reads a status flag or MXCSR: with other contents of RFLAGS and MXCSR, every
form ends the same way, and leaves them as they are. R28 has one flag read indirectly, RFLAGS.AC, by the
alignment check; that it enters through the switch `AlignCheck` of R42, and not through the RFLAGS the
model holds, is the model's choice (logs 8 and 18). -/
def Obligations.FlagRegistersAreNeverConsulted : Prop :=
  ∀ (i : Instr) (s : State) (rflags : Word) (mxcsr : BitVec 32),
    exec i (s.withFlags rflags mxcsr) = mapNext (State.withFlags rflags mxcsr) (exec i s)

/-- R23, R120 corner case (4): of the mask registers a form reads bit 0 only. -/
def Obligations.OnlyBitZeroOfAMaskRegisterMatters : Prop :=
  ∀ (i : Instr) (s : State) (k : Vector KMask 8),
    (∀ a : BitVec 3, (k[a.toNat]'a.isLt).testBit 0 = (s.k[a.toNat]'a.isLt).testBit 0) →
    exec i { s with k := k } = mapNext (fun t => { t with k := k }) (exec i s)

/-! ## Memory operands and accesses -/

/-- R73, R74, R77: the numbers of the registers a form names, from the bytes of its encoding. Legacy: `R`,
`X` and `B` are bits 2, 1 and 0 of REX, and 0 without one. VEX and EVEX: each extension bit and `vvvv` is
stored inverted. -/
def Obligations.RegisterNumbersOfEachClass : Prop :=
  (∀ (hi : Bool) (lo : BitVec 3), (gpr hi lo).toNat = 8 * hi.toNat + lo.toNat) ∧
  (∀ (h : Head) (lo : BitVec 3), h.rex = none →
    (vreg4 h.r lo).toNat = lo.toNat ∧ (vreg4 h.b lo).toNat = lo.toNat ∧
    (gpr h.x lo).toNat = lo.toNat ∧ (gpr h.b lo).toNat = lo.toNat) ∧
  (∀ (h : Head) (c : Byte) (lo : BitVec 3), c.extractLsb' 4 4 = 4#4 → h.rex = Rex.ofByte c →
    (vreg4 h.r lo).toNat = 8 * (c.getLsbD 2).toNat + lo.toNat ∧
    (vreg4 h.b lo).toNat = 8 * (c.getLsbD 0).toNat + lo.toNat ∧
    (gpr h.x lo).toNat = 8 * (c.getLsbD 1).toNat + lo.toNat ∧
    (gpr h.b lo).toNat = 8 * (c.getLsbD 0).toNat + lo.toNat) ∧
  (∀ (c1 : Byte) (lo : BitVec 3),
    (vreg4 (Vex.ofByte2 c1).r lo).toNat = 8 * (1 - (c1.getLsbD 7).toNat) + lo.toNat ∧
    (vreg4 (Vex.ofByte2 c1).b lo).toNat = lo.toNat ∧
    (gpr (Vex.ofByte2 c1).x lo).toNat = lo.toNat ∧ (gpr (Vex.ofByte2 c1).b lo).toNat = lo.toNat ∧
    (Vex.ofByte2 c1).vreg.toNat = 15 - (c1.extractLsb' 3 4).toNat) ∧
  (∀ (b1 b2 : Byte) (lo : BitVec 3),
    (vreg4 (Vex.ofBytes3 b1 b2).r lo).toNat = 8 * (1 - (b1.getLsbD 7).toNat) + lo.toNat ∧
    (vreg4 (Vex.ofBytes3 b1 b2).b lo).toNat = 8 * (1 - (b1.getLsbD 5).toNat) + lo.toNat ∧
    (gpr (Vex.ofBytes3 b1 b2).x lo).toNat = 8 * (1 - (b1.getLsbD 6).toNat) + lo.toNat ∧
    (gpr (Vex.ofBytes3 b1 b2).b lo).toNat = 8 * (1 - (b1.getLsbD 5).toNat) + lo.toNat ∧
    (Vex.ofBytes3 b1 b2).vreg.toNat = 15 - (b2.extractLsb' 3 4).toNat) ∧
  (∀ (p0 p1 p2 : Byte) (lo : BitVec 3),
    let p := Evex.ofBytes p0 p1 p2
    (vreg5 p.r1 p.r lo).toNat =
      16 * (1 - (p0.getLsbD 4).toNat) + 8 * (1 - (p0.getLsbD 7).toNat) + lo.toNat ∧
    (vreg5 p.x p.b lo).toNat =
      16 * (1 - (p0.getLsbD 6).toNat) + 8 * (1 - (p0.getLsbD 5).toNat) + lo.toNat ∧
    (gpr p.x lo).toNat = 8 * (1 - (p0.getLsbD 6).toNat) + lo.toNat ∧
    (gpr p.b lo).toNat = 8 * (1 - (p0.getLsbD 5).toNat) + lo.toNat ∧
    p.vreg.toNat = 16 * (1 - (p2.getLsbD 3).toNat) + (15 - (p1.extractLsb' 3 4).toNat))

/-- R77: the effective and linear address and the segment of a memory operand, computed here on integers:
of a legacy form (`X` and `B` of REX, `N = 1`), of a VEX form (`X` and `B` of the prefix, `N = 1`), of an
EVEX form (`X` and `B` of the prefix, `N = 4`), and at any displacement scale `N`. -/
def Obligations.LinearAddressRule : Prop :=
  ∀ (s : State) (h : Head) (x b : Bool) (n : Word) (ilen : Nat) (m : MemForm) (o : MemOperand),
    (o = legacyOperand h m ilen s ∧ n = 1#64 ∧
        x = (match h.rex with | none => false | some q => q.x) ∧
        b = (match h.rex with | none => false | some q => q.b)) ∨
      (∃ p : Vex, o = vexOperand h p m ilen s ∧ n = 1#64 ∧ x = p.x ∧ b = p.b) ∨
      (∃ p : Evex, o = evexOperand h p m ilen s ∧ n = 4#64 ∧ x = p.x ∧ b = p.b) ∨
      o = s.operand h x b n ilen m →
    let asize : Nat := if Pfx.addrSize ∈ h.pfx then 32 else 64
    let num : Bool → BitVec 3 → Fin 16 := fun hi lo => ⟨8 * hi.toNat + lo.toNat, by
      have := lo.isLt; have := hi.toNat_le; omega⟩
    let r : Fin 16 → Int := fun g => s.x[g].toNat % 2 ^ asize
    let iv : BitVec 2 → BitVec 3 → Int := fun scale index =>
      if num x index = 4 then 0 else r (num x index) * 2 ^ scale.toNat
    let dv : Disp → Int := fun d =>
      match d with
      | .absent => 0
      | .d8 c => c.toInt * n.toNat
      | .d32 c => c.toInt
    let sum : Int :=
      match m with
      | .ripRel d => s.pc.toNat + ilen + d.toInt
      | .base rm d => r (num b rm) + dv d
      | .sib scale index sb d => r (num b sb) + iv scale index + dv d
      | .sibNoBase scale index d => iv scale index + d.toInt
    let dflt : Seg :=
      match m with
      | .ripRel _ => .ds
      | .base rm _ => if num b rm = 4 ∨ num b rm = 5 then .ss else .ds
      | .sib _ _ sb _ => if num b sb = 4 ∨ num b sb = 5 then .ss else .ds
      | .sibNoBase _ _ _ => .ds
    let seg : Seg := if Pfx.segFs ∈ h.pfx then .fs else if Pfx.segGs ∈ h.pfx then .gs else dflt
    let sbase : Int := if seg = .fs then s.fsBase.toNat else if seg = .gs then s.gsBase.toNat else 0
    o.seg = seg ∧ (o.addr.toNat : Int) = (sbase + sum % 2 ^ asize) % 2 ^ 64

/-- R79: in the two EVEX memory forms `disp8` counts fours, in the other classes ones; a `disp32` is never
scaled. -/
def Obligations.CompressedDisplacement : Prop :=
  ∀ (c : BitVec 8) (d : BitVec 32) (h : Head) (p : Evex) (v : Vex) (rm : BitVec 3) (ilen : Nat)
    (s : State), h.pfx = [] →
    (evexOperand h p (.base rm (.d8 c)) ilen s).addr = s.readGpr (gpr p.b rm) + 4#64 * c.signExtend 64 ∧
    (evexOperand h p (.base rm (.d32 d)) ilen s).addr = s.readGpr (gpr p.b rm) + d.signExtend 64 ∧
    (vexOperand h v (.base rm (.d8 c)) ilen s).addr = s.readGpr (gpr v.b rm) + c.signExtend 64 ∧
    (legacyOperand h (.base rm (.d8 c)) ilen s).addr = s.readGpr (gpr h.b rm) + c.signExtend 64 ∧
    (c.signExtend 64 * 4#64).toInt = c.toInt * 4 ∧ -512 ≤ c.toInt * 4 ∧ c.toInt * 4 ≤ 508

/-- R41: little-endian doublewords at addresses modulo 2^64. After a store of `d` at `a`, the byte at `a`
is bits 7:0, a load from `a` sees `d`, and a load from `a + 1` sees `M[a+4] ++ d[31:8]`. -/
def Obligations.DoublewordsAreLittleEndian : Prop :=
  ∀ (s : State) (a : Word) (d : DWord),
    s.read32 a =
      s.byteAt (a + 3#64) ++ s.byteAt (a + 2#64) ++ s.byteAt (a + 1#64) ++ s.byteAt a ∧
    (∀ k < 4, (s.write32 a d).byteAt (a + BitVec.ofNat 64 k) = d.extractLsb' (8 * k) 8) ∧
    (s.write32 a d).read32 a = d ∧
    (s.write32 a d).read32 (a + 1#64) = s.byteAt (a + 4#64) ++ d.extractLsb' 8 24

/-- R137, R42: with `AlignCheck`, a memory form that makes its access at an address that is no multiple of
4, where `MemCheck` answers ok, raises `#AC(0)`; without it alignment plays no part. -/
def Obligations.MisalignedAccessRaisesAlignmentCheck : Prop :=
  ∀ (i : Instr) (s : State) (o : MemOperand) (k : AccessKind), Ready i s →
    memOperand i s = some (o, k) → AccessMade i s → s.touchesDevice o.addr = false →
    s.memCheck o.addr 4 k o.seg = none →
    (s.cfg.alignCheck = true → o.addr.toNat % 4 ≠ 0 → exec i s = .fault (.alignmentCheck s.pc)) ∧
    (s.cfg.alignCheck = false ∨ o.addr.toNat % 4 = 0 → ∃ t, exec i s = .next t)

/-- R134, R135 (with log 6, which tests canonical addresses before the launch map): a memory form whose
access has a byte that is not canonical raises `#SS(0)` through the SS segment and `#GP(0)` through any
other. -/
def Obligations.NonCanonicalAccessRaisesSsOrGp : Prop :=
  ∀ (i : Instr) (s : State) (o : MemOperand) (k : AccessKind) (n : Nat), Ready i s →
    memOperand i s = some (o, k) → AccessMade i s → s.touchesDevice o.addr = false →
    s.misaligned o.addr = false → n < 4 →
    canonical s.cfg.linearWidth (o.addr + BitVec.ofNat 64 n) = false →
    exec i s = .fault (if o.seg = .ss then .stackFault s.pc else .generalProtection s.pc)

/-- R136, R47: at a canonical address a memory form raises the page fault its launch map answers, with the
code and the address the answer carries. -/
def Obligations.PageFaultComesFromTheLaunchMap : Prop :=
  ∀ (i : Instr) (s : State) (o : MemOperand) (k : AccessKind) (e : MapEntry) (l l' : List MapEntry)
    (code : Nat) (offset : Word), Ready i s → memOperand i s = some (o, k) → AccessMade i s →
    s.touchesDevice o.addr = false → s.misaligned o.addr = false →
    (∀ n < 4, canonical s.cfg.linearWidth (o.addr + BitVec.ofNat 64 n) = true) →
    s.cfg.memMap = l ++ e :: l' → (∀ x ∈ l, entryFits x o.addr k o.seg = false) →
    entryFits e o.addr k o.seg = true → e.answer = .pf code offset →
    exec i s = .fault (.pageFault code (o.addr + offset) s.pc)

/-- R142: where `#AC(0)` and a `MemCheck` exception both apply, one of the two is raised, and the model
does not say which (log 10). -/
def Obligations.AlignmentCheckOrMemCheckException : Prop :=
  ∀ (i : Instr) (s : State) (o : MemOperand) (k : AccessKind) (f : Fault), Ready i s →
    memOperand i s = some (o, k) → AccessMade i s → s.touchesDevice o.addr = false →
    s.misaligned o.addr = true → s.memCheck o.addr 4 k o.seg = some f →
    exec i s = .fault (.alignmentCheck s.pc) ∨ exec i s = .fault f

/-- R139: a masked-off EVEX load or store. Suppressed, it completes whatever the address. Checked, it
raises what the access would have raised. Under `either` both outcomes are admitted (log 9). However it
ends, no byte of memory is written. -/
def Obligations.MaskedOffAccessIsSuppressedOrChecked : Prop :=
  ∀ (i : Instr) (s : State) (o : MemOperand) (k : AccessKind), Ready i s →
    memOperand i s = some (o, k) → ¬ AccessMade i s →
    (s.cfg.faultSuppression = .suppress → ∃ t, exec i s = .next t) ∧
    (∀ f, s.cfg.faultSuppression = .check → s.accessFault o.addr k o.seg = some f →
      exec i s = .fault f) ∧
    (∀ f, s.cfg.faultSuppression = .either → s.accessFault o.addr k o.seg = some f →
      exec i s = .fault f ∨ ∃ t, exec i s = .next t ∧ t.choices = s.choices + 1) ∧
    (s.accessFault o.addr k o.seg = none → ∃ t, exec i s = .next t ∧ t.choices = s.choices) ∧
    (∀ t, exec i s = .next t → KeepsMem s t)

/-- R45 (as log 16 has it): an access that touches a device is refused. -/
def Obligations.DeviceAccessIsRefused : Prop :=
  ∀ (i : Instr) (s : State) (o : MemOperand) (k : AccessKind), Ready i s →
    memOperand i s = some (o, k) → AccessMade i s → s.touchesDevice o.addr = true →
    exec i s = .refused .deviceAccess

/-- R143: a fault carries the address of the instruction that raised it. -/
def Obligations.FaultsCarryThePcOfTheirInstruction : Prop :=
  ∀ (s : State) (f : Fault), step s = .fault f → f.pc = s.pc

/-! ## The invariant, and the state a run starts from -/

/-- The invariant of Safety.lean is kept by every step, from every state that meets it. -/
def Obligations.EveryStepKeepsTheInvariant : Prop :=
  ∀ s t : State, s.Inv → step s = .next t → t.Inv

/-- Whole runs, of any length and from any state: what no step changes no run changes, and a run keeps the
invariant. -/
def Obligations.EveryRunKeepsControlStateAndTheInvariant : Prop :=
  ∀ (n : Nat) (s t : State), Runs n s t → KeepsControl s t ∧ (s.Inv → t.Inv)

/-- The state a run starts from meets the invariant. -/
def Obligations.ResetMeetsTheInvariant : Prop :=
  State.reset.Inv

/-- The launch state of the model (logs 1 and 2: the model's choice; the spec has no reset step, R160):
64-bit mode, `TS` clear, every class ready, registers 0, RFLAGS 2, MXCSR 1F80H, nothing in memory. -/
def Obligations.ResetIsTheLaunchState : Prop :=
  State.reset.cfg.mode = .long64 ∧ State.reset.cfg.ts = false ∧
  (∀ c, State.reset.classReady c = true) ∧
  (∀ i, State.reset.readVec i = 0#512) ∧ (∀ i, (State.reset.readMask i).toNat = 0) ∧
  (∀ i, State.reset.readGpr i = 0#64) ∧ State.reset.fsBase = 0#64 ∧ State.reset.gsBase = 0#64 ∧
  State.reset.flagRegs = (2#64, 0x1F80#32) ∧ (∀ a, State.reset.byteAt a = 0#8)

/-- R30, R31: which classes are enabled, and `TS`, as functions of CR0, CR4 and XCR0. -/
def Obligations.EnabledFollowsTheControlRegisters : Prop :=
  ∀ r : SystemRegs,
    (r.enabled.legacySse = true ↔ r.cr0.getLsbD 2 = false ∧ r.cr4.getLsbD 9 = true) ∧
    (r.enabled.vex = true ↔
      r.cr4.getLsbD 18 = true ∧ r.xcr0.getLsbD 1 = true ∧ r.xcr0.getLsbD 2 = true) ∧
    (r.enabled.evex = true ↔
      r.enabled.vex = true ∧ r.xcr0.getLsbD 5 = true ∧ r.xcr0.getLsbD 6 = true ∧
        r.xcr0.getLsbD 7 = true) ∧
    r.ts = r.cr0.getLsbD 3 ∧
    r.boot.enabled = ⟨true, true, true⟩ ∧ r.boot.ts = false

/-- R161, R160: after power-up no class is enabled and the mode is not 64-bit mode, so no form of MOVSS
executes there whatever memory holds. -/
def Obligations.NothingExecutesAfterPowerUp : Prop :=
  State.powerUp.cfg.enabled = ⟨false, false, false⟩ ∧
  ∀ (m : Memory), step { State.powerUp with mem := m } = .refused .unsupportedMode
end

