-- ==== Sys2Proof/Laws/Decode.lean ====
section
/-! SUPPORT. The parts of the decoder undo the parts of the encoder. -/

namespace Sys2Proof

/-! ## Prefix bytes -/

@[simp] theorem pfx_ofByte_toByte (p : Pfx) : Pfx.ofByte p.toByte = some p := by
  cases p <;> rfl

theorem pfx_toByte_ofByte (c : Byte) (p : Pfx) (h : Pfx.ofByte c = some p) : p.toByte = c := by
  unfold Pfx.ofByte at h
  repeat' split at h
  all_goals first
    | (simp only [Option.some.injEq] at h; subst h; simp_all [Pfx.toByte])
    | simp at h

@[simp] theorem rex_ofByte_toByte (r : Rex) : Rex.ofByte r.toByte = some r := by
  obtain ⟨w, r, x, b⟩ := r
  cases w <;> cases r <;> cases x <;> cases b <;> rfl

@[simp] theorem pfx_ofByte_rex (r : Rex) : Pfx.ofByte r.toByte = none := by
  obtain ⟨w, r, x, b⟩ := r
  cases w <;> cases r <;> cases x <;> cases b <;> rfl

theorem takePfx_none (c : Byte) (bs : List Byte) (h : Pfx.ofByte c = none) :
    takePfx (c :: bs) = ([], c :: bs) := by
  simp [takePfx, h]

theorem takePfx_map (ps : List Pfx) (c : Byte) (bs : List Byte) (h : Pfx.ofByte c = none) :
    takePfx (ps.map Pfx.toByte ++ c :: bs) = (ps, c :: bs) := by
  induction ps with
  | nil => exact takePfx_none c bs h
  | cons p ps ih => simp [takePfx, ih]

/-- The bytes of a head, before a byte that is neither a prefix nor REX, are read back as that head. -/
theorem decode_head (h : Head) (c : Byte) (bs : List Byte) (hp : Pfx.ofByte c = none)
    (hr : Rex.ofByte c = none) : decode (h.encode ++ c :: bs) = decodeClass h (c :: bs) := by
  obtain ⟨ps, rex⟩ := h
  cases rex with
  | none =>
    simp only [Head.encode, Option.map_none, Option.toList_none, List.append_nil, decode,
      takePfx_map ps c bs hp, takeRex, hr]
  | some r =>
    simp only [Head.encode, Option.map_some, Option.toList_some, List.append_assoc,
      List.cons_append, List.nil_append, decode,
      takePfx_map ps r.toByte (c :: bs) (pfx_ofByte_rex r), takeRex, rex_ofByte_toByte]

/-! ## ModRM, SIB, displacement -/

theorem pack233_mod (a : BitVec 2) (b c : BitVec 3) : (pack233 a b c).extractLsb' 6 2 = a := by
  revert a b c; decide

theorem pack233_reg (a : BitVec 2) (b c : BitVec 3) : (pack233 a b c).extractLsb' 3 3 = b := by
  revert a b c; decide

theorem pack233_rm (a : BitVec 2) (b c : BitVec 3) : (pack233 a b c).extractLsb' 0 3 = c := by
  revert a b c; decide

@[simp] theorem takeDisp32_encode (d : BitVec 32) (bs : List Byte) :
    takeDisp32 (encodeDisp32 d ++ bs) = some (d, bs) := by
  have : d.extractLsb' 24 8 ++ d.extractLsb' 16 8 ++ d.extractLsb' 8 8 ++ d.extractLsb' 0 8 = d := by
    ext i hi
    simp only [BitVec.getElem_append, BitVec.getElem_extractLsb']
    split
    · simp [BitVec.getLsbD_eq_getElem hi]
    · split
      · have h : 8 + (i - 8) = i := by omega
        simp [h, BitVec.getLsbD_eq_getElem hi]
      · split
        · have h : 16 + (i - 8 - 8) = i := by omega
          simp [h, BitVec.getLsbD_eq_getElem hi]
        · have h : 24 + (i - 8 - 8 - 8) = i := by omega
          simp [h, BitVec.getLsbD_eq_getElem hi]
  simp only [takeDisp32, encodeDisp32, List.cons_append, List.nil_append, this]

@[simp] theorem takeDisp_encode (d : Disp) (bs : List Byte) :
    takeDisp d.mod (d.encode ++ bs) = some (d, bs) := by
  cases d <;> simp [takeDisp, Disp.mod, Disp.encode]

/-- The `r/m` operand as the encoder spells it. -/
def RegMem.encode (reg : BitVec 3) : RegMem → List Byte
  | .reg rm => [pack233 3#2 reg rm]
  | .mem m => m.encode reg

/-- Which `r/m` operands an encoding can spell. -/
def RegMem.wf : RegMem → Bool
  | .reg _ => true
  | .mem m => m.wf

theorem disp_mod_ne_three (d : Disp) : d.mod ≠ 3#2 := by
  cases d <;> simp [Disp.mod]

theorem disp_mod_eq_zero (d : Disp) : d.mod = 0#2 ↔ d = .absent := by
  cases d <;> simp [Disp.mod]

/-- ModRM and what follows it are read back as encoded. -/
theorem takeModRM_encode (reg : BitVec 3) (o : RegMem) (bs : List Byte) (h : o.wf = true) :
    takeModRM (o.encode reg ++ bs) = some (reg, o, bs) := by
  have h03 : (0#2 : BitVec 2) ≠ 3#2 := by decide
  have h54 : (5#3 : BitVec 3) ≠ 4#3 := by decide
  cases o with
  | reg rm =>
    simp only [RegMem.encode, List.cons_append, List.nil_append, takeModRM, pack233_mod, pack233_reg,
      pack233_rm, if_true]
  | mem m =>
    cases m with
    | ripRel d =>
      simp only [RegMem.encode, MemForm.encode, List.cons_append, takeModRM, pack233_mod, pack233_reg,
        pack233_rm, takeMem, takeDisp32_encode, if_neg h03, if_neg h54, and_self, if_true,
        Option.map_some]
    | base rm d =>
      simp only [RegMem.wf, MemForm.wf, Bool.and_eq_true, bne_iff_ne, ne_eq, Bool.not_eq_true',
        Bool.and_eq_false_iff, beq_eq_false_iff_ne] at h
      have hn : ¬ (d.mod = 0#2 ∧ rm = 5#3) := by
        rw [disp_mod_eq_zero]; tauto
      simp only [RegMem.encode, MemForm.encode, List.cons_append, takeModRM, pack233_mod, pack233_reg,
        pack233_rm, takeMem, takeDisp_encode, if_neg (disp_mod_ne_three d), if_neg h.1, if_neg hn,
        Option.map_some]
    | sib scale index sb d =>
      simp only [RegMem.wf, MemForm.wf, Bool.not_eq_true', Bool.and_eq_false_iff,
        beq_eq_false_iff_ne] at h
      have hn : ¬ (d.mod = 0#2 ∧ sb = 5#3) := by
        rw [disp_mod_eq_zero]; tauto
      simp only [RegMem.encode, MemForm.encode, List.cons_append, takeModRM, pack233_mod, pack233_reg,
        pack233_rm, takeMem, takeSib, takeDisp_encode, if_neg (disp_mod_ne_three d), if_true,
        if_neg hn, Option.map_some]
    | sibNoBase scale index d =>
      simp only [RegMem.encode, MemForm.encode, List.cons_append, takeModRM, pack233_mod, pack233_reg,
        pack233_rm, takeMem, takeSib, takeDisp32_encode, if_neg h03, and_self, if_true,
        Option.map_some]

/-- The opcode byte and what follows it are read back as encoded. -/
theorem decodeOp_encode (form : Byte → BitVec 3 → RegMem → Instr) (op : Byte) (reg : BitVec 3)
    (o : RegMem) (bs : List Byte) (hop : isMovssOp op = true) (h : o.wf = true) :
    decodeOp form (op :: (o.encode reg ++ bs)) = .instr (form op reg o) bs := by
  simp [decodeOp, hop, takeModRM_encode reg o bs h]

/-! ## VEX and EVEX prefixes -/

/-- The second byte of a two-byte VEX prefix is read back as encoded. -/
theorem vex_ofByte2 (r : Bool) (vvvv : BitVec 4) (l : Bool) :
    Vex.ofByte2 (BitVec.ofBool (!r) ++ ~~~ vvvv ++ BitVec.ofBool l ++ 2#2) =
      ⟨true, r, false, false, false, vvvv, l⟩ ∧
    (BitVec.ofBool (!r) ++ ~~~ vvvv ++ BitVec.ofBool l ++ 2#2).extractLsb' 0 2 = 2#2 := by
  revert r vvvv l; decide

/-- The bytes of a three-byte VEX prefix are read back as encoded. -/
theorem vex_byte1 (r x b : Bool) :
    (BitVec.ofBool (!r) ++ BitVec.ofBool (!x) ++ BitVec.ofBool (!b) ++ 1#5).getLsbD 7 = !r ∧
    (BitVec.ofBool (!r) ++ BitVec.ofBool (!x) ++ BitVec.ofBool (!b) ++ 1#5).getLsbD 6 = !x ∧
    (BitVec.ofBool (!r) ++ BitVec.ofBool (!x) ++ BitVec.ofBool (!b) ++ 1#5).getLsbD 5 = !b ∧
    (BitVec.ofBool (!r) ++ BitVec.ofBool (!x) ++ BitVec.ofBool (!b) ++ 1#5).extractLsb' 0 5 = 1#5 := by
  revert r x b; decide

theorem vex_byte2 (w : Bool) (vvvv : BitVec 4) (l : Bool) :
    (BitVec.ofBool w ++ ~~~ vvvv ++ BitVec.ofBool l ++ 2#2).getLsbD 7 = w ∧
    ~~~ (BitVec.ofBool w ++ ~~~ vvvv ++ BitVec.ofBool l ++ 2#2).extractLsb' 3 4 = vvvv ∧
    (BitVec.ofBool w ++ ~~~ vvvv ++ BitVec.ofBool l ++ 2#2).getLsbD 2 = l ∧
    (BitVec.ofBool w ++ ~~~ vvvv ++ BitVec.ofBool l ++ 2#2).extractLsb' 0 2 = 2#2 := by
  revert w vvvv l; decide

/-- The bytes of an EVEX prefix are read back as encoded. -/
theorem evex_byte0 (r x b r1 p3 : Bool) :
    (BitVec.ofBool (!r) ++ BitVec.ofBool (!x) ++ BitVec.ofBool (!b) ++ BitVec.ofBool (!r1) ++
      BitVec.ofBool p3 ++ 1#3).getLsbD 7 = !r ∧
    (BitVec.ofBool (!r) ++ BitVec.ofBool (!x) ++ BitVec.ofBool (!b) ++ BitVec.ofBool (!r1) ++
      BitVec.ofBool p3 ++ 1#3).getLsbD 6 = !x ∧
    (BitVec.ofBool (!r) ++ BitVec.ofBool (!x) ++ BitVec.ofBool (!b) ++ BitVec.ofBool (!r1) ++
      BitVec.ofBool p3 ++ 1#3).getLsbD 5 = !b ∧
    (BitVec.ofBool (!r) ++ BitVec.ofBool (!x) ++ BitVec.ofBool (!b) ++ BitVec.ofBool (!r1) ++
      BitVec.ofBool p3 ++ 1#3).getLsbD 4 = !r1 ∧
    (BitVec.ofBool (!r) ++ BitVec.ofBool (!x) ++ BitVec.ofBool (!b) ++ BitVec.ofBool (!r1) ++
      BitVec.ofBool p3 ++ 1#3).getLsbD 3 = p3 ∧
    (BitVec.ofBool (!r) ++ BitVec.ofBool (!x) ++ BitVec.ofBool (!b) ++ BitVec.ofBool (!r1) ++
      BitVec.ofBool p3 ++ 1#3).extractLsb' 0 3 = 1#3 := by
  revert r x b r1 p3; decide

theorem evex_byte1 (vvvv : BitVec 4) (p2 : Bool) :
    (0#1 ++ ~~~ vvvv ++ BitVec.ofBool p2 ++ 2#2).getLsbD 7 = false ∧
    ~~~ (0#1 ++ ~~~ vvvv ++ BitVec.ofBool p2 ++ 2#2).extractLsb' 3 4 = vvvv ∧
    (0#1 ++ ~~~ vvvv ++ BitVec.ofBool p2 ++ 2#2).getLsbD 2 = p2 ∧
    (0#1 ++ ~~~ vvvv ++ BitVec.ofBool p2 ++ 2#2).extractLsb' 0 2 = 2#2 := by
  revert vvvv p2; decide

theorem evex_byte2 (z : Bool) (ll : BitVec 2) (bc v1 : Bool) (aaa : BitVec 3) :
    (BitVec.ofBool z ++ ll ++ BitVec.ofBool bc ++ BitVec.ofBool (!v1) ++ aaa).getLsbD 7 = z ∧
    (BitVec.ofBool z ++ ll ++ BitVec.ofBool bc ++ BitVec.ofBool (!v1) ++ aaa).extractLsb' 5 2 = ll ∧
    (BitVec.ofBool z ++ ll ++ BitVec.ofBool bc ++ BitVec.ofBool (!v1) ++ aaa).getLsbD 4 = bc ∧
    (BitVec.ofBool z ++ ll ++ BitVec.ofBool bc ++ BitVec.ofBool (!v1) ++ aaa).getLsbD 3 = !v1 ∧
    (BitVec.ofBool z ++ ll ++ BitVec.ofBool bc ++ BitVec.ofBool (!v1) ++ aaa).extractLsb' 0 3 = aaa := by
  revert z ll bc v1 aaa; decide

end Sys2Proof
end

