-- ==== Sys2Proof/Laws/DecodeBack.lean ====
section
/-! SUPPORT. The parts of the decoder lose nothing: what each part reads encodes to the bytes it read. -/

namespace Sys2Proof

/-- The three fields of a ModRM or SIB byte make it up. -/
theorem pack233_split (c : Byte) : pack233 (c.extractLsb' 6 2) (c.extractLsb' 3 3)
    (c.extractLsb' 0 3) = c := by
  revert c; decide

/-- A four-byte displacement that was read encodes to the bytes read. -/
theorem takeDisp32_restores (bs r : List Byte) (d : BitVec 32) (h : takeDisp32 bs = some (d, r)) :
    encodeDisp32 d ++ r = bs := by
  match bs, h with
  | b0 :: b1 :: b2 :: b3 :: bs, h =>
    simp [takeDisp32] at h
    obtain ⟨rfl, rfl⟩ := h
    simp [encodeDisp32]
    clear h
    refine ⟨?_, ?_, ?_, ?_⟩
    all_goals
      apply BitVec.eq_of_getLsbD_eq
      intro i hi
      simp only [BitVec.getLsbD_extractLsb', hi, decide_true, Bool.true_and]
      repeat rw [BitVec.getLsbD_append]
    · simp [hi]
    · simp [show ¬ (8 + i < 8) by omega, show 8 + i - 8 = i by omega, hi]
    · simp [show ¬ (16 + i < 8) by omega, show ¬ (16 + i - 8 < 8) by omega, show 16 + i - 8 - 8 =
      i by omega, hi]
    · simp [show ¬ (24 + i < 8) by omega, show ¬ (24 + i - 8 < 8) by omega, show ¬
      (24 + i - 8 - 8 < 8) by omega, show 24 + i - 8 - 8 - 8 = i by omega, hi]

/-- The same for the displacement a `mod` field announces. -/
theorem takeDisp_restores (mod : BitVec 2) (hm : mod ≠ 3#2) (bs r : List Byte) (d : Disp) (h :
    takeDisp mod bs = some (d, r)) :
    d.encode ++ r = bs ∧ d.mod = mod := by
  unfold takeDisp at h
  split at h
  · next h0 => simp at h; obtain ⟨rfl, rfl⟩ := h; simp [Disp.encode, Disp.mod, h0]
  · split at h
    · next h1 =>
      cases bs with
      | nil => simp at h
      | cons c bs => simp at h; obtain ⟨rfl, rfl⟩ := h; simp [Disp.encode, Disp.mod, h1]
    · next h0 h1 =>
      simp at h
      obtain ⟨a, h, rfl⟩ := h
      refine ⟨takeDisp32_restores _ _ _ h, ?_⟩
      clear h; simp only [Disp.mod]; revert mod; decide

/-- A memory form that was read is well-formed and encodes to the bytes read. -/
theorem takeMem_restores (mod : BitVec 2) (hm : mod ≠ 3#2) (rm reg : BitVec 3) (bs r :
    List Byte) (m : MemForm)
   (h : takeMem mod rm bs = some (m, r)) : m.encode reg ++ r = pack233 mod reg rm :: bs ∧ m.wf =
    true := by
  unfold takeMem at h
  split at h
  · next h4 =>
    subst h4
    cases bs with
    | nil => simp [takeSib] at h
    | cons c bs =>
      simp only [takeSib] at h
      split at h
      · next h5 =>
        simp at h
        obtain ⟨d, h, rfl⟩ := h
        simp [MemForm.encode, takeDisp32_restores _ _ _ h, MemForm.wf, h5.1]
        rw [← h5.2, pack233_split]
      · next h5 =>
        simp at h
        obtain ⟨d, h, rfl⟩ := h
        obtain ⟨e, hm'⟩ := takeDisp_restores _ hm _ _ _ h
        simp [MemForm.encode, e, hm', MemForm.wf, pack233_split]
        rw [← hm', disp_mod_eq_zero] at h5
        tauto
  · next h4 =>
    split at h
    · next h5 =>
      simp at h
      obtain ⟨d, h, rfl⟩ := h
      simp [MemForm.encode, takeDisp32_restores _ _ _ h, MemForm.wf, h5.1, h5.2]
    · next h5 =>
      simp at h
      obtain ⟨d, h, rfl⟩ := h
      obtain ⟨e, hm'⟩ := takeDisp_restores _ hm _ _ _ h
      simp [MemForm.encode, e, hm', MemForm.wf, h4]
      rw [← hm', disp_mod_eq_zero] at h5
      tauto

/-- An operand that was read is well-formed and encodes to the bytes read. -/
theorem takeModRM_restores (bs r : List Byte) (reg : BitVec 3) (o : RegMem) (h : takeModRM bs =
    some (reg, o, r)) :
   o.encode reg ++ r = bs ∧ o.wf = true := by
  cases bs with
  | nil => simp [takeModRM] at h
  | cons c bs =>
    simp only [takeModRM] at h
    split at h
    · next h3 =>
      simp at h
      obtain ⟨rfl, rfl, rfl⟩ := h
      simp [RegMem.encode, RegMem.wf, ← h3, pack233_split]
    · next h3 =>
      simp at h
      obtain ⟨a, b, rfl, rfl, h, rfl⟩ := h
      obtain ⟨e, w⟩ := takeMem_restores _ h3 _ (c.extractLsb' 3 3) _ _ _ b
      simp [RegMem.encode, RegMem.wf, e, w, pack233_split]

/-- Opcode and operand: what was read, and that nothing of it is lost. -/
theorem decodeOp_restores (form) (bs r : List Byte) (i : Instr) (h : decodeOp form bs =
    .instr i r) :
   ∃ op reg o, isMovssOp op = true ∧ o.wf = true ∧ i = form op reg o ∧ bs = op :: (o.encode reg ++
    r) := by
  cases bs with
  | nil => simp [decodeOp] at h
  | cons op bs =>
    simp only [decodeOp] at h
    split at h
    · simp at h
    · next hop =>
      split at h
      · simp at h
      · next reg o rest ho =>
        simp at h
        obtain ⟨rfl, rfl⟩ := h
        obtain ⟨e, w⟩ := takeModRM_restores _ _ _ _ ho
        exact ⟨op, reg, o, by simpa using hop, w, rfl, by rw [e]⟩

/-- The legacy prefix bytes and the bytes after them are the bytes read. -/
theorem takePfx_restores (bs : List Byte) : (takePfx bs).1.map Pfx.toByte ++ (takePfx bs).2 =
    bs := by
  induction bs with
  | nil => rfl
  | cons c bs ih =>
    simp only [takePfx]
    split
    · next p hp => simp [ih, pfx_toByte_ofByte _ _ hp]
    · rfl

/-- A REX byte is its four bits. -/
theorem rex_toByte_ofByte (c : Byte) (r : Rex) (h : Rex.ofByte c = some r) : r.toByte = c := by
  revert h
  obtain ⟨a,b,d,e⟩ := r
  revert c a b d e
  decide

/-- A REX byte, where there is one, and the bytes after it are the bytes read. -/
theorem takeRex_restores (bs : List Byte) : ((takeRex bs).1.map Rex.toByte).toList ++
    (takeRex bs).2 = bs := by
  cases bs with
  | nil => rfl
  | cons c bs =>
    simp only [takeRex]
    split
    · next r hr => simp [rex_toByte_ofByte _ _ hr]
    · rfl

/-- The two opcodes. -/
theorem isMovssOp_cases (op : Byte) (h : isMovssOp op = true) : op = 0x10#8 ∨ op = 0x11#8 := by
  simpa [isMovssOp] using h

/-! ## The payload bytes of VEX and EVEX, put together again -/

theorem vexByte2_restored (c1 : Byte) (h : c1.extractLsb' 0 2 = 2#2) :
    (Vex.ofByte2 c1).encode = [0xC5#8, c1] ∧ (Vex.ofByte2 c1).wf = true := by
  revert c1; decide

theorem vexByte3_restored (b1 : Byte) (h : b1.extractLsb' 0 5 = 1#5) :
    BitVec.ofBool (b1.getLsbD 7) ++ BitVec.ofBool (b1.getLsbD 6) ++ BitVec.ofBool
      (b1.getLsbD 5) ++ 1#5 = b1 := by
  revert b1; decide

theorem vexByte4_restored (b2 : Byte) (h : b2.extractLsb' 0 2 = 2#2) :
    BitVec.ofBool (b2.getLsbD 7) ++ ~~~ ~~~ (b2.extractLsb' 3 4) ++ BitVec.ofBool
      (b2.getLsbD 2) ++ 2#2 = b2 := by
  revert b2; decide

theorem evexP0_restored (b1 : Byte) (h : b1.extractLsb' 0 3 = 1#3) :
    BitVec.ofBool (b1.getLsbD 7) ++ BitVec.ofBool (b1.getLsbD 6) ++ BitVec.ofBool (b1.getLsbD 5) ++
      BitVec.ofBool (b1.getLsbD 4) ++ BitVec.ofBool (b1.getLsbD 3) ++ 1#3 = b1 := by
  revert b1; decide

theorem evexP1_restored (b2 : Byte) (h : b2.extractLsb' 0 2 = 2#2) (h2 : b2.getLsbD 7 = false) :
    0#1 ++ ~~~ ~~~ (b2.extractLsb' 3 4) ++ BitVec.ofBool (b2.getLsbD 2) ++ 2#2 = b2 := by
  revert b2; decide

theorem evexP2_restored (b2 : Byte) :
    BitVec.ofBool (b2.getLsbD 7) ++ b2.extractLsb' 5 2 ++ BitVec.ofBool (b2.getLsbD 4) ++
      BitVec.ofBool (b2.getLsbD 3) ++ b2.extractLsb' 0 3 = b2 := by
  revert b2; decide

end Sys2Proof
end

