-- ==== Sys2Proof/Laws/State.lean ====
section
/-! SUPPORT. What each update of the state does to each field. -/

namespace Sys2Proof.Machine

@[simp] theorem advance_v (n : Nat) (s : State) : (s.advance n).v = s.v := rfl
@[simp] theorem advance_k (n : Nat) (s : State) : (s.advance n).k = s.k := rfl
@[simp] theorem advance_x (n : Nat) (s : State) : (s.advance n).x = s.x := rfl
@[simp] theorem advance_fsBase (n : Nat) (s : State) : (s.advance n).fsBase = s.fsBase := rfl
@[simp] theorem advance_gsBase (n : Nat) (s : State) : (s.advance n).gsBase = s.gsBase := rfl
@[simp] theorem advance_pc (n : Nat) (s : State) :
    (s.advance n).pc = s.pc + BitVec.ofNat 64 n := rfl
@[simp] theorem advance_rflags (n : Nat) (s : State) : (s.advance n).rflags = s.rflags := rfl
@[simp] theorem advance_mxcsr (n : Nat) (s : State) : (s.advance n).mxcsr = s.mxcsr := rfl
@[simp] theorem advance_mem (n : Nat) (s : State) : (s.advance n).mem = s.mem := rfl
@[simp] theorem advance_stored (n : Nat) (s : State) : (s.advance n).stored = s.stored := rfl
@[simp] theorem advance_choices (n : Nat) (s : State) : (s.advance n).choices = s.choices := rfl
@[simp] theorem advance_cfg (n : Nat) (s : State) : (s.advance n).cfg = s.cfg := rfl

@[simp] theorem writeVec_v (i : VReg) (w : Vec) (s : State) :
    (s.writeVec i w).v = s.v.set i.toNat (truncVec s.cfg.maxvl.bits w) i.isLt := rfl
@[simp] theorem writeVec_k (i : VReg) (w : Vec) (s : State) : (s.writeVec i w).k = s.k := rfl
@[simp] theorem writeVec_x (i : VReg) (w : Vec) (s : State) : (s.writeVec i w).x = s.x := rfl
@[simp] theorem writeVec_fsBase (i : VReg) (w : Vec) (s : State) :
    (s.writeVec i w).fsBase = s.fsBase := rfl
@[simp] theorem writeVec_gsBase (i : VReg) (w : Vec) (s : State) :
    (s.writeVec i w).gsBase = s.gsBase := rfl
@[simp] theorem writeVec_pc (i : VReg) (w : Vec) (s : State) : (s.writeVec i w).pc = s.pc := rfl
@[simp] theorem writeVec_rflags (i : VReg) (w : Vec) (s : State) :
    (s.writeVec i w).rflags = s.rflags := rfl
@[simp] theorem writeVec_mxcsr (i : VReg) (w : Vec) (s : State) :
    (s.writeVec i w).mxcsr = s.mxcsr := rfl
@[simp] theorem writeVec_mem (i : VReg) (w : Vec) (s : State) : (s.writeVec i w).mem = s.mem := rfl
@[simp] theorem writeVec_stored (i : VReg) (w : Vec) (s : State) :
    (s.writeVec i w).stored = s.stored := rfl
@[simp] theorem writeVec_choices (i : VReg) (w : Vec) (s : State) :
    (s.writeVec i w).choices = s.choices := rfl
@[simp] theorem writeVec_cfg (i : VReg) (w : Vec) (s : State) : (s.writeVec i w).cfg = s.cfg := rfl

@[simp] theorem writeByte_v (a : Word) (c : Byte) (s : State) : (s.writeByte a c).v = s.v := rfl
@[simp] theorem writeByte_k (a : Word) (c : Byte) (s : State) : (s.writeByte a c).k = s.k := rfl
@[simp] theorem writeByte_x (a : Word) (c : Byte) (s : State) : (s.writeByte a c).x = s.x := rfl
@[simp] theorem writeByte_fsBase (a : Word) (c : Byte) (s : State) :
    (s.writeByte a c).fsBase = s.fsBase := rfl
@[simp] theorem writeByte_gsBase (a : Word) (c : Byte) (s : State) :
    (s.writeByte a c).gsBase = s.gsBase := rfl
@[simp] theorem writeByte_pc (a : Word) (c : Byte) (s : State) : (s.writeByte a c).pc = s.pc := rfl
@[simp] theorem writeByte_rflags (a : Word) (c : Byte) (s : State) :
    (s.writeByte a c).rflags = s.rflags := rfl
@[simp] theorem writeByte_mxcsr (a : Word) (c : Byte) (s : State) :
    (s.writeByte a c).mxcsr = s.mxcsr := rfl
@[simp] theorem writeByte_mem (a : Word) (c : Byte) (s : State) :
    (s.writeByte a c).mem = s.mem.write a.toNat c := rfl
@[simp] theorem writeByte_stored (a : Word) (c : Byte) (s : State) :
    (s.writeByte a c).stored = insertAddr a.toNat s.stored := rfl
@[simp] theorem writeByte_choices (a : Word) (c : Byte) (s : State) :
    (s.writeByte a c).choices = s.choices := rfl
@[simp] theorem writeByte_cfg (a : Word) (c : Byte) (s : State) :
    (s.writeByte a c).cfg = s.cfg := rfl

@[simp] theorem write32_v (a : Word) (d : DWord) (s : State) : (s.write32 a d).v = s.v := rfl
@[simp] theorem write32_k (a : Word) (d : DWord) (s : State) : (s.write32 a d).k = s.k := rfl
@[simp] theorem write32_x (a : Word) (d : DWord) (s : State) : (s.write32 a d).x = s.x := rfl
@[simp] theorem write32_fsBase (a : Word) (d : DWord) (s : State) :
    (s.write32 a d).fsBase = s.fsBase := rfl
@[simp] theorem write32_gsBase (a : Word) (d : DWord) (s : State) :
    (s.write32 a d).gsBase = s.gsBase := rfl
@[simp] theorem write32_pc (a : Word) (d : DWord) (s : State) : (s.write32 a d).pc = s.pc := rfl
@[simp] theorem write32_rflags (a : Word) (d : DWord) (s : State) :
    (s.write32 a d).rflags = s.rflags := rfl
@[simp] theorem write32_mxcsr (a : Word) (d : DWord) (s : State) :
    (s.write32 a d).mxcsr = s.mxcsr := rfl
@[simp] theorem write32_choices (a : Word) (d : DWord) (s : State) :
    (s.write32 a d).choices = s.choices := rfl
@[simp] theorem write32_cfg (a : Word) (d : DWord) (s : State) : (s.write32 a d).cfg = s.cfg := rfl

@[simp] theorem withFlags_v (r : Word) (m : BitVec 32) (s : State) :
    (s.withFlags r m).v = s.v := rfl
@[simp] theorem withFlags_k (r : Word) (m : BitVec 32) (s : State) :
    (s.withFlags r m).k = s.k := rfl
@[simp] theorem withFlags_x (r : Word) (m : BitVec 32) (s : State) :
    (s.withFlags r m).x = s.x := rfl
@[simp] theorem withFlags_fsBase (r : Word) (m : BitVec 32) (s : State) :
    (s.withFlags r m).fsBase = s.fsBase := rfl
@[simp] theorem withFlags_gsBase (r : Word) (m : BitVec 32) (s : State) :
    (s.withFlags r m).gsBase = s.gsBase := rfl
@[simp] theorem withFlags_pc (r : Word) (m : BitVec 32) (s : State) :
    (s.withFlags r m).pc = s.pc := rfl
@[simp] theorem withFlags_rflags (r : Word) (m : BitVec 32) (s : State) :
    (s.withFlags r m).rflags = r := rfl
@[simp] theorem withFlags_mxcsr (r : Word) (m : BitVec 32) (s : State) :
    (s.withFlags r m).mxcsr = m := rfl
@[simp] theorem withFlags_mem (r : Word) (m : BitVec 32) (s : State) :
    (s.withFlags r m).mem = s.mem := rfl
@[simp] theorem withFlags_stored (r : Word) (m : BitVec 32) (s : State) :
    (s.withFlags r m).stored = s.stored := rfl
@[simp] theorem withFlags_choices (r : Word) (m : BitVec 32) (s : State) :
    (s.withFlags r m).choices = s.choices := rfl
@[simp] theorem withFlags_cfg (r : Word) (m : BitVec 32) (s : State) :
    (s.withFlags r m).cfg = s.cfg := rfl

@[simp] theorem mergeLow_k (d src : VReg) (s : State) : (s.mergeLow d src).k = s.k := rfl
@[simp] theorem mergeLow_x (d src : VReg) (s : State) : (s.mergeLow d src).x = s.x := rfl
@[simp] theorem mergeLow_fsBase (d src : VReg) (s : State) : (s.mergeLow d src).fsBase = s.fsBase := rfl
@[simp] theorem mergeLow_gsBase (d src : VReg) (s : State) : (s.mergeLow d src).gsBase = s.gsBase := rfl
@[simp] theorem mergeLow_pc (d src : VReg) (s : State) : (s.mergeLow d src).pc = s.pc := rfl
@[simp] theorem mergeLow_rflags (d src : VReg) (s : State) : (s.mergeLow d src).rflags = s.rflags := rfl
@[simp] theorem mergeLow_mxcsr (d src : VReg) (s : State) : (s.mergeLow d src).mxcsr = s.mxcsr := rfl
@[simp] theorem mergeLow_mem (d src : VReg) (s : State) : (s.mergeLow d src).mem = s.mem := rfl
@[simp] theorem mergeLow_stored (d src : VReg) (s : State) : (s.mergeLow d src).stored = s.stored := rfl
@[simp] theorem mergeLow_choices (d src : VReg) (s : State) : (s.mergeLow d src).choices = s.choices := rfl
@[simp] theorem mergeLow_cfg (d src : VReg) (s : State) : (s.mergeLow d src).cfg = s.cfg := rfl

@[simp] theorem loadKeepUpper_k (d : VReg) (t : DWord) (s : State) : (s.loadKeepUpper d t).k = s.k := rfl
@[simp] theorem loadKeepUpper_x (d : VReg) (t : DWord) (s : State) : (s.loadKeepUpper d t).x = s.x := rfl
@[simp] theorem loadKeepUpper_fsBase (d : VReg) (t : DWord) (s : State) : (s.loadKeepUpper d t).fsBase = s.fsBase := rfl
@[simp] theorem loadKeepUpper_gsBase (d : VReg) (t : DWord) (s : State) : (s.loadKeepUpper d t).gsBase = s.gsBase := rfl
@[simp] theorem loadKeepUpper_pc (d : VReg) (t : DWord) (s : State) : (s.loadKeepUpper d t).pc = s.pc := rfl
@[simp] theorem loadKeepUpper_rflags (d : VReg) (t : DWord) (s : State) : (s.loadKeepUpper d t).rflags = s.rflags := rfl
@[simp] theorem loadKeepUpper_mxcsr (d : VReg) (t : DWord) (s : State) : (s.loadKeepUpper d t).mxcsr = s.mxcsr := rfl
@[simp] theorem loadKeepUpper_mem (d : VReg) (t : DWord) (s : State) : (s.loadKeepUpper d t).mem = s.mem := rfl
@[simp] theorem loadKeepUpper_stored (d : VReg) (t : DWord) (s : State) : (s.loadKeepUpper d t).stored = s.stored := rfl
@[simp] theorem loadKeepUpper_choices (d : VReg) (t : DWord) (s : State) : (s.loadKeepUpper d t).choices = s.choices := rfl
@[simp] theorem loadKeepUpper_cfg (d : VReg) (t : DWord) (s : State) : (s.loadKeepUpper d t).cfg = s.cfg := rfl

@[simp] theorem mergeZeroUpper_k (d s1 : VReg) (t : DWord) (s : State) : (s.mergeZeroUpper d s1 t).k = s.k := rfl
@[simp] theorem mergeZeroUpper_x (d s1 : VReg) (t : DWord) (s : State) : (s.mergeZeroUpper d s1 t).x = s.x := rfl
@[simp] theorem mergeZeroUpper_fsBase (d s1 : VReg) (t : DWord) (s : State) : (s.mergeZeroUpper d s1 t).fsBase = s.fsBase := rfl
@[simp] theorem mergeZeroUpper_gsBase (d s1 : VReg) (t : DWord) (s : State) : (s.mergeZeroUpper d s1 t).gsBase = s.gsBase := rfl
@[simp] theorem mergeZeroUpper_pc (d s1 : VReg) (t : DWord) (s : State) : (s.mergeZeroUpper d s1 t).pc = s.pc := rfl
@[simp] theorem mergeZeroUpper_rflags (d s1 : VReg) (t : DWord) (s : State) : (s.mergeZeroUpper d s1 t).rflags = s.rflags := rfl
@[simp] theorem mergeZeroUpper_mxcsr (d s1 : VReg) (t : DWord) (s : State) : (s.mergeZeroUpper d s1 t).mxcsr = s.mxcsr := rfl
@[simp] theorem mergeZeroUpper_mem (d s1 : VReg) (t : DWord) (s : State) : (s.mergeZeroUpper d s1 t).mem = s.mem := rfl
@[simp] theorem mergeZeroUpper_stored (d s1 : VReg) (t : DWord) (s : State) : (s.mergeZeroUpper d s1 t).stored = s.stored := rfl
@[simp] theorem mergeZeroUpper_choices (d s1 : VReg) (t : DWord) (s : State) : (s.mergeZeroUpper d s1 t).choices = s.choices := rfl
@[simp] theorem mergeZeroUpper_cfg (d s1 : VReg) (t : DWord) (s : State) : (s.mergeZeroUpper d s1 t).cfg = s.cfg := rfl

@[simp] theorem loadZeroUpper_k (d : VReg) (t : DWord) (s : State) : (s.loadZeroUpper d t).k = s.k := rfl
@[simp] theorem loadZeroUpper_x (d : VReg) (t : DWord) (s : State) : (s.loadZeroUpper d t).x = s.x := rfl
@[simp] theorem loadZeroUpper_fsBase (d : VReg) (t : DWord) (s : State) : (s.loadZeroUpper d t).fsBase = s.fsBase := rfl
@[simp] theorem loadZeroUpper_gsBase (d : VReg) (t : DWord) (s : State) : (s.loadZeroUpper d t).gsBase = s.gsBase := rfl
@[simp] theorem loadZeroUpper_pc (d : VReg) (t : DWord) (s : State) : (s.loadZeroUpper d t).pc = s.pc := rfl
@[simp] theorem loadZeroUpper_rflags (d : VReg) (t : DWord) (s : State) : (s.loadZeroUpper d t).rflags = s.rflags := rfl
@[simp] theorem loadZeroUpper_mxcsr (d : VReg) (t : DWord) (s : State) : (s.loadZeroUpper d t).mxcsr = s.mxcsr := rfl
@[simp] theorem loadZeroUpper_mem (d : VReg) (t : DWord) (s : State) : (s.loadZeroUpper d t).mem = s.mem := rfl
@[simp] theorem loadZeroUpper_stored (d : VReg) (t : DWord) (s : State) : (s.loadZeroUpper d t).stored = s.stored := rfl
@[simp] theorem loadZeroUpper_choices (d : VReg) (t : DWord) (s : State) : (s.loadZeroUpper d t).choices = s.choices := rfl
@[simp] theorem loadZeroUpper_cfg (d : VReg) (t : DWord) (s : State) : (s.loadZeroUpper d t).cfg = s.cfg := rfl

section
variable (a : Word) (kind : AccessKind) (seg : Seg) (s : State)

@[simp] theorem afterProbe_v : (s.afterProbe a kind seg).v = s.v := by
  unfold State.afterProbe; split <;> [rfl; (split <;> rfl)]
@[simp] theorem afterProbe_k : (s.afterProbe a kind seg).k = s.k := by
  unfold State.afterProbe; split <;> [rfl; (split <;> rfl)]
@[simp] theorem afterProbe_x : (s.afterProbe a kind seg).x = s.x := by
  unfold State.afterProbe; split <;> [rfl; (split <;> rfl)]
@[simp] theorem afterProbe_fsBase : (s.afterProbe a kind seg).fsBase = s.fsBase := by
  unfold State.afterProbe; split <;> [rfl; (split <;> rfl)]
@[simp] theorem afterProbe_gsBase : (s.afterProbe a kind seg).gsBase = s.gsBase := by
  unfold State.afterProbe; split <;> [rfl; (split <;> rfl)]
@[simp] theorem afterProbe_pc : (s.afterProbe a kind seg).pc = s.pc := by
  unfold State.afterProbe; split <;> [rfl; (split <;> rfl)]
@[simp] theorem afterProbe_rflags : (s.afterProbe a kind seg).rflags = s.rflags := by
  unfold State.afterProbe; split <;> [rfl; (split <;> rfl)]
@[simp] theorem afterProbe_mxcsr : (s.afterProbe a kind seg).mxcsr = s.mxcsr := by
  unfold State.afterProbe; split <;> [rfl; (split <;> rfl)]
@[simp] theorem afterProbe_mem : (s.afterProbe a kind seg).mem = s.mem := by
  unfold State.afterProbe; split <;> [rfl; (split <;> rfl)]
@[simp] theorem afterProbe_stored : (s.afterProbe a kind seg).stored = s.stored := by
  unfold State.afterProbe; split <;> [rfl; (split <;> rfl)]
@[simp] theorem afterProbe_cfg : (s.afterProbe a kind seg).cfg = s.cfg := by
  unfold State.afterProbe; split <;> [rfl; (split <;> rfl)]

end

end Sys2Proof.Machine
end

