-- ==== Sys2Proof/Laws/Memory.lean ====
section
/-! SUPPORT. Memory: read after write, and the canonical form. -/

namespace Sys2Proof.Machine

/-! ## One byte -/

theorem memory_read_filter_same (m : Memory) (a : Nat) :
    Memory.read (m.filter (fun e => e.1 != a)) a = 0#8 := by
  induction m with
  | nil => rfl
  | cons e m ih =>
    by_cases h : e.1 = a
    · simpa [List.filter, h] using ih
    · have h' : ¬ a = e.1 := fun x => h x.symm
      have hb : (e.1 != a) = true := by simpa using h
      simp only [List.filter, hb]
      simp only [Memory.read, if_neg h', ih]

theorem memory_read_filter_other (m : Memory) {a b : Nat} (hab : b ≠ a) :
    Memory.read (m.filter (fun e => e.1 != a)) b = Memory.read m b := by
  induction m with
  | nil => rfl
  | cons e m ih =>
    by_cases h : e.1 = a
    · have : ¬ b = e.1 := fun x => hab (x.trans h)
      simp only [List.filter, h, bne_self_eq_false, ih, Memory.read]
      simp [hab]
    · have hb : (e.1 != a) = true := by simpa using h
      simp only [List.filter, hb, Memory.read, ih]

theorem memory_read_insert_same (a : Nat) (c : Byte) (m : Memory)
    (h : ∀ e ∈ m, e.1 ≠ a) : Memory.read (Memory.insert a c m) a = c := by
  induction m with
  | nil => simp [Memory.insert, Memory.read]
  | cons e m ih =>
    have he : ¬ a = e.1 := fun x => h e (by simp) x.symm
    simp only [Memory.insert]
    split
    · simp [Memory.read]
    · simp only [Memory.read, if_neg he]
      exact ih fun e' he' => h e' (by simp [he'])

theorem memory_read_insert_other {a b : Nat} (c : Byte) (m : Memory) (hab : b ≠ a) :
    Memory.read (Memory.insert a c m) b = Memory.read m b := by
  induction m with
  | nil => simp [Memory.insert, Memory.read, hab]
  | cons e m ih =>
    simp only [Memory.insert]
    split
    · simp [Memory.read, hab]
    · simp only [Memory.read, ih]

/-- A read after a write to the same address gives the byte written. -/
@[simp] theorem memory_read_write_same (m : Memory) (a : Nat) (c : Byte) :
    (m.write a c).read a = c := by
  unfold Memory.write
  split
  · next h => rw [memory_read_filter_same, h]
  · exact memory_read_insert_same a c _ fun e he => by simpa using (List.mem_filter.mp he).2

/-- A write leaves every other address alone. -/
theorem memory_read_write_other (m : Memory) {a b : Nat} (c : Byte) (hab : b ≠ a) :
    (m.write a c).read b = m.read b := by
  unfold Memory.write
  split
  · exact memory_read_filter_other m hab
  · rw [memory_read_insert_other c _ hab, memory_read_filter_other m hab]

/-! ## The canonical form -/

/-- What `Memory.wf` says of each entry and each pair of entries. -/
theorem memory_wf_iff (m : Memory) :
    m.wf = true ↔ (∀ e ∈ m, e.1 < 2 ^ 64 ∧ e.2 ≠ 0#8) ∧ m.Pairwise (fun e f => e.1 < f.1) := by
  induction m with
  | nil => simp [Memory.wf]
  | cons e m ih =>
    simp only [Memory.wf, Bool.and_eq_true, decide_eq_true_eq, List.all_eq_true, ih, bne_iff_ne,
      List.mem_cons, forall_eq_or_imp, List.pairwise_cons]
    tauto

theorem memory_mem_insert (a : Nat) (c : Byte) (m : Memory) (e : Host.Cell) :
    e ∈ Memory.insert a c m ↔ e = (a, c) ∨ e ∈ m := by
  induction m with
  | nil => simp [Memory.insert]
  | cons f m ih =>
    simp only [Memory.insert]
    split
    · simp
    · simp only [List.mem_cons, ih]; tauto

theorem memory_pairwise_insert (a : Nat) (c : Byte) (m : Memory)
    (hm : m.Pairwise (fun e f => e.1 < f.1)) (ha : ∀ e ∈ m, e.1 ≠ a) :
    (Memory.insert a c m).Pairwise (fun e f => e.1 < f.1) := by
  induction m with
  | nil => simp [Memory.insert]
  | cons f m ih =>
    obtain ⟨h1, h2⟩ := List.pairwise_cons.mp hm
    simp only [Memory.insert]
    split
    · next h =>
      refine List.pairwise_cons.mpr ⟨fun e he => ?_, hm⟩
      rcases List.mem_cons.mp he with rfl | he
      · exact h
      · exact Nat.lt_trans h (h1 e he)
    · next h =>
      have hf := ha f (by simp)
      refine List.pairwise_cons.mpr ⟨fun e he => ?_, ih h2 fun e he => ha e (by simp [he])⟩
      rcases (memory_mem_insert a c m e).mp he with rfl | he
      · show f.1 < a
        have : ¬ a < f.1 := h
        omega
      · exact h1 e he

/-- A write of one byte keeps the canonical form. -/
theorem memory_write_wf (m : Memory) (a : Nat) (c : Byte) (ha : a < 2 ^ 64) (hm : m.wf = true) :
    (m.write a c).wf = true := by
  obtain ⟨h1, h2⟩ := (memory_wf_iff m).mp hm
  have hf : (m.filter (fun e => e.1 != a)).Pairwise (fun e f => e.1 < f.1) := h2.filter _
  have hm' : ∀ e ∈ m.filter (fun e => e.1 != a), e.1 < 2 ^ 64 ∧ e.2 ≠ 0#8 :=
    fun e he => h1 e (List.mem_filter.mp he).1
  unfold Memory.write
  split
  · exact (memory_wf_iff _).mpr ⟨hm', hf⟩
  · next hc =>
    refine (memory_wf_iff _).mpr ⟨fun e he => ?_, memory_pairwise_insert a c _ hf fun e he => by
      simpa using (List.mem_filter.mp he).2⟩
    rcases (memory_mem_insert a c _ e).mp he with rfl | he
    · exact ⟨ha, hc⟩
    · exact hm' e he

theorem stored_mem_insert (a b : Nat) (l : List Nat) :
    b ∈ insertAddr a l ↔ b = a ∨ b ∈ l := by
  induction l with
  | nil => simp [insertAddr]
  | cons c l ih =>
    simp only [insertAddr]
    split
    · simp
    · split
      · next h => subst h; simp
      · simp only [List.mem_cons, ih]; tauto

/-- What `storedWf` says. -/
theorem stored_wf_iff (l : List Nat) :
    storedWf l = true ↔ (∀ a ∈ l, a < 2 ^ 64) ∧ l.Pairwise (· < ·) := by
  induction l with
  | nil => simp [storedWf]
  | cons a l ih =>
    simp only [storedWf, Bool.and_eq_true, decide_eq_true_eq, List.all_eq_true, ih, List.mem_cons,
      forall_eq_or_imp, List.pairwise_cons]
    tauto

/-- Noting an address keeps the canonical form of the stored addresses. -/
theorem stored_insert_wf (a : Nat) (l : List Nat) (ha : a < 2 ^ 64) (hl : storedWf l = true) :
    storedWf (insertAddr a l) = true := by
  induction l with
  | nil => simpa [insertAddr, storedWf] using ha
  | cons b l ih =>
    obtain ⟨h1, h2⟩ := (stored_wf_iff _).mp hl
    obtain ⟨h3, h4⟩ := List.pairwise_cons.mp h2
    have hl' : storedWf l = true := (stored_wf_iff _).mpr ⟨fun c hc => h1 c (by simp [hc]), h4⟩
    simp only [insertAddr]
    split
    · next h =>
      refine (stored_wf_iff _).mpr ⟨fun c hc => ?_, List.pairwise_cons.mpr ⟨fun c hc => ?_, h2⟩⟩
      · rcases List.mem_cons.mp hc with rfl | hc
        · exact ha
        · exact h1 c hc
      · rcases List.mem_cons.mp hc with rfl | hc
        · exact h
        · exact Nat.lt_trans h (h3 c hc)
    · split
      · exact hl
      · next hlt hne =>
        obtain ⟨h5, h6⟩ := (stored_wf_iff _).mp (ih hl')
        refine (stored_wf_iff _).mpr ⟨?_, List.pairwise_cons.mpr ⟨fun c hc => ?_, h6⟩⟩
        · simpa using ⟨h1 b (by simp), h5⟩
        · rcases (stored_mem_insert a c l).mp hc with rfl | hc
          · omega
          · exact h3 c hc

/-! ## Bytes and doublewords of the state -/

@[simp] theorem byteAt_advance (n : Nat) (s : State) (a : Word) :
    (s.advance n).byteAt a = s.byteAt a := rfl

@[simp] theorem byteAt_writeVec (i : VReg) (w : Vec) (s : State) (a : Word) :
    (s.writeVec i w).byteAt a = s.byteAt a := rfl

@[simp] theorem byteAt_afterProbe (b : Word) (kind : AccessKind) (seg : Seg) (s : State) (a : Word) :
    (s.afterProbe b kind seg).byteAt a = s.byteAt a := by
  simp [State.byteAt]

@[simp] theorem byteAt_writeByte_same (s : State) (a : Word) (c : Byte) :
    (s.writeByte a c).byteAt a = c := by
  simp [State.byteAt]

theorem byteAt_writeByte_other (s : State) {a b : Word} (c : Byte) (h : b ≠ a) :
    (s.writeByte a c).byteAt b = s.byteAt b := by
  have : b.toNat ≠ a.toNat := fun x => h (BitVec.eq_of_toNat_eq x)
  simp [State.byteAt, memory_read_write_other _ _ this]

theorem accessBytes_four (a : Word) :
    accessBytes a 4 = [a, a + 1#64, a + 2#64, a + 3#64] := by
  simp [accessBytes, List.range_succ]

/-- A store of four bytes leaves every other byte alone. -/
theorem byteAt_write32_other (s : State) (a b : Word) (d : DWord) (h : b ∉ accessBytes a 4) :
    (s.write32 a d).byteAt b = s.byteAt b := by
  simp only [accessBytes_four, List.mem_cons, List.not_mem_nil, or_false, not_or] at h
  obtain ⟨h0, h1, h2, h3⟩ := h
  simp only [State.write32]
  rw [byteAt_writeByte_other _ _ h3, byteAt_writeByte_other _ _ h2, byteAt_writeByte_other _ _ h1,
    byteAt_writeByte_other _ _ h0]

/-- The four bytes a store leaves at its address. -/
theorem byteAt_write32_bytes (s : State) (a : Word) (d : DWord) :
    (s.write32 a d).byteAt a = d.extractLsb' 0 8 ∧
    (s.write32 a d).byteAt (a + 1#64) = d.extractLsb' 8 8 ∧
    (s.write32 a d).byteAt (a + 2#64) = d.extractLsb' 16 8 ∧
    (s.write32 a d).byteAt (a + 3#64) = d.extractLsb' 24 8 := by
  have n01 : a ≠ a + 1#64 := by simp
  have n02 : a ≠ a + 2#64 := by simp
  have n03 : a ≠ a + 3#64 := by simp
  have n12 : a + 1#64 ≠ a + 2#64 := by simp
  have n13 : a + 1#64 ≠ a + 3#64 := by simp
  have n23 : a + 2#64 ≠ a + 3#64 := by simp
  refine ⟨?_, ?_, ?_, ?_⟩ <;> simp only [State.write32]
  · rw [byteAt_writeByte_other _ _ n03, byteAt_writeByte_other _ _ n02,
      byteAt_writeByte_other _ _ n01, byteAt_writeByte_same]
  · rw [byteAt_writeByte_other _ _ n13, byteAt_writeByte_other _ _ n12, byteAt_writeByte_same]
  · rw [byteAt_writeByte_other _ _ n23, byteAt_writeByte_same]
  · rw [byteAt_writeByte_same]

theorem dword_of_bytes (d : DWord) :
    d.extractLsb' 24 8 ++ d.extractLsb' 16 8 ++ d.extractLsb' 8 8 ++ d.extractLsb' 0 8 = d := by
  ext i hi
  simp only [BitVec.getElem_append, BitVec.getElem_extractLsb']
  split
  · simp [BitVec.getLsbD_eq_getElem hi]
  · split
    · next h1 h2 =>
      have : 8 + (i - 8) = i := by omega
      simp [this, BitVec.getLsbD_eq_getElem hi]
    · split
      · next h1 h2 h3 =>
        have : 16 + (i - 8 - 8) = i := by omega
        simp [this, BitVec.getLsbD_eq_getElem hi]
      · next h1 h2 h3 =>
        have : 24 + (i - 8 - 8 - 8) = i := by omega
        simp [this, BitVec.getLsbD_eq_getElem hi]

/-- A load from where a store wrote gives the doubleword stored. -/
@[simp] theorem read32_write32 (s : State) (a : Word) (d : DWord) :
    (s.write32 a d).read32 a = d := by
  obtain ⟨h0, h1, h2, h3⟩ := byteAt_write32_bytes s a d
  unfold State.read32
  rw [h0, h1, h2, h3, dword_of_bytes]

@[simp] theorem read32_advance (n : Nat) (s : State) (a : Word) :
    (s.advance n).read32 a = s.read32 a := rfl

/-- A store keeps memory's canonical form. -/
theorem write32_mem_wf (s : State) (a : Word) (d : DWord) (h : s.mem.wf = true) :
    (s.write32 a d).mem.wf = true := by
  simp only [State.write32, writeByte_mem]
  exact memory_write_wf _ _ _ (BitVec.isLt _) (memory_write_wf _ _ _ (BitVec.isLt _)
    (memory_write_wf _ _ _ (BitVec.isLt _) (memory_write_wf _ _ _ (BitVec.isLt _) h)))

/-- A store keeps the canonical form of the stored addresses. -/
theorem write32_stored_wf (s : State) (a : Word) (d : DWord) (h : storedWf s.stored = true) :
    storedWf (s.write32 a d).stored = true := by
  simp only [State.write32, writeByte_stored]
  exact stored_insert_wf _ _ (BitVec.isLt _) (stored_insert_wf _ _ (BitVec.isLt _)
    (stored_insert_wf _ _ (BitVec.isLt _) (stored_insert_wf _ _ (BitVec.isLt _) h)))

/-- Which addresses count as stored after a store. -/
theorem write32_mem_stored (s : State) (a : Word) (d : DWord) (n : Nat) :
    n ∈ (s.write32 a d).stored ↔ (∃ b ∈ accessBytes a 4, n = b.toNat) ∨ n ∈ s.stored := by
  simp only [State.write32, writeByte_stored, stored_mem_insert, accessBytes_four, List.mem_cons,
    List.not_mem_nil, or_false, exists_eq_or_imp, exists_eq_left]
  tauto

/-- Placing bytes keeps memory's canonical form. -/
theorem placeBytes_mem_wf (bs : List Byte) (a : Word) (s : State) (h : s.mem.wf = true) :
    (State.placeBytes a bs s).mem.wf = true := by
  induction bs generalizing a s with
  | nil => exact h
  | cons c bs ih => exact ih _ _ (memory_write_wf _ _ _ (BitVec.isLt _) h)

/-- A withdrawn address leaves the stored addresses in canonical form. -/
theorem placeBytes_stored_wf (bs : List Byte) (a : Word) (s : State) (h : storedWf s.stored = true) :
    storedWf (State.placeBytes a bs s).stored = true := by
  induction bs generalizing a s with
  | nil => exact h
  | cons c bs ih =>
    refine ih _ _ ((stored_wf_iff _).mpr ?_)
    obtain ⟨h1, h2⟩ := (stored_wf_iff _).mp h
    exact ⟨fun b hb => h1 b (List.mem_filter.mp hb).1, h2.filter _⟩

end Sys2Proof.Machine
end

