-- ==== Sys2Proof/Laws/Registers.lean ====
section
/-! SUPPORT. Vector and mask registers: their widths, read after write, and what each data movement
leaves in the destination, bit by bit. -/

namespace Sys2Proof.Machine

/-! ## Widths -/

theorem truncVec_getLsbD (n : Nat) (w : Vec) (i : Nat) (hi : i < 512) :
    (truncVec n w).getLsbD i = (decide (i < n) && w.getLsbD i) := by
  simp [truncVec, hi]

/-- Cutting to a width twice is cutting once. -/
@[simp] theorem truncVec_truncVec (n : Nat) (w : Vec) : truncVec n (truncVec n w) = truncVec n w := by
  apply BitVec.eq_of_getLsbD_eq
  intro i hi
  simp only [truncVec_getLsbD _ _ _ hi]
  cases decide (i < n) <;> simp

theorem bits_le (l : VectorLength) : 128 ≤ l.bits ∧ l.bits ≤ 512 := by
  cases l <;> decide

/-! ## Read after write -/

@[simp] theorem readVec_advance (n : Nat) (s : State) (i : VReg) :
    (s.advance n).readVec i = s.readVec i := rfl

@[simp] theorem readMask_advance (n : Nat) (s : State) (i : BitVec 3) :
    (s.advance n).readMask i = s.readMask i := rfl

/-- Bit 0 of a mask register, at every width (R9). -/
theorem readMask_bit_zero (s : State) (i : BitVec 3) :
    (s.readMask i).getLsbD 0 = (s.k[i.toNat]'i.isLt).testBit 0 := by
  simp only [State.readMask, MaskWidth.bits, BitVec.getLsbD_ofNat, Nat.zero_lt_succ, decide_true,
    Bool.true_and]

/-- A register read after it is written gives the value written, cut to `MAXVL` bits. -/
@[simp] theorem readVec_writeVec_same (s : State) (i : VReg) (w : Vec) :
    (s.writeVec i w).readVec i = truncVec s.cfg.maxvl.bits w := by
  simp [State.readVec, State.writeVec]

/-- Writing a register leaves every other register alone. -/
theorem readVec_writeVec_other (s : State) {i j : VReg} (w : Vec) (h : j ≠ i) :
    (s.writeVec i w).readVec j = s.readVec j := by
  have : i.toNat ≠ j.toNat := fun x => h (BitVec.eq_of_toNat_eq x.symm)
  simp only [State.readVec, State.writeVec]
  rw [Vector.getElem_set_ne _ _ this]

/-- A read register is cut to `MAXVL` bits already. -/
@[simp] theorem truncVec_readVec (s : State) (i : VReg) :
    truncVec s.cfg.maxvl.bits (s.readVec i) = s.readVec i := by
  simp [State.readVec]

@[simp] theorem readVec_write32 (s : State) (a : Word) (d : DWord) (i : VReg) :
    (s.write32 a d).readVec i = s.readVec i := rfl

@[simp] theorem readMask_write32 (s : State) (a : Word) (d : DWord) (i : BitVec 3) :
    (s.write32 a d).readMask i = s.readMask i := rfl

@[simp] theorem readVec_afterProbe (a : Word) (kind : AccessKind) (seg : Seg) (s : State) (i : VReg) :
    (s.afterProbe a kind seg).readVec i = s.readVec i := by
  simp [State.readVec]

@[simp] theorem readVec_withFlags (r : Word) (m : BitVec 32) (s : State) (i : VReg) :
    (s.withFlags r m).readVec i = s.readVec i := rfl

/-- A register has no bit at or above `MAXVL`. -/
theorem readVec_high (s : State) (i : VReg) (j : Nat) (h : s.cfg.maxvl.bits ≤ j) :
    (s.readVec i).getLsbD j = false := by
  by_cases hj : j < 512
  · simp [State.readVec, truncVec_getLsbD _ _ _ hj, Nat.not_lt.mpr h]
  · exact BitVec.getLsbD_of_ge _ _ (Nat.not_lt.mp hj)

/-! ## What the movements leave in the destination -/

/-- The three ranges of a packed register. -/
theorem packVec_getLsbD (upper : BitVec 384) (mid : BitVec 96) (low : DWord) (j : Nat) :
    (packVec upper mid low).getLsbD j =
      if j < 32 then low.getLsbD j
      else if j < 128 then mid.getLsbD (j - 32) else upper.getLsbD (j - 128) := by
  have h : (packVec upper mid low).getLsbD j = (upper ++ mid ++ low).getLsbD j := rfl
  rw [h, BitVec.getLsbD_append, BitVec.getLsbD_append]
  by_cases h32 : j < 32
  · simp [h32]
  · by_cases h128 : j < 128
    · have : j - 32 < 96 := by omega
      simp [h32, h128, this]
    · have h1 : ¬ j - 32 < 96 := by omega
      have h2 : j - 32 - 96 = j - 128 := by omega
      simp [h32, h128, h1, h2]

theorem lowDword_getLsbD (w : Vec) (j : Nat) :
    (lowDword w).getLsbD j = (decide (j < 32) && w.getLsbD j) := by
  simp [lowDword]

theorem midBits_getLsbD (w : Vec) (j : Nat) :
    (midBits w).getLsbD j = (decide (j < 96) && w.getLsbD (32 + j)) := by
  simp [midBits]

theorem upperBits_getLsbD (w : Vec) (j : Nat) :
    (upperBits w).getLsbD j = w.getLsbD (128 + j) := by
  by_cases h : j < 384
  · simp [upperBits, h]
  · rw [BitVec.getLsbD_of_ge _ j (by omega), BitVec.getLsbD_of_ge w (128 + j) (by omega)]

/-- A register holds what was packed into it, below `MAXVL`. -/
theorem readVec_writeVec_pack (s : State) (d : VReg) (upper : BitVec 384) (mid : BitVec 96)
    (low : DWord) (j : Nat) :
    ((s.writeVec d (packVec upper mid low)).readVec d).getLsbD j =
      if j < 32 then low.getLsbD j
      else if j < 128 then mid.getLsbD (j - 32)
      else decide (j < s.cfg.maxvl.bits) && upper.getLsbD (j - 128) := by
  have hb := bits_le s.cfg.maxvl
  rw [readVec_writeVec_same]
  by_cases hj : j < 512
  · rw [truncVec_getLsbD _ _ _ hj, packVec_getLsbD]
    by_cases h128 : j < 128
    · have : j < s.cfg.maxvl.bits := by omega
      simp [this, h128]
    · have : ¬ j < 32 := by omega
      simp [this, h128]
  · have h1 : ¬ j < 32 := by omega
    have h2 : ¬ j < 128 := by omega
    have h3 : ¬ j < s.cfg.maxvl.bits := by omega
    simp [BitVec.getLsbD_of_ge _ j (Nat.not_lt.mp hj), h1, h2, h3]

section
variable (s : State) (d s1 src : VReg) (t : DWord) (j : Nat)

/-- A register read cut at `MAXVL` is the register read. -/
theorem readVec_below (i : VReg) :
    (decide (j < s.cfg.maxvl.bits) && (s.readVec i).getLsbD j) = (s.readVec i).getLsbD j := by
  by_cases h : j < s.cfg.maxvl.bits
  · simp [h]
  · simp [readVec_high s i j (Nat.not_lt.mp h)]

/-- `mergeLow` (R100): bits 31:0 from the source, the rest as before. -/
theorem mergeLow_bits :
    ((s.mergeLow d src).readVec d).getLsbD j =
      if j < 32 then (s.readVec src).getLsbD j else (s.readVec d).getLsbD j := by
  rw [State.mergeLow, readVec_writeVec_pack, lowDword_getLsbD, midBits_getLsbD, upperBits_getLsbD]
  by_cases h32 : j < 32
  · simp [h32]
  · by_cases h128 : j < 128
    · have h1 : j - 32 < 96 := by omega
      have h2 : 32 + (j - 32) = j := by omega
      simp [h32, h128, h1, h2]
    · have h2 : 128 + (j - 128) = j := by omega
      simp [h32, h128, h2, readVec_below]

/-- `loadKeepUpper` (R101): bits 31:0 loaded, bits 127:32 zero, the rest as before. -/
theorem loadKeepUpper_bits :
    ((s.loadKeepUpper d t).readVec d).getLsbD j =
      if j < 32 then t.getLsbD j else if j < 128 then false else (s.readVec d).getLsbD j := by
  rw [State.loadKeepUpper, readVec_writeVec_pack, upperBits_getLsbD]
  by_cases h32 : j < 32
  · simp [h32]
  · by_cases h128 : j < 128
    · simp [h32, h128]
    · have h2 : 128 + (j - 128) = j := by omega
      simp [h32, h128, h2, readVec_below]

/-- `mergeZeroUpper` (R110): bits 31:0 as given, bits 127:32 from `s1`, the rest zero. -/
theorem mergeZeroUpper_bits :
    ((s.mergeZeroUpper d s1 t).readVec d).getLsbD j =
      if j < 32 then t.getLsbD j else if j < 128 then (s.readVec s1).getLsbD j else false := by
  rw [State.mergeZeroUpper, readVec_writeVec_pack, midBits_getLsbD]
  by_cases h32 : j < 32
  · simp [h32]
  · by_cases h128 : j < 128
    · have h1 : j - 32 < 96 := by omega
      have h2 : 32 + (j - 32) = j := by omega
      simp [h32, h128, h1, h2]
    · simp [h32, h128]

/-- `loadZeroUpper` (R111): bits 31:0 as given, the rest zero. -/
theorem loadZeroUpper_bits :
    ((s.loadZeroUpper d t).readVec d).getLsbD j = if j < 32 then t.getLsbD j else false := by
  rw [State.loadZeroUpper, readVec_writeVec_pack]
  by_cases h32 : j < 32 <;> simp [h32]

/-- The low doubleword of a register that holds `t` in bits 31:0. -/
theorem lowDword_eq (w : Vec) (h : ∀ i < 32, w.getLsbD i = t.getLsbD i) : lowDword w = t := by
  apply BitVec.eq_of_getLsbD_eq
  intro i hi
  rw [lowDword_getLsbD, h i hi]
  simp [hi]

@[simp] theorem lowDword_mergeLow :
    lowDword ((s.mergeLow d src).readVec d) = lowDword (s.readVec src) :=
  lowDword_eq _ _ fun i hi => by
    rw [mergeLow_bits, if_pos hi, lowDword_getLsbD]
    simp [hi]

@[simp] theorem lowDword_loadKeepUpper : lowDword ((s.loadKeepUpper d t).readVec d) = t :=
  lowDword_eq _ _ fun i hi => by rw [loadKeepUpper_bits, if_pos hi]

@[simp] theorem lowDword_mergeZeroUpper : lowDword ((s.mergeZeroUpper d s1 t).readVec d) = t :=
  lowDword_eq _ _ fun i hi => by rw [mergeZeroUpper_bits, if_pos hi]

@[simp] theorem lowDword_loadZeroUpper : lowDword ((s.loadZeroUpper d t).readVec d) = t :=
  lowDword_eq _ _ fun i hi => by rw [loadZeroUpper_bits, if_pos hi]

end

/-! ## Other registers after a movement -/

theorem readVec_mergeLow_other (s : State) {d i : VReg} (src : VReg) (h : i ≠ d) :
    (s.mergeLow d src).readVec i = s.readVec i := readVec_writeVec_other s _ h

theorem readVec_loadKeepUpper_other (s : State) {d i : VReg} (t : DWord) (h : i ≠ d) :
    (s.loadKeepUpper d t).readVec i = s.readVec i := readVec_writeVec_other s _ h

theorem readVec_mergeZeroUpper_other (s : State) {d i : VReg} (s1 : VReg) (t : DWord) (h : i ≠ d) :
    (s.mergeZeroUpper d s1 t).readVec i = s.readVec i := readVec_writeVec_other s _ h

theorem readVec_loadZeroUpper_other (s : State) {d i : VReg} (t : DWord) (h : i ≠ d) :
    (s.loadZeroUpper d t).readVec i = s.readVec i := readVec_writeVec_other s _ h

end Sys2Proof.Machine
end

