-- ==== Sys2Proof/Laws/Ops.lean ====
section
/-! SUPPORT. Everything each shared operation can do: when it answers a next state and which, when the
preambles let a form through, and when an access does. -/

namespace Sys2Proof.Machine

/-! ## How an instruction ends -/

/-- `finish` answers a next state exactly when nothing stopped the instruction. -/
@[simp] theorem finish_eq_next (stop : Option Stop) (t u : State) :
    finish stop t = .next u ↔ stop = none ∧ u = t := by
  cases stop with
  | none => simp [finish, eq_comm]
  | some e => cases e <;> simp [finish, Stop.outcome]

/-- `finish` answers a fault exactly when that fault stopped the instruction. -/
@[simp] theorem finish_eq_fault (stop : Option Stop) (t : State) (f : Fault) :
    finish stop t = .fault f ↔ stop = some (.fault f) := by
  cases stop with
  | none => simp [finish]
  | some e => cases e <;> simp [finish, Stop.outcome]

/-- `finish` refuses exactly when that refusal stopped the instruction. -/
@[simp] theorem finish_eq_refused (stop : Option Stop) (t : State) (r : Refusal) :
    finish stop t = .refused r ↔ stop = some (.refuse r) := by
  cases stop with
  | none => simp [finish]
  | some e => cases e <;> simp [finish, Stop.outcome]

@[simp] theorem firstStop_eq_none (l : List (Bool × Stop)) :
    firstStop l = none ↔ ∀ e ∈ l, e.1 = false := by
  induction l with
  | nil => simp [firstStop]
  | cons e l ih =>
    obtain ⟨c, stop⟩ := e
    cases c <;> simp [firstStop, ih]

/-- What stops an instruction is one of the listed stops, its condition holding. -/
theorem firstStop_mem (l : List (Bool × Stop)) (e : Stop) (h : firstStop l = some e) :
    (true, e) ∈ l := by
  induction l with
  | nil => simp [firstStop] at h
  | cons x l ih =>
    obtain ⟨c, stop⟩ := x
    cases c
    · exact List.mem_cons_of_mem _ (ih (by simpa [firstStop] using h))
    · simp [firstStop] at h
      simp [h]

/-! ## The preambles -/

/-- A legacy form passes its preamble exactly under `LegacyReady`. -/
theorem legacyChecks_eq_none (h : Head) (s : State) :
    legacyChecks h s = none ↔ LegacyReady h s := by
  simp [legacyChecks, LegacyReady, and_assoc]

/-- A VEX form passes its preamble exactly under `VexReady`. -/
theorem vexChecks_eq_none (isMem : Bool) (h : Head) (p : Vex) (s : State) :
    vexChecks isMem h p s = none ↔ VexReady isMem h p s := by
  cases isMem <;> simp [vexChecks, VexReady, and_assoc]

/-- An EVEX form passes its preamble exactly under `EvexReady`. -/
theorem evexChecks_eq_none (isMem isStore : Bool) (h : Head) (p : Evex) (s : State) :
    evexChecks isMem isStore h p s = none ↔ EvexReady isMem isStore h p s := by
  cases isMem <;> cases isStore <;> simp [evexChecks, EvexReady, and_assoc]

/-- A preamble faults only with `#UD` or `#NM` of this instruction. -/
theorem legacyChecks_fault (h : Head) (s : State) (f : Fault)
    (hf : legacyChecks h s = some (.fault f)) :
    f = .invalidOpcode s.pc ∨ f = .deviceNotAvailable s.pc := by
  have := firstStop_mem _ _ hf
  simp only [State.ud, State.nm, List.mem_cons, Prod.mk.injEq, Stop.fault.injEq, reduceCtorEq,
    and_false, List.not_mem_nil, or_false, false_or] at this
  tauto

/-- A preamble faults only with `#UD` or `#NM` of this instruction. -/
theorem vexChecks_fault (isMem : Bool) (h : Head) (p : Vex) (s : State) (f : Fault)
    (hf : vexChecks isMem h p s = some (.fault f)) :
    f = .invalidOpcode s.pc ∨ f = .deviceNotAvailable s.pc := by
  have := firstStop_mem _ _ hf
  simp only [State.ud, State.nm, List.mem_cons, Prod.mk.injEq, Stop.fault.injEq, reduceCtorEq,
    and_false, List.not_mem_nil, or_false, false_or] at this
  tauto

/-- A preamble faults only with `#UD` or `#NM` of this instruction. -/
theorem evexChecks_fault (isMem isStore : Bool) (h : Head) (p : Evex) (s : State) (f : Fault)
    (hf : evexChecks isMem isStore h p s = some (.fault f)) :
    f = .invalidOpcode s.pc ∨ f = .deviceNotAvailable s.pc := by
  have := firstStop_mem _ _ hf
  simp only [State.ud, State.nm, List.mem_cons, Prod.mk.injEq, Stop.fault.injEq, reduceCtorEq,
    and_false, List.not_mem_nil, or_false, false_or] at this
  tauto

/-! ## Memory accesses -/

/-- A 4-byte access raises nothing exactly when `MemCheck` answers ok and it is not misaligned. -/
theorem accessFault_eq_none (s : State) (a : Word) (kind : AccessKind) (seg : Seg) :
    s.accessFault a kind seg = none ↔ s.memCheck a 4 kind seg = none ∧ s.misaligned a = false := by
  unfold State.accessFault
  split <;> simp_all

/-- A 4-byte access goes through exactly under `AccessOk`. -/
theorem accessStop_eq_none (s : State) (o : MemOperand) (kind : AccessKind) :
    s.accessStop o.addr kind o.seg = none ↔ AccessOk s o kind := by
  unfold State.accessStop AccessOk
  cases s.touchesDevice o.addr <;> simp [accessFault_eq_none]

/-- A masked-off access goes through under `ProbeOk`. -/
theorem probeStop_of_probeOk (s : State) (o : MemOperand) (kind : AccessKind) (h : ProbeOk s o kind) :
    s.probeStop o.addr kind o.seg = none := by
  rcases h with h | h
  · simp [State.probeStop, (accessFault_eq_none _ _ _ _).mpr h]
  · unfold State.probeStop
    rw [h]
    split <;> rfl

/-- A masked-off access leaves the state as it is where its check finds nothing. -/
theorem afterProbe_of_ok (s : State) (a : Word) (kind : AccessKind) (seg : Seg)
    (h : s.accessFault a kind seg = none) : s.afterProbe a kind seg = s := by
  simp [State.afterProbe, h]

/-- Where `FaultSuppression` is not `either`, a masked-off access leaves the state as it is. -/
theorem afterProbe_of_fixed (s : State) (a : Word) (kind : AccessKind) (seg : Seg)
    (h : s.cfg.faultSuppression ≠ .either) : s.afterProbe a kind seg = s := by
  unfold State.afterProbe
  split
  · rfl
  · simp [h]

theorem afterProbe_of_probeOk (s : State) (o : MemOperand) (kind : AccessKind) (h : ProbeOk s o kind) :
    s.afterProbe o.addr kind o.seg = s := by
  rcases h with h | h
  · exact afterProbe_of_ok _ _ _ _ ((accessFault_eq_none _ _ _ _).mpr h)
  · exact afterProbe_of_fixed _ _ _ _ (by simp [h])

/-- Every exception carries the address of its instruction. -/
theorem memCheck_pc (s : State) (a : Word) (n : Nat) (kind : AccessKind) (seg : Seg) (f : Fault)
    (h : s.memCheck a n kind seg = some f) : f.pc = s.pc := by
  unfold State.memCheck at h
  split at h
  · split at h
    · next e _ => cases hA : e.answer <;> simp [hA, answerFault] at h <;> subst h <;> rfl
    · simp at h
  · split at h <;> simp at h <;> subst h <;> rfl

theorem accessFault_pc (s : State) (a : Word) (kind : AccessKind) (seg : Seg) (f : Fault)
    (h : s.accessFault a kind seg = some f) : f.pc = s.pc := by
  unfold State.accessFault at h
  split at h
  · simp at h
  · simp at h; subst h; rfl
  · next hm _ => simp at h; subst h; exact memCheck_pc _ _ _ _ _ _ hm
  · next hm _ =>
    split at h <;> simp at h <;> subst h
    · rfl
    · exact memCheck_pc _ _ _ _ _ _ hm

/-- What stops an access is a device, or an exception that carries the address of its instruction. -/
theorem accessStop_cases (s : State) (a : Word) (kind : AccessKind) (seg : Seg) (e : Stop)
    (h : s.accessStop a kind seg = some e) :
    e = .refuse .deviceAccess ∨ ∃ f, e = .fault f ∧ s.accessFault a kind seg = some f := by
  unfold State.accessStop at h
  split at h
  · simp at h; exact .inl h.symm
  · simp at h
    obtain ⟨f, hf, rfl⟩ := h
    exact .inr ⟨f, rfl, hf⟩

theorem probeStop_cases (s : State) (a : Word) (kind : AccessKind) (seg : Seg) (e : Stop)
    (h : s.probeStop a kind seg = some e) :
    ∃ f, e = .fault f ∧ s.accessFault a kind seg = some f := by
  unfold State.probeStop at h
  split at h
  · simp at h
  · next f hf =>
    split at h
    · simp at h
    · simp at h; exact ⟨f, h.symm, hf⟩
    · split at h <;> simp at h
      exact ⟨f, h.symm, hf⟩

/-! ## The shared meanings -/

section
variable (stop : Option Stop) (p : Evex) (o : MemOperand) (d s1 s2 src : VReg) (n : Nat) (s u : State)

theorem moveLegacy_next :
    moveLegacy stop d src n s = .next u ↔ stop = none ∧ u = (s.mergeLow d src).advance n := by
  simp [moveLegacy]

theorem moveVex_next :
    moveVex stop d s1 s2 n s = .next u ↔
      stop = none ∧ u = (s.mergeZeroUpper d s1 (lowDword (s.readVec s2))).advance n := by
  simp [moveVex]

theorem moveEvex_next :
    moveEvex stop p d s1 s2 n s = .next u ↔
      stop = none ∧ u = (s.mergeZeroUpper d s1 (maskedLow (s.maskBit p) p.z
        (lowDword (s.readVec s2)) (lowDword (s.readVec d)))).advance n := by
  simp [moveEvex]

theorem loadLegacy_next :
    loadLegacy stop o d n s = .next u ↔
      (stop = none ∧ AccessOk s o .read) ∧ u = (s.loadKeepUpper d (s.read32 o.addr)).advance n := by
  simp [loadLegacy, accessStop_eq_none, Option.or_eq_none_iff]

theorem loadVex_next :
    loadVex stop o d n s = .next u ↔
      (stop = none ∧ AccessOk s o .read) ∧ u = (s.loadZeroUpper d (s.read32 o.addr)).advance n := by
  simp [loadVex, accessStop_eq_none, Option.or_eq_none_iff]

theorem storeLow_next :
    storeLow stop o src n s = .next u ↔
      (stop = none ∧ AccessOk s o .write) ∧
        u = (s.write32 o.addr (lowDword (s.readVec src))).advance n := by
  simp [storeLow, accessStop_eq_none, Option.or_eq_none_iff]

theorem loadEvex_next :
    loadEvex stop p o d n s = .next u ↔
      (s.maskBit p = true ∧ stop = none ∧ AccessOk s o .read ∧
        u = (s.loadZeroUpper d (s.read32 o.addr)).advance n) ∨
      (s.maskBit p = false ∧ stop = none ∧ s.probeStop o.addr .read o.seg = none ∧
        u = ((s.afterProbe o.addr .read o.seg).loadZeroUpper d
          (maskedLow false p.z 0#32 (lowDword (s.readVec d)))).advance n) := by
  unfold loadEvex
  cases s.maskBit p <;> simp [accessStop_eq_none, Option.or_eq_none_iff, and_assoc]

theorem storeEvex_next :
    storeEvex stop p o src n s = .next u ↔
      (s.maskBit p = true ∧ stop = none ∧ AccessOk s o .write ∧
        u = (s.write32 o.addr (lowDword (s.readVec src))).advance n) ∨
      (s.maskBit p = false ∧ stop = none ∧ s.probeStop o.addr .write o.seg = none ∧
        u = (s.afterProbe o.addr .write o.seg).advance n) := by
  unfold storeEvex
  cases s.maskBit p <;>
    simp [storeLow, accessStop_eq_none, Option.or_eq_none_iff, and_assoc]

end

/-! ## What a step can do -/

/-- The effects a form can have, each with the length it advances `pc` by: the one list from which every
claim about all instructions is derived. -/
inductive Effect (n : Nat) (s : State) : State → Prop where
  | mergeLow (d src : VReg) : d.toNat < 16 → Effect n s ((s.mergeLow d src).advance n)
  | loadKeepUpper (d : VReg) (t : DWord) : d.toNat < 16 → Effect n s ((s.loadKeepUpper d t).advance n)
  | mergeZeroUpper (d s1 : VReg) (t : DWord) : d.toNat < 16 ∨ s.cfg.features.avx512f = true →
      Effect n s ((s.mergeZeroUpper d s1 t).advance n)
  | loadZeroUpper (d : VReg) (t : DWord) : d.toNat < 16 ∨ s.cfg.features.avx512f = true →
      Effect n s ((s.loadZeroUpper d t).advance n)
  | loadMasked (o : MemOperand) (d : VReg) (t : DWord) : s.cfg.features.avx512f = true →
      Effect n s (((s.afterProbe o.addr .read o.seg).loadZeroUpper d t).advance n)
  | store (a : Word) (t : DWord) : Effect n s ((s.write32 a t).advance n)
  | storeMasked (o : MemOperand) : Effect n s ((s.afterProbe o.addr .write o.seg).advance n)

theorem vreg4_lt (hi : Bool) (lo : BitVec 3) : (vreg4 hi lo).toNat < 16 := by
  revert hi lo; decide

/-- Whatever instruction runs to a next state has one of the effects above. -/
theorem exec_effect (i : Instr) (s u : State) (h : exec i s = .next u) : Effect i.ilen s u := by
  cases i with
  | l10rr h' reg rm =>
    obtain ⟨-, rfl⟩ := (moveLegacy_next ..).mp h
    exact .mergeLow _ _ (vreg4_lt _ _)
  | l11rr h' reg rm =>
    obtain ⟨-, rfl⟩ := (moveLegacy_next ..).mp h
    exact .mergeLow _ _ (vreg4_lt _ _)
  | l10rm h' reg m =>
    obtain ⟨-, rfl⟩ := (loadLegacy_next ..).mp h
    exact .loadKeepUpper _ _ (vreg4_lt _ _)
  | l11mr h' reg m =>
    obtain ⟨-, rfl⟩ := (storeLow_next ..).mp h
    exact .store _ _
  | v10rr h' p reg rm =>
    obtain ⟨-, rfl⟩ := (moveVex_next ..).mp h
    exact .mergeZeroUpper _ _ _ (.inl (vreg4_lt _ _))
  | v11rr h' p reg rm =>
    obtain ⟨-, rfl⟩ := (moveVex_next ..).mp h
    exact .mergeZeroUpper _ _ _ (.inl (vreg4_lt _ _))
  | v10rm h' p reg m =>
    obtain ⟨-, rfl⟩ := (loadVex_next ..).mp h
    exact .loadZeroUpper _ _ (.inl (vreg4_lt _ _))
  | v11mr h' p reg m =>
    obtain ⟨-, rfl⟩ := (storeLow_next ..).mp h
    exact .store _ _
  | e10rr h' p reg rm =>
    obtain ⟨hc, rfl⟩ := (moveEvex_next ..).mp h
    exact .mergeZeroUpper _ _ _ (.inr ((evexChecks_eq_none ..).mp hc).2.2.2.2.2.2.2.1)
  | e11rr h' p reg rm =>
    obtain ⟨hc, rfl⟩ := (moveEvex_next ..).mp h
    exact .mergeZeroUpper _ _ _ (.inr ((evexChecks_eq_none ..).mp hc).2.2.2.2.2.2.2.1)
  | e10rm h' p reg m =>
    rcases (loadEvex_next ..).mp h with ⟨-, hc, -, rfl⟩ | ⟨-, hc, -, rfl⟩
    · exact .loadZeroUpper _ _ (.inr ((evexChecks_eq_none ..).mp hc).2.2.2.2.2.2.2.1)
    · exact .loadMasked _ _ _ ((evexChecks_eq_none ..).mp hc).2.2.2.2.2.2.2.1
  | e11mr h' p reg m =>
    rcases (storeEvex_next ..).mp h with ⟨-, -, -, rfl⟩ | ⟨-, -, -, rfl⟩
    · exact .store _ _
    · exact .storeMasked _

end Sys2Proof.Machine
end

