-- ==== Sys2Proof/Laws/Forms.lean ====
section
/-! SUPPORT. What the shared operations leave unchanged, in the frames of Safety.lean, and how a whole form
ends once its preamble has passed. -/

namespace Sys2Proof.Machine

/-- The mask bit a meaning tests is `MaskOn`. -/
theorem maskBit_iff_maskOn (p : Evex) (s : State) : s.maskBit p = true ↔ MaskOn p s := by
  unfold State.maskBit MaskOn; split <;> simp_all

/-- No effect touches the control state. -/
theorem Effect.keepsControl (n : Nat) (s t : State) (h : Effect n s t) : KeepsControl s t := by
  cases h <;> simp [KeepsControl, State.flagRegs]

/-- Each write of a vector register leaves the others. -/
theorem keepsVecsBut_mergeLow (s : State) (d a : VReg) :
    KeepsVecsBut d s (s.mergeLow d a) := fun _ h => readVec_writeVec_other _ _ h

theorem keepsVecsBut_mergeZeroUpper (s : State) (d a : VReg) (t) :
    KeepsVecsBut d s (s.mergeZeroUpper d a t) := fun _ h => readVec_writeVec_other _ _ h

theorem keepsVecsBut_loadKeepUpper (s : State) (d : VReg) (t) :
    KeepsVecsBut d s (s.loadKeepUpper d t) := fun _ h => readVec_writeVec_other _ _ h

theorem keepsVecsBut_loadZeroUpper (s : State) (d : VReg) (t) :
    KeepsVecsBut d s (s.loadZeroUpper d t) := fun _ h => readVec_writeVec_other _ _ h

theorem keepsVecsBut_advance (d : VReg) (s t : State) (n : Nat) (h : KeepsVecsBut d s t) :
    KeepsVecsBut d s (t.advance n) := by
  intro i hi; rw [readVec_advance]; exact h i hi

/-- A state with the same memory keeps every byte. -/
theorem keepsMem_of_eq (s t : State) (h : t.mem = s.mem) (h2 : t.stored = s.stored) :
    KeepsMem s t := by
  refine ⟨fun a => ?_, h2⟩; simp only [State.byteAt, h]

/-- A store leaves every vector register. -/
theorem keepsVecs_write32 (s : State) (a : Word) (d : DWord) (n : Nat) :
    KeepsVecs s ((s.write32 a d).advance n) := by
  intro i; rw [readVec_advance, readVec_write32]

/-- The four bytes a store leaves, lowest first. -/
theorem byteAt_stored (s : State) (a : Word) (d : Vec) (n : Nat) (k : Nat) (hk : k < 4) :
    ((s.write32 a (lowDword d)).advance n).byteAt (a + BitVec.ofNat 64 k) =
      d.extractLsb' (8 * k) 8 := by
  obtain ⟨h0, h1, h2, h3⟩ := byteAt_write32_bytes s a (lowDword d)
  have key : ∀ k < 4, (lowDword d).extractLsb' (8 * k) 8 = d.extractLsb' (8 * k) 8 := by
    intro k hk
    rw [lowDword, BitVec.extractLsb'_extractLsb'_of_le (by omega)]
  match k, hk with
  | 0, _ => rw [← key 0 (by decide), byteAt_advance, BitVec.add_zero]; exact h0
  | 1, _ => rw [← key 1 (by decide), byteAt_advance]; exact h1
  | 2, _ => rw [← key 2 (by decide), byteAt_advance]; exact h2
  | 3, _ => rw [← key 3 (by decide), byteAt_advance]; exact h3

/-- A store leaves every other byte. -/
theorem keepsMemBut_write32 (s : State) (a : Word) (d : DWord) (n : Nat) :
    KeepsMemBut a s ((s.write32 a d).advance n) := by
  intro b hb; rw [byteAt_advance]; exact byteAt_write32_other _ _ _ _ hb

/-- The prefixes that a VEX or EVEX prefix excludes (R66, R69). -/
theorem badForVex_iff (h : Head) : h.badForVex = true ↔
    (h.rex ≠ none ∨ .opSize ∈ h.pfx ∨ .repne ∈ h.pfx ∨ .rep ∈ h.pfx ∨ .lock ∈ h.pfx) := by
  cases hr : h.rex <;> simp [Head.badForVex, hr, or_assoc]

/-- At most one segment override and at most one `67` (R62), counted out. -/
theorem overridesAdmitted_eq_false (h : Head) : h.overridesAdmitted = false ↔
    1 < h.pfx.countP (· ∈ [.segCs, .segSs, .segDs, .segEs, .segFs, .segGs]) ∨
      1 < h.pfx.count .addrSize := by
  have e : isSegPfx = fun p => decide (p ∈ [.segCs, .segSs, .segDs, .segEs, .segFs, .segGs]) := by
    funext p
    cases p <;> rfl
  simp only [Head.overridesAdmitted, Head.count, ← List.countP_eq_length_filter, Bool.and_eq_false_iff,
    decide_eq_false_iff_not, not_le, e, List.count]

/-- What R62 admits before the opcode of a legacy form, counted out. -/
theorem legacyAdmitted_eq_false (h : Head) : h.legacyAdmitted = false ↔
    h.pfx.count .rep ≠ 1 ∨ .repne ∈ h.pfx ∨ .opSize ∈ h.pfx ∨
      1 < h.pfx.countP (· ∈ [.segCs, .segSs, .segDs, .segEs, .segFs, .segGs]) ∨
      1 < h.pfx.count .addrSize := by
  rw [← overridesAdmitted_eq_false]
  simp only [Head.legacyAdmitted, Head.count, ← List.countP_eq_length_filter, List.count,
    Bool.and_eq_false_iff, Bool.not_eq_false', List.contains_iff_mem, beq_eq_false_iff_ne, or_assoc]

/-- The three rows of R124. -/
theorem maskedLow_cases (p : Evex) (s : State) (a b : DWord) :
    (MaskOn p s → maskedLow (s.maskBit p) p.z a b = a) ∧
    (¬ MaskOn p s → p.z = false → maskedLow (s.maskBit p) p.z a b = b) ∧
    (¬ MaskOn p s → p.z = true → maskedLow (s.maskBit p) p.z a b = 0#32) := by
  refine ⟨fun h => ?_, fun h hz => ?_, fun h hz => ?_⟩ <;> rw [← maskBit_iff_maskOn] at h <;>
    simp [maskedLow, *]

/-- Every bit of the destination of an EVEX register move. -/
theorem maskedMove_bits (p : Evex) (s : State) (d s1 s2 : VReg) (j : Nat) (n : Nat) (v : Vec)
  (hv : v = ((s.mergeZeroUpper d s1 (maskedLow (s.maskBit p) p.z (lowDword (s.readVec s2))
    (lowDword (s.readVec d)))).advance n).readVec d) :
   (MaskOn p s → j < 32 → v.getLsbD j =
            (s.readVec s2).getLsbD j) ∧
          (¬ MaskOn p s → p.z = false → j < 32 → v.getLsbD j =
            (s.readVec d).getLsbD j) ∧
          (¬ MaskOn p s → p.z = true → j < 32 →
            v.getLsbD j = false) ∧
          (32 ≤ j → j < 128 → v.getLsbD j =
            (s.readVec s1).getLsbD j) ∧
          (128 ≤ j → v.getLsbD j = false) := by
  subst hv
  rw [readVec_advance, mergeZeroUpper_bits]
  obtain ⟨m1, m2, m3⟩ := maskedLow_cases p s (lowDword (s.readVec s2)) (lowDword (s.readVec d))
  refine ⟨fun h hj => ?_, fun h hz hj => ?_, fun h hz hj => ?_, fun h1 h2 => ?_, fun h => ?_⟩
  · rw [if_pos hj, m1 h, lowDword_getLsbD]; simp [hj]
  · rw [if_pos hj, m2 h hz, lowDword_getLsbD]; simp [hj]
  · rw [if_pos hj, m3 h hz]; simp
  · rw [if_neg (by omega), if_pos h2]
  · rw [if_neg (by omega), if_neg (by omega)]

/-- A step that completes fetched an instruction and ran it. -/
theorem step_next (s t : State) (h : step s = .next t) :
    ∃ i, s.fetch = .instr i ∧ exec i s = .next t := by
  unfold step at h
  split at h
  · simp at h
  · exact ⟨_, by assumption, h⟩

/-- A form that passes its preamble ends as its access does. -/
theorem exec_accessMade (i : Instr) (s : State) (o : MemOperand) (k : AccessKind)
    (hr : Ready i s) (hm : memOperand i s = some (o, k)) (ha : AccessMade i s) :
    ∃ t, exec i s = finish (s.accessStop o.addr k o.seg) t := by
  cases i <;> simp only [memOperand, Option.some.injEq, Prod.mk.injEq, reduceCtorEq] at hm <;>
    obtain ⟨rfl, rfl⟩ := hm
  · have := (legacyChecks_eq_none ..).mpr hr
    simp only [exec, execL10rm, loadLegacy, this, Option.none_or]; exact ⟨_, rfl⟩
  · have := (legacyChecks_eq_none ..).mpr hr
    simp only [exec, execL11mr, storeLow, this, Option.none_or]; exact ⟨_, rfl⟩
  · have := (vexChecks_eq_none ..).mpr hr
    simp only [exec, execV10rm, loadVex, this, Option.none_or]; exact ⟨_, rfl⟩
  · have := (vexChecks_eq_none ..).mpr hr
    simp only [exec, execV11mr, storeLow, this, Option.none_or]; exact ⟨_, rfl⟩
  · have := (evexChecks_eq_none ..).mpr hr
    have hb := (maskBit_iff_maskOn ..).mpr ha
    simp only [exec, execE10rm, loadEvex, this, Option.none_or, hb, if_true]; exact ⟨_, rfl⟩
  · have := (evexChecks_eq_none ..).mpr hr
    have hb := (maskBit_iff_maskOn ..).mpr ha
    simp only [exec, execE11mr, storeEvex, storeLow, this, Option.none_or, hb, if_true]
    exact ⟨_, rfl⟩

/-- A form whose access is masked off ends as the check of that access does, and writes no memory. -/
theorem exec_accessMasked (i : Instr) (s : State) (o : MemOperand) (k : AccessKind)
    (hr : Ready i s) (hm : memOperand i s = some (o, k)) (ha : ¬ AccessMade i s) :
    ∃ t, exec i s = finish (s.probeStop o.addr k o.seg) t ∧
      t.choices = (s.afterProbe o.addr k o.seg).choices ∧ t.mem = s.mem ∧ t.stored = s.stored := by
  cases i <;> simp only [AccessMade, not_true_eq_false] at ha <;>
    simp only [memOperand, Option.some.injEq, Prod.mk.injEq] at hm <;>
    obtain ⟨rfl, rfl⟩ := hm
  · have := (evexChecks_eq_none ..).mpr hr
    rw [← maskBit_iff_maskOn] at ha
    have hb := Bool.eq_false_iff.mpr ha
    simp only [exec, execE10rm, loadEvex, this, Option.none_or, hb, Bool.false_eq_true, if_false]
    exact ⟨_, rfl, by simp, by simp, by simp⟩
  · have := (evexChecks_eq_none ..).mpr hr
    rw [← maskBit_iff_maskOn] at ha
    have hb := Bool.eq_false_iff.mpr ha
    simp only [exec, execE11mr, storeEvex, storeLow, this, Option.none_or, hb,
      Bool.false_eq_true, if_false]
    exact ⟨_, rfl, by simp, by simp, by simp⟩

/-- What is known of an instruction that is fetched. -/
theorem fetch_instr (s : State) (i : Instr) (h : s.fetch = .instr i) :
    s.cfg.mode = .long64 ∧
      (∃ rest, decode (s.bytesFrom s.pc s.fetchWindow) = .instr i rest) ∧
      s.fetchInRange i.ilen = true ∧ s.codeAdmitted i.ilen = true ∧ s.codeModified i.ilen = false := by
  unfold State.fetch at h
  repeat' split at h
  all_goals simp_all

end Sys2Proof.Machine
end

