-- ==== Sys2Proof/Laws/Fetch.lean ====
section
/-! SUPPORT. The decoder's answer does not depend on how many bytes it is given, once it has enough, and
the bytes the fetch looks at are enough: the fetch decodes whatever any number of bytes at `pc` decodes to. -/

namespace Sys2Proof

/-! ## More bytes change nothing -/

theorem takeDisp32_append (bs x r : List Byte) (d : BitVec 32) (h : takeDisp32 bs = some (d, r)) :
    takeDisp32 (bs ++ x) = some (d, r ++ x) := by
  match bs, h with
  | b0 :: b1 :: b2 :: b3 :: bs, h =>
    simp only [takeDisp32, Option.some.injEq, Prod.mk.injEq] at h
    obtain ⟨rfl, rfl⟩ := h
    rfl

theorem takeDisp_append (mod : BitVec 2) (bs x r : List Byte) (d : Disp)
    (h : takeDisp mod bs = some (d, r)) : takeDisp mod (bs ++ x) = some (d, r ++ x) := by
  unfold takeDisp at h ⊢
  split_ifs at h ⊢
  · simp only [Option.some.injEq, Prod.mk.injEq] at h
    obtain ⟨rfl, rfl⟩ := h
    rfl
  · cases bs with
    | nil => simp at h
    | cons c bs =>
      simp only [Option.some.injEq, Prod.mk.injEq] at h
      obtain ⟨rfl, rfl⟩ := h
      rfl
  · simp only [Option.map_eq_some_iff, Prod.mk.injEq] at h ⊢
    obtain ⟨a, h, rfl, rfl⟩ := h
    exact ⟨(a.1, a.2 ++ x), takeDisp32_append _ _ _ _ h, rfl, rfl⟩

theorem takeMem_append (mod : BitVec 2) (rm : BitVec 3) (bs x r : List Byte) (m : MemForm)
    (h : takeMem mod rm bs = some (m, r)) : takeMem mod rm (bs ++ x) = some (m, r ++ x) := by
  unfold takeMem at h ⊢
  split_ifs at h ⊢
  · cases bs with
    | nil => simp [takeSib] at h
    | cons c bs =>
      simp only [takeSib, List.cons_append] at h ⊢
      split_ifs at h ⊢
      all_goals
        simp only [Option.map_eq_some_iff, Prod.mk.injEq] at h ⊢
        obtain ⟨a, h, rfl, rfl⟩ := h
      · exact ⟨(a.1, a.2 ++ x), takeDisp32_append _ _ _ _ h, rfl, rfl⟩
      · exact ⟨(a.1, a.2 ++ x), takeDisp_append _ _ _ _ _ h, rfl, rfl⟩
  all_goals
    simp only [Option.map_eq_some_iff, Prod.mk.injEq] at h ⊢
    obtain ⟨a, h, rfl, rfl⟩ := h
  · exact ⟨(a.1, a.2 ++ x), takeDisp32_append _ _ _ _ h, rfl, rfl⟩
  · exact ⟨(a.1, a.2 ++ x), takeDisp_append _ _ _ _ _ h, rfl, rfl⟩

theorem takeModRM_append (bs x r : List Byte) (reg : BitVec 3) (o : RegMem)
    (h : takeModRM bs = some (reg, o, r)) : takeModRM (bs ++ x) = some (reg, o, r ++ x) := by
  cases bs with
  | nil => simp [takeModRM] at h
  | cons c bs =>
    simp only [takeModRM, List.cons_append] at h ⊢
    split_ifs at h ⊢
    · simp only [Option.some.injEq, Prod.mk.injEq] at h
      obtain ⟨rfl, rfl, rfl⟩ := h
      rfl
    · simp only [Option.map_eq_some_iff, Prod.mk.injEq] at h ⊢
      obtain ⟨a, h, rfl, rfl, rfl⟩ := h
      exact ⟨(a.1, a.2 ++ x), takeMem_append _ _ _ _ _ _ h, rfl, rfl, rfl⟩

/-- What becomes of an answer when `x` is appended to the bytes. -/
def Decoded.extend (x : List Byte) : Decoded → Decoded
  | .instr i rest => .instr i (rest ++ x)
  | .notMovss => .notMovss
  | .truncated => .truncated

theorem decodeOp_append (form : Byte → BitVec 3 → RegMem → Instr) (bs x : List Byte)
    (h : decodeOp form bs ≠ .truncated) :
    decodeOp form (bs ++ x) = (decodeOp form bs).extend x := by
  cases bs with
  | nil => simp [decodeOp] at h
  | cons op bs =>
    simp only [decodeOp, List.cons_append] at h ⊢
    split_ifs at h ⊢
    · rfl
    · cases ho : takeModRM bs with
      | none => simp [ho] at h
      | some a =>
        obtain ⟨reg, o, r⟩ := a
        rw [takeModRM_append _ _ _ _ _ ho]
        rfl

theorem decodeClass_append (hd : Head) (bs x : List Byte) (h : decodeClass hd bs ≠ .truncated) :
    decodeClass hd (bs ++ x) = (decodeClass hd bs).extend x := by
  cases bs with
  | nil => simp [decodeClass] at h
  | cons c bs =>
    simp only [decodeClass, List.cons_append] at h ⊢
    split_ifs at h ⊢
    · unfold decodeLegacy at h ⊢
      split_ifs at h ⊢
      · exact decodeOp_append _ _ _ h
      · rfl
    · match bs, h with
      | c1 :: bs, h =>
        simp only [decodeVex2, List.cons_append] at h ⊢
        split_ifs at h ⊢
        · exact decodeOp_append _ _ _ h
        · rfl
    · match bs, h with
      | b1 :: b2 :: bs, h =>
        simp only [decodeVex3, List.cons_append] at h ⊢
        split_ifs at h ⊢
        · exact decodeOp_append _ _ _ h
        · rfl
    · match bs, h with
      | p0 :: p1 :: p2 :: bs, h =>
        simp only [decodeEvex, List.cons_append] at h ⊢
        split_ifs at h ⊢
        · exact decodeOp_append _ _ _ h
        · rfl
    · rfl

/-- The prefix bytes are the same where they came to an end within the bytes. -/
theorem takePfx_append (bs x : List Byte) (h : (takePfx bs).2 ≠ []) :
    takePfx (bs ++ x) = ((takePfx bs).1, (takePfx bs).2 ++ x) := by
  induction bs with
  | nil => simp [takePfx] at h
  | cons c bs ih =>
    simp only [takePfx, List.cons_append] at h ⊢
    split <;> simp_all

theorem takeRex_append (bs x : List Byte) (h : bs ≠ []) :
    takeRex (bs ++ x) = ((takeRex bs).1, (takeRex bs).2 ++ x) := by
  cases bs with
  | nil => simp at h
  | cons c bs =>
    simp only [takeRex, List.cons_append]
    split <;> rfl

/-- Where the prefix bytes fill the string, it is too short. -/
theorem decode_of_takePfx_nil (bs : List Byte) (h : (takePfx bs).2 = []) : decode bs = .truncated := by
  unfold decode
  rw [h]
  rfl

/-- Appending bytes to a string that was long enough changes the rest alone. -/
theorem decode_append (bs x : List Byte) (h : decode bs ≠ .truncated) :
    decode (bs ++ x) = (decode bs).extend x := by
  have hp : (takePfx bs).2 ≠ [] := fun e => h (decode_of_takePfx_nil _ e)
  unfold decode at h ⊢
  rw [takePfx_append _ _ hp]
  simp only []
  rw [takeRex_append _ _ hp]
  exact decodeClass_append _ _ _ h

/-! ## How many bytes are enough -/

theorem takeDisp32_isSome (bs : List Byte) (h : 4 ≤ bs.length) : (takeDisp32 bs).isSome = true := by
  match bs, h with
  | _ :: _ :: _ :: _ :: _, _ => rfl

theorem takeDisp_isSome (mod : BitVec 2) (bs : List Byte) (h : 4 ≤ bs.length) :
    (takeDisp mod bs).isSome = true := by
  unfold takeDisp
  split_ifs
  · rfl
  · match bs, h with
    | _ :: _, _ => rfl
  · simpa using takeDisp32_isSome bs h

theorem takeMem_isSome (mod : BitVec 2) (rm : BitVec 3) (bs : List Byte) (h : 5 ≤ bs.length) :
    (takeMem mod rm bs).isSome = true := by
  unfold takeMem
  split_ifs
  · match bs, h with
    | c :: bs, h =>
      simp only [List.length_cons] at h
      simp only [takeSib]
      split_ifs
      · simpa using takeDisp32_isSome bs (by omega)
      · simpa using takeDisp_isSome mod bs (by omega)
  · simpa using takeDisp32_isSome bs (by omega)
  · simpa using takeDisp_isSome mod bs (by omega)

theorem decodeOp_enough (form : Byte → BitVec 3 → RegMem → Instr) (bs : List Byte)
    (h : 7 ≤ bs.length) : decodeOp form bs ≠ .truncated := by
  match bs, h with
  | op :: c :: bs, h =>
    simp only [List.length_cons] at h
    simp only [decodeOp, takeModRM]
    have hm := takeMem_isSome (c.extractLsb' 6 2) (c.extractLsb' 0 3) bs (by omega)
    split_ifs
    · simp
    · simp
    · obtain ⟨a, ha⟩ := Option.isSome_iff_exists.mp hm
      simp [ha]

theorem decodeClass_enough (hd : Head) (bs : List Byte) (h : 11 ≤ bs.length) :
    decodeClass hd bs ≠ .truncated := by
  match bs, h with
  | c :: b1 :: b2 :: b3 :: bs, h =>
    simp only [List.length_cons] at h
    simp only [decodeClass, decodeLegacy, decodeVex2, decodeVex3, decodeEvex]
    split_ifs
    all_goals first
      | (apply decodeOp_enough; (try simp only [List.length_cons]); omega)
      | simp

/-- `tailLen` bytes after the prefix bytes are enough. -/
theorem decode_enough (bs : List Byte) (h : tailLen ≤ (takePfx bs).2.length) : decode bs ≠ .truncated := by
  apply decodeClass_enough
  simp only [tailLen] at h
  cases hb : (takePfx bs).2 with
  | nil => simp [hb] at h
  | cons c r =>
    simp only [hb, List.length_cons] at h
    simp only [takeRex]
    split
    · simp only; omega
    · simp only [List.length_cons]; omega

/-- Every byte taken as a prefix byte is other than 0. -/
theorem takePfx_ne_zero (bs : List Byte) (k : Nat) (hk : k < (takePfx bs).1.length) :
    bs[k]? ≠ some 0#8 := by
  induction bs generalizing k with
  | nil => simp [takePfx] at hk
  | cons c bs ih =>
    simp only [takePfx] at hk
    split at hk
    · next p hp =>
      cases k with
      | zero =>
        simp only [List.getElem?_cons_zero, ne_eq, Option.some.injEq]
        rintro rfl
        simp [Pfx.ofByte] at hp
      | succ k =>
        simp only [List.getElem?_cons_succ]
        exact ih k (by simpa using hk)
    · simp at hk

/-- The byte after the prefix bytes is none. -/
theorem takePfx_next (bs : List Byte) (h : (takePfx bs).2 ≠ []) :
    bs[(takePfx bs).1.length]? ≠ none ∧
      ∀ c, bs[(takePfx bs).1.length]? = some c → Pfx.ofByte c = none := by
  induction bs with
  | nil => simp [takePfx] at h
  | cons c bs ih =>
    simp only [takePfx] at h ⊢
    split
    · next p hp => simpa using ih (by simpa [hp] using h)
    · next hp => simpa using hp

theorem takePfx_isPfx (bs : List Byte) (k : Nat) (hk : k < (takePfx bs).1.length) (c : Byte)
    (hc : bs[k]? = some c) : Pfx.ofByte c ≠ none := by
  induction bs generalizing k with
  | nil => simp [takePfx] at hk
  | cons a bs ih =>
    simp only [takePfx] at hk
    split at hk
    · next p hp =>
      cases k with
      | zero => simp at hc; subst hc; simp [hp]
      | succ k => exact ih k (by simpa using hk) (by simpa using hc)
    · simp at hk

theorem takePfx_length (bs : List Byte) :
    (takePfx bs).1.length + (takePfx bs).2.length = bs.length := by
  have := congrArg List.length (takePfx_restores bs)
  simpa using this

end Sys2Proof

namespace Sys2Proof.Machine

/-! ## The bytes the fetch looks at -/

@[simp] theorem bytesFrom_length (s : State) (a : Word) (n : Nat) : (s.bytesFrom a n).length = n := by
  simp [State.bytesFrom, accessBytes]

theorem bytesFrom_getElem? (s : State) (a : Word) (n k : Nat) (hk : k < n) :
    (s.bytesFrom a n)[k]? = some (s.byteAt (a + BitVec.ofNat 64 k)) := by
  simp [State.bytesFrom, accessBytes, hk]

/-- More bytes begin with fewer. -/
theorem bytesFrom_add (s : State) (a : Word) (m n : Nat) :
    s.bytesFrom a (m + n) = s.bytesFrom a m ++ s.bytesFrom (a + BitVec.ofNat 64 m) n := by
  simp only [State.bytesFrom, accessBytes, List.range_add, List.map_append, List.map_map]
  congr 1
  apply List.map_congr_left
  intro k _
  simp [BitVec.ofNat_add, BitVec.add_assoc]

/-- A byte that is not 0 is listed. -/
theorem memory_read_ne_zero (m : Memory) (a : Nat) (h : m.read a ≠ 0#8) : a ∈ m.map (·.1) := by
  induction m with
  | nil => simp [Memory.read] at h
  | cons e m ih =>
    simp only [Memory.read] at h
    split at h
    · next he => simp [he]
    · simp [ih h]

/-- Prefix bytes that come to an end are no more than the bytes memory lists. -/
theorem takePfx_le_listed (s : State) (a : Word) (n : Nat) (h : (takePfx (s.bytesFrom a n)).2 ≠ []) :
    (takePfx (s.bytesFrom a n)).1.length ≤ s.mem.length := by
  have hlen := takePfx_length (s.bytesFrom a n)
  rw [bytesFrom_length] at hlen
  have hpos : 0 < (takePfx (s.bytesFrom a n)).2.length := List.length_pos_iff.mpr h
  obtain ⟨-, hnext⟩ := takePfx_next _ h
  have hisp := takePfx_isPfx (s.bytesFrom a n)
  have hnz := takePfx_ne_zero (s.bytesFrom a n)
  generalize (takePfx (s.bytesFrom a n)).1.length = l at *
  have hsmall : l < 2 ^ 64 := by
    by_contra hc
    have e : BitVec.ofNat 64 l = BitVec.ofNat 64 (l - 2 ^ 64) := by
      apply BitVec.eq_of_toNat_eq
      simp only [BitVec.toNat_ofNat]
      omega
    have h1 := hnext _ (bytesFrom_getElem? s a n l (by omega))
    rw [e] at h1
    exact hisp (l - 2 ^ 64) (by omega) _ (bytesFrom_getElem? s a n _ (by omega)) h1
  have hnd : ((List.range l).map fun k => (a + BitVec.ofNat 64 k).toNat).Nodup := by
    apply List.Nodup.map_on _ List.nodup_range
    intro i hi j hj hij
    simp only [List.mem_range] at hi hj
    have := BitVec.eq_of_toNat_eq hij
    have := congrArg BitVec.toNat (BitVec.add_right_inj a |>.mp this)
    simp only [BitVec.toNat_ofNat] at this
    omega
  have hsub : ((List.range l).map fun k => (a + BitVec.ofNat 64 k).toNat) ⊆ s.mem.map (·.1) := by
    intro x hx
    simp only [List.mem_map, List.mem_range] at hx
    obtain ⟨k, hk, rfl⟩ := hx
    apply memory_read_ne_zero
    have := hnz k hk
    rw [bytesFrom_getElem? s a n k (by omega)] at this
    simpa [State.byteAt] using this
  simpa using (hnd.subperm hsub).length_le

/-- Whatever `n` bytes at `pc` decode to, unless they are too few, the fetch decodes to as well. -/
theorem decode_fetchWindow (s : State) (n : Nat) (h : decode (s.bytesFrom s.pc n) ≠ .truncated) :
    (∀ i rest, decode (s.bytesFrom s.pc n) = .instr i rest →
      ∃ rest', decode (s.bytesFrom s.pc s.fetchWindow) = .instr i rest') ∧
    (decode (s.bytesFrom s.pc n) = .notMovss →
      decode (s.bytesFrom s.pc s.fetchWindow) = .notMovss) := by
  have hp : (takePfx (s.bytesFrom s.pc n)).2 ≠ [] := fun e => h (decode_of_takePfx_nil _ e)
  have hle := takePfx_le_listed s s.pc n hp
  rcases Nat.le_total n s.fetchWindow with hn | hn
  · obtain ⟨m, hm⟩ := Nat.exists_eq_add_of_le hn
    rw [hm, bytesFrom_add, decode_append _ _ h]
    refine ⟨fun i rest e => ⟨_, by rw [e]; rfl⟩, fun e => by rw [e]; rfl⟩
  · obtain ⟨m, hm⟩ := Nat.exists_eq_add_of_le hn
    have hw : decode (s.bytesFrom s.pc s.fetchWindow) ≠ .truncated := by
      have hlen := takePfx_length (s.bytesFrom s.pc s.fetchWindow)
      rw [bytesFrom_length] at hlen
      apply decode_enough
      have hp' : (takePfx (s.bytesFrom s.pc s.fetchWindow)).2 ≠ [] := by
        intro e
        rw [e, List.length_nil, Nat.add_zero] at hlen
        have := takePfx_isPfx (s.bytesFrom s.pc s.fetchWindow)
          (takePfx (s.bytesFrom s.pc n)).1.length (by rw [hlen]; simp only [State.fetchWindow, tailLen]; omega)
        rw [bytesFrom_getElem? _ _ _ _ (by simp only [State.fetchWindow, tailLen]; omega)] at this
        have hlen' := takePfx_length (s.bytesFrom s.pc n)
        rw [bytesFrom_length] at hlen'
        have hpos : 0 < (takePfx (s.bytesFrom s.pc n)).2.length := List.length_pos_iff.mpr hp
        have h2 := (takePfx_next _ hp).2
        rw [bytesFrom_getElem? _ _ _ _ (by omega)] at h2
        exact this _ rfl (h2 _ rfl)
      have := takePfx_le_listed s s.pc _ hp'
      simp only [State.fetchWindow] at hlen this ⊢
      omega
    rw [hm, bytesFrom_add, decode_append _ _ hw]
    cases hd : decode (s.bytesFrom s.pc s.fetchWindow) with
    | instr i r =>
      simp only [Decoded.extend, Decoded.instr.injEq, reduceCtorEq, false_imp_iff, and_true]
      rintro j rest ⟨rfl, -⟩
      exact ⟨r, rfl, rfl⟩
    | notMovss => simp [Decoded.extend]
    | truncated => exact absurd hd hw

/-- The fetch of bytes that decode to an instruction. -/
theorem fetch_of_decode (s : State) (i : Instr) (n : Nat) (rest : List Byte)
    (hm : s.cfg.mode = .long64) (hd : decode (s.bytesFrom s.pc n) = .instr i rest) :
    s.fetch =
      if !s.fetchInRange i.ilen then .refuse .fetchOutOfRange
      else if !s.codeAdmitted i.ilen then .refuse .fetchNotAdmitted
      else if s.codeModified i.ilen then .refuse .selfModifyingCode
      else .instr i := by
  obtain ⟨r, hr⟩ := (decode_fetchWindow s n (by simp [hd])).1 i rest hd
  simp only [State.fetch, hm, ne_eq, not_true_eq_false, if_false, hr]

end Sys2Proof.Machine
end

