-- ==== Sys2Proof/Laws/PerInstr.lean ====
section
/-! SUPPORT. Per instruction: the length rule R78 counts exactly the bytes of the encoding (R61, R90). -/

namespace Sys2Proof.Laws.Length

/-- `ilen` (R78) is the number of bytes the encoder writes. -/
def Statement (i : Instr) : Prop :=
  i.ilen = (encode i).length

theorem disp_size (d : Disp) : d.encode.length = d.size := by
  cases d <;> rfl

theorem mem_size (reg : BitVec 3) (m : MemForm) : (m.encode reg).length = 1 + m.size := by
  cases m <;> simp [MemForm.encode, MemForm.size, encodeDisp32, disp_size] <;> omega

theorem head_size (h : Head) : h.encode.length = h.size := by
  obtain ⟨ps, rex⟩ := h
  cases rex <;> simp [Head.encode, Head.size]

theorem vex_size (p : Vex) : p.encode.length = p.size := by
  unfold Vex.encode Vex.size
  split <;> rfl

theorem evex_size (p : Evex) : p.encode.length = 4 := rfl

theorem l10rr (h : Head) (reg : BitVec 3) (rm : BitVec 3) : Statement (.l10rr h reg rm) := by
  simp [Statement, Instr.ilen, encode, head_size]

theorem l10rm (h : Head) (reg : BitVec 3) (m : MemForm) : Statement (.l10rm h reg m) := by
  simp [Statement, Instr.ilen, encode, head_size, mem_size]
  omega

theorem l11mr (h : Head) (reg : BitVec 3) (m : MemForm) : Statement (.l11mr h reg m) := by
  simp [Statement, Instr.ilen, encode, head_size, mem_size]
  omega

theorem l11rr (h : Head) (reg : BitVec 3) (rm : BitVec 3) : Statement (.l11rr h reg rm) := by
  simp [Statement, Instr.ilen, encode, head_size]

theorem v10rr (h : Head) (p : Vex) (reg : BitVec 3) (rm : BitVec 3) : Statement (.v10rr h p reg rm) := by
  simp [Statement, Instr.ilen, encode, head_size, vex_size]
  omega

theorem v10rm (h : Head) (p : Vex) (reg : BitVec 3) (m : MemForm) : Statement (.v10rm h p reg m) := by
  simp [Statement, Instr.ilen, encode, head_size, vex_size, mem_size]
  omega

theorem v11rr (h : Head) (p : Vex) (reg : BitVec 3) (rm : BitVec 3) : Statement (.v11rr h p reg rm) := by
  simp [Statement, Instr.ilen, encode, head_size, vex_size]
  omega

theorem v11mr (h : Head) (p : Vex) (reg : BitVec 3) (m : MemForm) : Statement (.v11mr h p reg m) := by
  simp [Statement, Instr.ilen, encode, head_size, vex_size, mem_size]
  omega

theorem e10rr (h : Head) (p : Evex) (reg : BitVec 3) (rm : BitVec 3) : Statement (.e10rr h p reg rm) := by
  simp [Statement, Instr.ilen, encode, head_size, evex_size]

theorem e10rm (h : Head) (p : Evex) (reg : BitVec 3) (m : MemForm) : Statement (.e10rm h p reg m) := by
  simp [Statement, Instr.ilen, encode, head_size, evex_size, mem_size]
  omega

theorem e11rr (h : Head) (p : Evex) (reg : BitVec 3) (rm : BitVec 3) : Statement (.e11rr h p reg rm) := by
  simp [Statement, Instr.ilen, encode, head_size, evex_size]

theorem e11mr (h : Head) (p : Evex) (reg : BitVec 3) (m : MemForm) : Statement (.e11mr h p reg m) := by
  simp [Statement, Instr.ilen, encode, head_size, evex_size, mem_size]
  omega

end Sys2Proof.Laws.Length
end

