-- ==== Sys2Proof/Laws/Program.lean ====
section
/-! SUPPORT. Runs of steps: what they keep, how `runTo` follows them, and what the refusal of a form
depends on. -/

namespace Sys2Proof.Machine

/-! ## Steps in sequence -/

/-- The last step of a run. -/
theorem runsUntil_last (stop : Word) (n : Nat) (s u : State) (h : RunsUntil stop (n + 1) s u) :
    ∃ t, RunsUntil stop n s t ∧ t.pc ≠ stop ∧ step t = .next u := by
  induction n generalizing s with
  | zero =>
    cases h with
    | step _ _ t _ hp hs hr =>
      cases hr
      exact ⟨s, .done s, hp, hs⟩
  | succ n ih =>
    cases h with
    | step _ _ t _ hp hs hr =>
      obtain ⟨v, hv, hvp, hvs⟩ := ih t hr
      exact ⟨v, .step _ _ _ _ hp hs hv, hvp, hvs⟩

/-- A run until some address is a run. -/
theorem RunsUntil.runs (stop : Word) (n : Nat) (s t : State) (h : RunsUntil stop n s t) :
    Runs n s t := by
  induction h with
  | done s => exact .done s
  | step n s t u _ hs _ ih => exact .step n s t u hs ih

/-- `runTo` follows the steps of a run. -/
theorem runTo_of_runsUntil (stop : Word) (n k : Nat) (s t : State) (h : RunsUntil stop n s t) :
    s.runTo stop (n + k) = t.runTo stop k := by
  induction h with
  | done s => simp
  | step n s t u hp hs _ ih =>
    rw [Nat.add_right_comm, State.runTo, if_neg hp, hs]
    exact ih

/-- A final state is at the end, and steps lead to it. -/
theorem runTo_final (stop : Word) (n : Nat) (s t : State) (h : s.runTo stop n = .final t) :
    t.pc = stop ∧ ∃ m ≤ n, RunsUntil stop m s t := by
  induction n generalizing s with
  | zero =>
    simp only [State.runTo] at h
    split_ifs at h with hp
    cases h
    exact ⟨hp, 0, Nat.le_refl _, .done _⟩
  | succ n ih =>
    simp only [State.runTo] at h
    split_ifs at h with hp
    · cases h
      exact ⟨hp, 0, Nat.zero_le _, .done _⟩
    · cases hs : step s with
      | next u =>
        rw [hs] at h
        obtain ⟨he, m, hm, hr⟩ := ih u h
        exact ⟨he, m + 1, by omega, .step _ _ _ _ hp hs hr⟩
      | fault f => simp [hs] at h
      | refused r => simp [hs] at h

/-- A fault is raised by the state that steps lead to, which is not at the end. -/
theorem runTo_faulted (stop : Word) (n : Nat) (s t : State) (f : Fault)
    (h : s.runTo stop n = .faulted f t) :
    t.pc ≠ stop ∧ step t = .fault f ∧ ∃ m < n, RunsUntil stop m s t := by
  induction n generalizing s with
  | zero =>
    simp only [State.runTo] at h
    split_ifs at h
  | succ n ih =>
    simp only [State.runTo] at h
    split_ifs at h with hp
    cases hs : step s with
    | next u =>
      rw [hs] at h
      obtain ⟨he, hf, m, hm, hr⟩ := ih u h
      exact ⟨he, hf, m + 1, by omega, .step _ _ _ _ hp hs hr⟩
    | fault g =>
      simp only [hs, RunEnd.faulted.injEq] at h
      obtain ⟨rfl, rfl⟩ := h
      exact ⟨hp, hs, 0, Nat.succ_pos _, .done _⟩
    | refused r => simp [hs] at h

/-! ## What steps keep -/

/-- What a completed instruction leaves of a byte that does not count as stored after it. -/
theorem exec_byteAt (i : Instr) (s t : State) (a : Word) (h : exec i s = .next t)
    (ha : a.toNat ∉ t.stored) : t.byteAt a = s.byteAt a ∧ a.toNat ∉ s.stored := by
  cases exec_effect _ _ _ h
  case store b d =>
    simp only [advance_stored, write32_mem_stored, not_or] at ha
    refine ⟨?_, ha.2⟩
    rw [byteAt_advance]
    exact byteAt_write32_other _ _ _ _ fun hb => ha.1 ⟨a, hb, rfl⟩
  all_goals
    refine ⟨by simp [State.mergeLow, State.loadKeepUpper, State.mergeZeroUpper, State.loadZeroUpper], ?_⟩
    simpa [State.mergeLow, State.loadKeepUpper, State.mergeZeroUpper, State.loadZeroUpper] using ha

/-- A completed instruction moves `pc` by its length. -/
theorem exec_pc (i : Instr) (s t : State) (h : exec i s = .next t) :
    t.pc = s.pc + BitVec.ofNat 64 i.ilen := by
  cases exec_effect _ _ _ h <;> simp [State.advance]

/-- A byte that does not count as stored at the end of a run is as it was at its start. -/
theorem runs_byteAt (n : Nat) (s t : State) (a : Word) (h : Runs n s t) (ha : a.toNat ∉ t.stored) :
    t.byteAt a = s.byteAt a ∧ a.toNat ∉ s.stored := by
  induction h with
  | done s => exact ⟨rfl, ha⟩
  | step n s t u hs _ ih =>
    obtain ⟨h1, h2⟩ := ih ha
    obtain ⟨i, -, he⟩ := step_next _ _ hs
    obtain ⟨h3, h4⟩ := exec_byteAt _ _ _ _ he h2
    exact ⟨h1.trans h3, h4⟩

theorem runs_cfg (n : Nat) (s t : State) (h : Runs n s t) : t.cfg = s.cfg := by
  induction h with
  | done s => rfl
  | step n s t u hs _ ih =>
    obtain ⟨i, -, he⟩ := step_next _ _ hs
    exact ih.trans (Effect.keepsControl _ _ _ (exec_effect _ _ _ he)).2.2.2.2.2

/-- Every form has bytes. -/
theorem ilen_pos (i : Instr) : 0 < i.ilen := by
  cases i <;> simp only [Instr.ilen] <;> omega

/-- A step moves `pc` up by the length of the instruction it fetched, without wrapping. -/
theorem step_pc (s t : State) (h : step s = .next t) :
    ∃ i, s.fetch = .instr i ∧ t.pc.toNat = s.pc.toNat + i.ilen := by
  obtain ⟨i, hf, he⟩ := step_next _ _ h
  have hr := (fetch_instr _ _ hf).2.2.1
  simp only [State.fetchInRange, Bool.and_eq_true, decide_eq_true_eq] at hr
  refine ⟨i, hf, ?_⟩
  rw [exec_pc _ _ _ he, BitVec.toNat_add, BitVec.toNat_ofNat]
  omega

/-- `n` steps move `pc` up by `n` bytes at least. -/
theorem runs_pc_le (n : Nat) (s t : State) (h : Runs n s t) : s.pc.toNat + n ≤ t.pc.toNat := by
  induction h with
  | done s => simp
  | step n s t u hs _ ih =>
    obtain ⟨i, -, hp⟩ := step_pc _ _ hs
    have := ilen_pos i
    omega

/-! ## The refusal of a form -/

@[simp] theorem Stop.refusal?_fault (f : Fault) : (Stop.fault f).refusal? = none := rfl

@[simp] theorem Stop.refusal?_refuse (r : Refusal) : (Stop.refuse r).refusal? = some r := rfl

/-- The refusal of a list of conditions whose first holds or not. -/
theorem firstStop_refusal_cons (c : Bool) (e : Stop) (l : List (Bool × Stop)) :
    (firstStop ((c, e) :: l)).bind Stop.refusal? =
      if c then e.refusal? else (firstStop l).bind Stop.refusal? := by
  cases c <;> rfl

/-- Conditions that only raise exceptions refuse nothing. -/
theorem firstStop_refusal_none (l : List (Bool × Stop)) (h : l.all (fun p => p.2.refusal?.isNone)) :
    (firstStop l).bind Stop.refusal? = none := by
  induction l with
  | nil => rfl
  | cons p l ih =>
    simp only [List.all_cons, Bool.and_eq_true, Option.isNone_iff_eq_none] at h
    rw [firstStop_refusal_cons, h.1, ih h.2, ite_self]

/-- The refusals of the legacy preamble. -/
theorem legacyChecks_refusal (h : Head) (s : State) :
    (legacyChecks h s).bind Stop.refusal? =
      if s.cfg.mode ≠ .long64 then some .unsupportedMode
      else if h.legacyAdmitted = false then some .prefixSequence else none := by
  rw [legacyChecks, firstStop_refusal_cons, firstStop_refusal_cons, firstStop_refusal_none _ rfl]
  simp

/-- The refusals of the VEX preamble. -/
theorem vexChecks_refusal (m : Bool) (h : Head) (p : Vex) (s : State) :
    (vexChecks m h p s).bind Stop.refusal? =
      if s.cfg.mode ≠ .long64 then some .unsupportedMode
      else if p.l = true then some .vexLengthOne
      else if h.overridesAdmitted = false then some .prefixSequence else none := by
  rw [vexChecks, firstStop_refusal_cons, firstStop_refusal_cons, firstStop_refusal_cons,
    firstStop_refusal_none _ rfl]
  simp

/-- The refusals of the EVEX preamble. -/
theorem evexChecks_refusal (m w : Bool) (h : Head) (p : Evex) (s : State) :
    (evexChecks m w h p s).bind Stop.refusal? =
      if s.cfg.mode ≠ .long64 then some .unsupportedMode
      else if p.z = true ∧ p.aaa = 0#3 then some .zeroingWithoutMask
      else if p.ll = 3#2 then some .evexLengthReserved
      else if h.overridesAdmitted = false then some .prefixSequence else none := by
  rw [evexChecks, firstStop_refusal_cons, firstStop_refusal_cons, firstStop_refusal_cons,
    firstStop_refusal_cons, firstStop_refusal_none _ rfl]
  simp

/-- The refusal of a form depends on the mode alone. -/
theorem formRefusal_mode (i : Instr) (s u : State) (h : s.cfg.mode = u.cfg.mode) :
    formRefusal i s = formRefusal i u := by
  cases i <;> simp only [formRefusal, preamble, legacyChecks_refusal, vexChecks_refusal,
    evexChecks_refusal, h]

/-- Outside 64-bit mode every form is refused. -/
theorem formRefusal_other_mode (i : Instr) (s : State) (h : s.cfg.mode ≠ .long64) :
    formRefusal i s = some .unsupportedMode := by
  cases i <;> simp only [formRefusal, preamble, legacyChecks_refusal, vexChecks_refusal,
    evexChecks_refusal, if_pos h]

/-- A refusal by a meaning is that of its preamble, or of an access to a device. -/
theorem exec_refused (i : Instr) (s : State) (r : Refusal) (h : exec i s = .refused r) :
    formRefusal i s = some r ∨ r = .deviceAccess := by
  have A : ∀ (p : Option Stop) (a : Word) k g t, finish (p.or (s.accessStop a k g)) t = .refused r →
      p.bind Stop.refusal? = some r ∨ r = .deviceAccess := by
    intro p a k g t hf
    rw [finish_eq_refused] at hf
    cases p with
    | some e => simp only [Option.some_or, Option.some.injEq] at hf; subst hf; exact .inl rfl
    | none =>
      rcases accessStop_cases _ _ _ _ _ (by simpa using hf) with h | ⟨f, h, -⟩
      · simp only [Stop.refuse.injEq] at h; exact .inr h
      · simp at h
  have B : ∀ (p : Option Stop) (a : Word) k g t, finish (p.or (s.probeStop a k g)) t = .refused r →
      p.bind Stop.refusal? = some r ∨ r = .deviceAccess := by
    intro p a k g t hf
    rw [finish_eq_refused] at hf
    cases p with
    | some e => simp only [Option.some_or, Option.some.injEq] at hf; subst hf; exact .inl rfl
    | none =>
      obtain ⟨f, h, -⟩ := probeStop_cases _ _ _ _ _ (by simpa using hf)
      simp at h
  have C : ∀ (p : Option Stop) t, finish p t = .refused r →
      p.bind Stop.refusal? = some r ∨ r = .deviceAccess := by
    intro p t hf
    rw [finish_eq_refused] at hf
    subst hf
    exact .inl rfl
  simp only [formRefusal]
  cases i with
  | l10rr hd reg rm => exact C _ _ h
  | l11rr hd reg rm => exact C _ _ h
  | l10rm hd reg m => exact A _ _ _ _ _ h
  | l11mr hd reg m => exact A _ _ _ _ _ h
  | v10rr hd p reg rm => exact C _ _ h
  | v11rr hd p reg rm => exact C _ _ h
  | v10rm hd p reg m => exact A _ _ _ _ _ h
  | v11mr hd p reg m => exact A _ _ _ _ _ h
  | e10rr hd p reg rm => exact C _ _ h
  | e11rr hd p reg rm => exact C _ _ h
  | e10rm hd p reg m =>
    simp only [exec, execE10rm, loadEvex] at h
    split at h
    · exact A _ _ _ _ _ h
    · exact B _ _ _ _ _ h
  | e11mr hd p reg m =>
    simp only [exec, execE11mr, storeEvex, storeLow] at h
    split at h
    · exact A _ _ _ _ _ h
    · exact B _ _ _ _ _ h

end Sys2Proof.Machine
end

