-- ==== Sys2Proof/Tests/Slice0.lean ====
section
/-! SUPPORT. The model's own tests. Every expected result is from 95_test_vectors (its sections 2 to 5) or
worked out by hand from the rule a test names; the witnesses at the end meet the hypotheses of the
statements. -/

namespace Sys2Proof.Tests

open Sys2Proof Sys2Proof.Machine

-- One theorem at a time: run all at once, each small kernel evaluation would hold a thread's stack.
set_option Elab.async false

/-! ## Small states -/

/-- `x[i] = 10000H * (i + 1)`, as 95_test_vectors section 2 has it. -/
def regs : Vector Word 16 :=
  #v[0x10000#64, 0x20000#64, 0x30000#64, 0x40000#64, 0x50000#64, 0x60000#64, 0x70000#64, 0x80000#64,
     0x90000#64, 0xA0000#64, 0xB0000#64, 0xC0000#64, 0xD0000#64, 0xE0000#64, 0xF0000#64, 0x100000#64]

/-- A vector register: `upper` above bit 127, `xmm` below. -/
def vec (upper : BitVec 384) (xmm : BitVec 128) : Vec := upper ++ xmm

def xmm1 : BitVec 128 := 0x11111111222222223333333344444444#128
def xmm2 : BitVec 128 := 0xAAAAAAAABBBBBBBBCCCCCCCCDDDDDDDD#128
def xmm3 : BitVec 128 := 0x55555555666666667777777788888888#128
def xmm8 : BitVec 128 := 0x0123456789ABCDEF0F1E2D3C4B5A6978#128
def ones : BitVec 128 := 0xFFFFFFFFFFFFFFFFFFFFFFFFFFFFFFFF#128

/-- The common start of 95_test_vectors sections 3 to 5: `U1 = 5A5AH`, `U2 = FFFFH`, `U3 = 7`, and
registers 16 and 28 to 30 as E8 and E18 want them. -/
def start : State :=
  { State.reset with
    x := regs
    v := ((((((((Vector.replicate 32 0#512).set 1 (vec 0x5A5A#384 xmm1)).set 2 (vec 0xFFFF#384 xmm2)).set 3
      (vec 7#384 xmm3)).set 8 (vec 0#384 xmm8)).set 16 (vec 9#384 ones)).set 28 (vec 0#384 xmm3)).set 29
      (vec 0#384 xmm2)).set 30 (vec 9#384 ones) }

/-- `start` with a program at `pc`. -/
def load (bs : List Byte) : State := start.placeProgram bs

/-- Bytes in memory from an address on, from outside the run. -/
def poke (a : Word) (bs : List Byte) (s : State) : State := State.placeBytes a bs s

/-- Another `V[1]`. -/
def withV1 (w : Vec) (s : State) : State := { s with v := s.v.set 1 w }

/-- `k[n]` set to `w`. -/
def withMask (n : Fin 8) (w : KMask) (s : State) : State := { s with k := s.k.set n w }

/-- One map entry that answers for every access. -/
def withAnswer (r : MapAnswer) (s : State) : State :=
  { s with cfg := { s.cfg with memMap := [⟨0, 2 ^ 64 - 1, none, none, r⟩] } }

def withSuppression (f : FaultSuppression) (s : State) : State :=
  { s with cfg := { s.cfg with faultSuppression := f } }

def withAlignCheck (s : State) : State :=
  { s with cfg := { s.cfg with alignCheck := true } }

/-- Every device register of the platform is at `a`. -/
def withDevice (a : Nat) (s : State) : State :=
  { s with cfg := { s.cfg with devices := [⟨a, a⟩] } }

/-- One address is not admitted for fetch. -/
def withNoFetch (a : Nat) (s : State) : State :=
  { s with cfg := { s.cfg with noFetch := [⟨a, a⟩] } }

/-- Another `KW`. -/
def withWidth (w : MaskWidth) (s : State) : State :=
  { s with cfg := { s.cfg with kw := w } }

/-- A part of the next state, where there is one. -/
def nextOf {α : Type} (f : State → α) : Host.Outcome State Fault Refusal → Option α
  | .next t => some (f t)
  | .fault _ => none
  | .refused _ => none

/-- Bits 511:128, bits 127:0 and the address of the next instruction. -/
def vecPc (i : VReg) (r : Host.Outcome State Fault Refusal) :
    Option (BitVec 384 × BitVec 128 × Word) :=
  nextOf (fun t => ((t.readVec i).extractLsb' 128 384, (t.readVec i).extractLsb' 0 128, t.pc)) r

/-- Eight bytes of memory and the address of the next instruction. -/
def memPc (a : Word) (r : Host.Outcome State Fault Refusal) : Option (List Byte × Word) :=
  nextOf (fun t => (t.bytesFrom a 8, t.pc)) r

def faultOf : Host.Outcome State Fault Refusal → Option Fault
  | .next _ => none
  | .fault f => some f
  | .refused _ => none

def refusalOf : Host.Outcome State Fault Refusal → Option Refusal
  | .next _ => none
  | .fault _ => none
  | .refused r => some r

def isNext : Host.Outcome State Fault Refusal → Bool
  | .next _ => true
  | .fault _ => false
  | .refused _ => false

def ud : Option Fault := some (.invalidOpcode 0x1000#64)
def nm : Option Fault := some (.deviceNotAvailable 0x1000#64)

/-! ## WellFormed: an ill-formed term for each check -/

theorem test_wf_legacy_needs_F3 : (Instr.l10rr ⟨[], none⟩ 1#3 2#3).wf = false := by decide

theorem test_wf_short_vex_has_no_X_B_W :
    (Instr.v10rr ⟨[], none⟩ ⟨true, false, true, false, false, 2#4, false⟩ 1#3 3#3).wf = false ∧
    (Instr.v10rr ⟨[], none⟩ ⟨true, false, false, true, false, 2#4, false⟩ 1#3 3#3).wf = false ∧
    (Instr.v10rr ⟨[], none⟩ ⟨true, false, false, false, true, 2#4, false⟩ 1#3 3#3).wf = false := by
  decide

theorem test_wf_memory_forms :
    (MemForm.base 4#3 .absent).wf = false ∧ (MemForm.base 5#3 .absent).wf = false ∧
    (MemForm.sib 0#2 4#3 5#3 .absent).wf = false ∧
    (MemForm.base 5#3 (.d8 0#8)).wf = true ∧ (MemForm.sib 0#2 4#3 5#3 (.d8 0#8)).wf = true := by
  decide

theorem test_wf_accepts_one_of_each_class :
    (Instr.l10rr ⟨[.rep], none⟩ 1#3 2#3).wf = true ∧
    (Instr.v10rr ⟨[], none⟩ ⟨true, true, false, false, false, 2#4, false⟩ 1#3 3#3).wf = true ∧
    (Instr.e10rr ⟨[], none⟩ ⟨false, false, false, false, false, 2#4, true, false, 0#2, false, false, 0#3⟩
      1#3 3#3).wf = true := by
  decide

/-! ## Decoding, one word for every constructor (95_test_vectors section 2) -/

/-- The EVEX prefix of the examples: `vvvv` number `n`, `z`, `L'L`, mask `aaa`. -/
def ev (n : BitVec 4) (z : Bool) (ll : BitVec 2) (aaa : BitVec 3) : Evex :=
  ⟨false, false, false, false, false, n, true, z, ll, false, false, aaa⟩

/-- The two-byte VEX prefix of the examples: `R` and the `vvvv` number. -/
def vx (r : Bool) (n : BitVec 4) : Vex := ⟨true, r, false, false, false, n, false⟩

def noHead : Head := ⟨[], none⟩
def f3 : Head := ⟨[.rep], none⟩

theorem test_decode_l10rr :
    decode [0xF3#8, 0x45#8, 0x0F#8, 0x10#8, 0xC7#8] =
      .instr (.l10rr ⟨[.rep], some ⟨false, true, false, true⟩⟩ 0#3 7#3) [] := by decide

theorem test_decode_l10rm :
    decode [0xF3#8, 0x0F#8, 0x10#8, 0x0D#8, 0#8, 1#8, 0#8, 0#8] =
      .instr (.l10rm f3 1#3 (.ripRel 0x100#32)) [] ∧
    decode [0xF3#8, 0x0F#8, 0x10#8, 0x04#8, 0x25#8, 0#8, 0x20#8, 0#8, 0#8] =
      .instr (.l10rm f3 0#3 (.sibNoBase 0#2 4#3 0x2000#32)) [] ∧
    decode [0xF3#8, 0x41#8, 0x0F#8, 0x10#8, 0x45#8, 0#8] =
      .instr (.l10rm ⟨[.rep], some ⟨false, false, false, true⟩⟩ 0#3 (.base 5#3 (.d8 0#8))) [] := by
  decide

theorem test_decode_l11mr :
    decode [0xF3#8, 0x42#8, 0x0F#8, 0x11#8, 0x44#8, 0xA0#8, 0xFC#8] =
      .instr (.l11mr ⟨[.rep], some ⟨false, false, true, false⟩⟩ 0#3
        (.sib 2#2 4#3 0#3 (.d8 0xFC#8))) [] := by decide

theorem test_decode_l11rr :
    decode [0xF3#8, 0x0F#8, 0x11#8, 0xD1#8] = .instr (.l11rr f3 2#3 1#3) [] := by decide

theorem test_decode_v10rr :
    decode [0xC4#8, 0xC1#8, 0x6A#8, 0x10#8, 0xC8#8] =
      .instr (.v10rr noHead ⟨false, false, false, true, false, 2#4, false⟩ 1#3 0#3) [] := by decide

theorem test_decode_v10rm :
    decode [0xC5#8, 0xFA#8, 0x10#8, 0x05#8, 0xF8#8, 0xFF#8, 0xFF#8, 0xFF#8] =
      .instr (.v10rm noHead (vx false 0#4) 0#3 (.ripRel 0xFFFFFFF8#32)) [] := by decide

theorem test_decode_v11rr :
    decode [0xC5#8, 0x6A#8, 0x11#8, 0xC1#8] =
      .instr (.v11rr noHead (vx true 2#4) 0#3 1#3) [] := by decide

theorem test_decode_v11mr :
    decode [0xC5#8, 0xFA#8, 0x11#8, 0x1F#8] =
      .instr (.v11mr noHead (vx false 0#4) 3#3 (.base 7#3 .absent)) [] := by decide

theorem test_decode_e10rr :
    decode [0x62#8, 0x01#8, 0x16#8, 0x07#8, 0x10#8, 0xF4#8] =
      .instr (.e10rr noHead
        ⟨true, true, true, true, false, 13#4, true, false, 0#2, false, true, 7#3⟩ 6#3 4#3) [] := by
  decide

theorem test_decode_e10rm :
    decode [0x62#8, 0xF1#8, 0x7E#8, 0x09#8, 0x10#8, 0x48#8, 0x01#8] =
      .instr (.e10rm noHead (ev 0#4 false 0#2 1#3) 1#3 (.base 0#3 (.d8 1#8))) [] := by decide

theorem test_decode_e11rr :
    decode [0x62#8, 0xF1#8, 0x6E#8, 0x89#8, 0x11#8, 0xD9#8] =
      .instr (.e11rr noHead (ev 2#4 true 0#2 1#3) 3#3 1#3) [] := by decide

theorem test_decode_e11mr :
    decode [0x62#8, 0xF1#8, 0x7E#8, 0x09#8, 0x11#8, 0x08#8] =
      .instr (.e11mr noHead (ev 0#4 false 0#2 1#3) 1#3 (.base 0#3 .absent)) [] := by decide

/-- R63: a REX byte before `F3` is none; R82: other opcodes, maps, `pp` and `W` are no MOVSS. -/
theorem test_decode_not_movss :
    decode [0x41#8, 0xF3#8, 0x0F#8, 0x10#8, 0xC0#8] = .notMovss ∧
    decode [0x0F#8, 0x10#8, 0x06#8] = .notMovss ∧
    decode [0x66#8, 0x0F#8, 0x10#8, 0x06#8] = .notMovss ∧
    decode [0xF2#8, 0x0F#8, 0x10#8, 0x06#8] = .notMovss ∧
    decode [0xF3#8, 0x0F#8, 0x12#8, 0x06#8] = .notMovss ∧
    decode [0xC5#8, 0xFB#8, 0x10#8, 0x00#8] = .notMovss ∧
    decode [0xC4#8, 0xE2#8, 0x7A#8, 0x10#8, 0x00#8] = .notMovss ∧
    decode [0x62#8, 0xF1#8, 0xFE#8, 0x09#8, 0x10#8, 0x00#8] = .notMovss ∧
    decode [0x62#8, 0xF2#8, 0x7E#8, 0x09#8, 0x10#8, 0x00#8] = .notMovss := by
  decide

/-- The memory operand of the instruction at `pc`. -/
def operandOf (bs : List Byte) : Option (Word × Seg) :=
  match decode bs with
  | .instr i _ => (memOperand i (load bs)).map fun o => (o.1.addr, o.1.seg)
  | .notMovss => none
  | .truncated => none

/-- The addresses of 95_test_vectors section 2. -/
theorem test_addresses :
    operandOf [0xF3#8, 0x0F#8, 0x10#8, 0x06#8] = some (0x70000#64, .ds) ∧
    operandOf [0xF3#8, 0x0F#8, 0x10#8, 0x5B#8, 0x08#8] = some (0x40008#64, .ds) ∧
    operandOf [0xF3#8, 0x0F#8, 0x10#8, 0x44#8, 0x24#8, 0x04#8] = some (0x50004#64, .ss) ∧
    operandOf [0xF3#8, 0x0F#8, 0x10#8, 0x04#8, 0x8B#8] = some (0xC0000#64, .ds) ∧
    operandOf [0xF3#8, 0x0F#8, 0x10#8, 0x0D#8, 0#8, 1#8, 0#8, 0#8] = some (0x1108#64, .ds) ∧
    operandOf [0xF3#8, 0x0F#8, 0x10#8, 0x04#8, 0x25#8, 0#8, 0x20#8, 0#8, 0#8] = some (0x2000#64, .ds) ∧
    operandOf [0xF3#8, 0x41#8, 0x0F#8, 0x10#8, 0x45#8, 0#8] = some (0xE0000#64, .ds) ∧
    operandOf [0xF3#8, 0x42#8, 0x0F#8, 0x11#8, 0x44#8, 0xA0#8, 0xFC#8] = some (0x34FFFC#64, .ds) ∧
    operandOf [0x64#8, 0xF3#8, 0x0F#8, 0x10#8, 0x00#8] = some (0x10000#64, .fs) ∧
    operandOf [0xC5#8, 0xFA#8, 0x10#8, 0x05#8, 0xF8#8, 0xFF#8, 0xFF#8, 0xFF#8] = some (0x1000#64, .ds) ∧
    operandOf [0x62#8, 0xF1#8, 0x7E#8, 0x09#8, 0x10#8, 0x48#8, 0x01#8] = some (0x10004#64, .ds) ∧
    operandOf [0x62#8, 0xF1#8, 0x7E#8, 0x09#8, 0x10#8, 0x48#8, 0xFF#8] = some (0xFFFC#64, .ds) := by
  decide +kernel

/-- R77 with a 32-bit address size: the registers and the sum are cut to 32 bits, a segment base is not;
`FS` and `GS` bases are added, the other overrides change nothing. By hand. -/
theorem test_address_size_and_segments :
    (legacyOperand ⟨[.addrSize, .rep], none⟩ (.base 0#3 (.d8 0xFF#8)) 5
      { start with x := start.x.set 0 0x7700000000#64 }).addr = 0xFFFFFFFF#64 ∧
    (legacyOperand ⟨[.addrSize, .segFs, .rep], none⟩ (.base 0#3 (.d8 0xFF#8)) 6
      { start with x := start.x.set 0 0#64, fsBase := 0x100000000#64 }).addr = 0x1FFFFFFFF#64 ∧
    (legacyOperand ⟨[.segGs, .rep], none⟩ (.base 0#3 .absent) 5
      { start with fsBase := 0x500#64, gsBase := 0x700#64 }).addr = 0x10700#64 ∧
    (legacyOperand ⟨[.segCs, .rep], none⟩ (.sib 0#2 4#3 4#3 .absent) 6
      { start with fsBase := 0x500#64, gsBase := 0x700#64 }) = ⟨0x50000#64, .ss⟩ := by
  decide +kernel

/-! ## One step of each instruction (95_test_vectors sections 3 to 5) -/

/-- L1. -/
theorem test_l10rr_merges :
    vecPc 1#5 (step (load [0xF3#8, 0x0F#8, 0x10#8, 0xCA#8])) =
      some (0x5A5A#384, 0x111111112222222233333333DDDDDDDD#128, 0x1004#64) := by decide +kernel

/-- L4: a signalling NaN is not quieted. -/
theorem test_l10rr_copies_bits :
    vecPc 1#5 (step { load [0xF3#8, 0x0F#8, 0x10#8, 0xCA#8] with
      v := start.v.set 2 (vec 0#384 0x7FA00000#128) }) =
      some (0x5A5A#384, 0x1111111122222222333333337FA00000#128, 0x1004#64) := by decide +kernel

/-- L6: bits 127:32 zeroed, upper bits kept. -/
theorem test_l10rm_loads :
    vecPc 1#5 (step (poke 0x70000#64 [0xDB#8, 0x0F#8, 0x49#8, 0x40#8]
      (load [0xF3#8, 0x0F#8, 0x10#8, 0x0E#8]))) =
      some (0x5A5A#384, 0x40490FDB#128, 0x1004#64) := by decide +kernel

/-- L7, at an address that is no multiple of 4, without and with `AlignCheck`. -/
theorem test_l10rm_unaligned :
    vecPc 1#5 (step (poke 0x70001#64 [0#8, 0#8, 0x80#8, 0x3F#8]
      (load [0xF3#8, 0x0F#8, 0x10#8, 0x4E#8, 0x01#8]))) =
      some (0x5A5A#384, 0x3F800000#128, 0x1005#64) ∧
    faultOf (step (withAlignCheck (load [0xF3#8, 0x0F#8, 0x10#8, 0x4E#8, 0x01#8]))) =
      some (.alignmentCheck 0x1000#64) := by decide +kernel

/-- L9. -/
theorem test_l11mr_stores_four_bytes :
    memPc 0x80000#64 (step (poke 0x80000#64 (List.replicate 8 0xAA#8)
      (load [0xF3#8, 0x0F#8, 0x11#8, 0x0F#8]))) =
      some ([0x44#8, 0x44#8, 0x44#8, 0x44#8, 0xAA#8, 0xAA#8, 0xAA#8, 0xAA#8], 0x1004#64) := by
  decide +kernel

/-- L11: the stack segment, because the base is RSP. -/
theorem test_l11mr_stack_fault :
    faultOf (step { load [0xF3#8, 0x0F#8, 0x11#8, 0x4C#8, 0x24#8, 0xFC#8] with
      cfg := { launchAtReset with memMap := [⟨0x4FFFC, 0x4FFFC, some .write, some .ss, .ss⟩] } }) =
      some (.stackFault 0x1000#64) := by decide +kernel

/-- L2. -/
theorem test_l11rr_merges :
    vecPc 1#5 (step (load [0xF3#8, 0x0F#8, 0x11#8, 0xD1#8])) =
      some (0x5A5A#384, 0x111111112222222233333333DDDDDDDD#128, 0x1004#64) := by decide +kernel

/-- V1. -/
theorem test_v10rr_merges :
    vecPc 1#5 (step (load [0xC5#8, 0xEA#8, 0x10#8, 0xCB#8])) =
      some (0#384, 0xAAAAAAAABBBBBBBBCCCCCCCC88888888#128, 0x1004#64) := by decide +kernel

/-- V5: destination and both sources one register; only the upper bits change. -/
theorem test_v10rr_same_register :
    vecPc 1#5 (step (load [0xC5#8, 0xF2#8, 0x10#8, 0xC9#8])) =
      some (0#384, xmm1, 0x1004#64) := by decide +kernel

/-- V7. -/
theorem test_v10rm_loads :
    vecPc 1#5 (step (poke 0x70000#64 [0xDB#8, 0x0F#8, 0x49#8, 0x40#8]
      (withV1 (vec 5#384 ones) (load [0xC5#8, 0xFA#8, 0x10#8, 0x0E#8])))) =
      some (0#384, 0x40490FDB#128, 0x1004#64) := by decide +kernel

/-- V8. -/
theorem test_v10rm_faults :
    faultOf (step (withAnswer .gp (load [0xC5#8, 0xFA#8, 0x10#8, 0x0E#8]))) =
      some (.generalProtection 0x1000#64) := by decide +kernel

/-- V6. -/
theorem test_v11rr_merges :
    vecPc 1#5 (step (load [0xC5#8, 0x6A#8, 0x11#8, 0xC1#8])) =
      some (0#384, 0xAAAAAAAABBBBBBBBCCCCCCCC4B5A6978#128, 0x1004#64) := by decide +kernel

/-- V9: memory, and the source register with its upper bits. -/
theorem test_v11mr_stores :
    memPc 0x80000#64 (step (poke 0x80000#64 (List.replicate 8 0xAA#8)
      (load [0xC5#8, 0xFA#8, 0x11#8, 0x0F#8]))) =
      some ([0x44#8, 0x44#8, 0x44#8, 0x44#8, 0xAA#8, 0xAA#8, 0xAA#8, 0xAA#8], 0x1004#64) ∧
    vecPc 1#5 (step (load [0xC5#8, 0xFA#8, 0x11#8, 0x0F#8])) = some (0x5A5A#384, xmm1, 0x1004#64) := by
  decide +kernel

/-- E1 and E2: merging-masking, with the other bits of `k[1]` the opposite of bit 0. -/
theorem test_e10rr_merging :
    vecPc 1#5 (step (withMask 1 1 (withV1 (vec 5#384 ones)
      (load [0x62#8, 0xF1#8, 0x6E#8, 0x09#8, 0x10#8, 0xCB#8])))) =
      some (0#384, 0xAAAAAAAABBBBBBBBCCCCCCCC88888888#128, 0x1006#64) ∧
    vecPc 1#5 (step (withMask 1 0xFFFE (withV1 (vec 5#384 ones)
      (load [0x62#8, 0xF1#8, 0x6E#8, 0x09#8, 0x10#8, 0xCB#8])))) =
      some (0#384, 0xAAAAAAAABBBBBBBBCCCCCCCCFFFFFFFF#128, 0x1006#64) := by decide +kernel

/-- E8 and E9: registers 28 to 30 and `k7`. -/
theorem test_e10rr_high_registers :
    vecPc 30#5 (step (withMask 7 1 (load [0x62#8, 0x01#8, 0x16#8, 0x07#8, 0x10#8, 0xF4#8]))) =
      some (0#384, 0xAAAAAAAABBBBBBBBCCCCCCCC88888888#128, 0x1006#64) ∧
    vecPc 30#5 (step (load [0x62#8, 0x01#8, 0x16#8, 0x07#8, 0x10#8, 0xF4#8])) =
      some (0#384, 0xAAAAAAAABBBBBBBBCCCCCCCCFFFFFFFF#128, 0x1006#64) := by decide +kernel

/-- E10 and E11. -/
theorem test_e10rm_loads :
    vecPc 1#5 (step (withMask 1 1 (poke 0x10004#64 [0#8, 0#8, 0x80#8, 0x3F#8]
      (load [0x62#8, 0xF1#8, 0x7E#8, 0x09#8, 0x10#8, 0x48#8, 0x01#8])))) =
      some (0#384, 0x3F800000#128, 0x1007#64) ∧
    vecPc 1#5 (step (poke 0x10004#64 [0#8, 0#8, 0x80#8, 0x3F#8]
      (load [0x62#8, 0xF1#8, 0x7E#8, 0x09#8, 0x10#8, 0x48#8, 0x01#8]))) =
      some (0#384, 0x44444444#128, 0x1007#64) := by decide +kernel

/-- E14, at the two settings that leave nothing open. -/
theorem test_e10rm_masked_off_fault :
    vecPc 1#5 (step (withSuppression .suppress (withAnswer (.pf 4 0#64)
      (load [0x62#8, 0xF1#8, 0x7E#8, 0x09#8, 0x10#8, 0x48#8, 0x01#8])))) =
      some (0#384, 0x44444444#128, 0x1007#64) ∧
    faultOf (step (withSuppression .check (withAnswer (.pf 4 0#64)
      (load [0x62#8, 0xF1#8, 0x7E#8, 0x09#8, 0x10#8, 0x48#8, 0x01#8])))) =
      some (.pageFault 4 0x10004#64 0x1000#64) := by decide +kernel

/-- E6: zeroing-masking with the mask bit 0. -/
theorem test_e11rr_zeroing :
    vecPc 1#5 (step (load [0x62#8, 0xF1#8, 0x6E#8, 0x89#8, 0x11#8, 0xD9#8])) =
      some (0#384, 0xAAAAAAAABBBBBBBBCCCCCCCC00000000#128, 0x1006#64) := by decide +kernel

/-- E15 and E16. -/
theorem test_e11mr_stores :
    memPc 0x10000#64 (step (withMask 1 1 (poke 0x10000#64 (List.replicate 8 0xAA#8)
      (load [0x62#8, 0xF1#8, 0x7E#8, 0x09#8, 0x11#8, 0x08#8])))) =
      some ([0x44#8, 0x44#8, 0x44#8, 0x44#8, 0xAA#8, 0xAA#8, 0xAA#8, 0xAA#8], 0x1006#64) ∧
    memPc 0x10000#64 (step (poke 0x10000#64 (List.replicate 8 0xAA#8)
      (load [0x62#8, 0xF1#8, 0x7E#8, 0x09#8, 0x11#8, 0x08#8]))) =
      some (List.replicate 8 0xAA#8, 0x1006#64) := by decide +kernel

/-! ## Encodings that do not execute (95_test_vectors section 2) -/

theorem test_ud_encodings :
    ∀ bs ∈ [[0xC5#8, 0xF2#8, 0x11#8, 0x00#8], [0xC5#8, 0xF2#8, 0x10#8, 0x00#8],
      [0x62#8, 0xF1#8, 0x76#8, 0x09#8, 0x11#8, 0x00#8], [0x62#8, 0xF1#8, 0x76#8, 0x09#8, 0x10#8, 0x00#8],
      [0x62#8, 0xF1#8, 0x7E#8, 0x01#8, 0x10#8, 0x00#8], [0x62#8, 0xF1#8, 0x7E#8, 0x89#8, 0x11#8, 0x08#8],
      [0x62#8, 0xF1#8, 0x7E#8, 0x19#8, 0x10#8, 0x00#8], [0xF0#8, 0xF3#8, 0x0F#8, 0x10#8, 0x06#8],
      [0x66#8, 0xC5#8, 0xFA#8, 0x10#8, 0x00#8]], faultOf (step (load bs)) = ud := by
  decide +kernel

theorem test_refused_encodings :
    ∀ c ∈ [([0xC5#8, 0xEE#8, 0x10#8, 0xCB#8], Refusal.vexLengthOne),
      ([0xC5#8, 0xF6#8, 0x11#8, 0x00#8], .vexLengthOne),
      ([0x62#8, 0xF1#8, 0x6E#8, 0x88#8, 0x10#8, 0xCB#8], .zeroingWithoutMask),
      ([0x62#8, 0xF1#8, 0x7E#8, 0x88#8, 0x11#8, 0x08#8], .zeroingWithoutMask),
      ([0x62#8, 0xF1#8, 0x6E#8, 0xE9#8, 0x10#8, 0xCB#8], .evexLengthReserved),
      ([0x62#8, 0xF1#8, 0xFE#8, 0x09#8, 0x10#8, 0x00#8], .notMovss),
      ([0xF3#8, 0x66#8, 0x0F#8, 0x10#8, 0x06#8], .prefixSequence),
      ([0xF2#8, 0xF3#8, 0x0F#8, 0x10#8, 0x06#8], .prefixSequence),
      ([0xF3#8, 0xF3#8, 0x0F#8, 0x10#8, 0x06#8], .prefixSequence),
      ([0x0F#8, 0x10#8, 0x06#8], .notMovss)], refusalOf (step (load c.1)) = some c.2 := by
  decide +kernel

/-- The launch configuration of `start` with other features, enabled classes and `TS`. -/
def configured (f : Features) (e : Enabled) (ts : Bool) (bs : List Byte) : State :=
  { load bs with cfg := { launchAtReset with features := f, enabled := e, ts := ts } }

def allF : Features := ⟨true, true, true⟩
def allE : Enabled := ⟨true, true, true⟩
def legacyBytes : List Byte := [0xF3#8, 0x0F#8, 0x10#8, 0xCA#8]
def vexBytes : List Byte := [0xC5#8, 0xEA#8, 0x10#8, 0xCB#8]
def evexBytes : List Byte := [0x62#8, 0xF1#8, 0x6E#8, 0x08#8, 0x10#8, 0xCB#8]

theorem test_feature_and_enabling :
    (∀ c ∈ [(configured ⟨false, true, true⟩ allE false legacyBytes, ud),
      (configured allF ⟨false, true, true⟩ false legacyBytes, ud),
      (configured ⟨true, false, true⟩ allE false vexBytes, ud),
      (configured allF ⟨true, false, true⟩ false vexBytes, ud),
      (configured ⟨true, true, false⟩ allE false evexBytes, ud),
      (configured allF ⟨true, true, false⟩ false evexBytes, ud),
      (configured allF allE true legacyBytes, nm), (configured allF allE true vexBytes, nm),
      (configured allF allE true evexBytes, nm),
      (configured allF allE true [0xC5#8, 0xF2#8, 0x11#8, 0x00#8], ud)], faultOf (step c.1) = c.2) := by
  decide +kernel

/-- R82, D25: the length of a string is not tested. After 12 or 66 prefix bytes it is R131, R62 or R82 that
decides. -/
theorem test_strings_of_any_length :
    faultOf (step (load (List.replicate 12 0x66#8 ++ [0xC5#8, 0xFA#8, 0x10#8, 0x00#8]))) = ud ∧
    faultOf (step (load (List.replicate 12 0xF0#8 ++ [0xF3#8, 0x0F#8, 0x10#8, 0x06#8]))) = ud ∧
    faultOf (step (load (List.replicate 66 0x66#8 ++ [0xC5#8, 0xFA#8, 0x10#8, 0x00#8]))) = ud ∧
    refusalOf (step (load (List.replicate 66 0x3E#8 ++ [0xF3#8, 0x0F#8, 0x10#8, 0x06#8]))) =
      some .prefixSequence ∧
    refusalOf (step (load (List.replicate 66 0x66#8 ++ [0x0F#8, 0x10#8, 0x00#8]))) = some .notMovss := by
  decide +kernel

/-- R163: a byte of the instruction that is not admitted for fetch, and one past it. -/
theorem test_not_admitted_for_fetch :
    refusalOf (step (withNoFetch 0x1003 (load legacyBytes))) = some .fetchNotAdmitted ∧
    isNext (step (withNoFetch 0x1004 (load legacyBytes))) = true := by decide +kernel

/-- R9, D4: a mask register of one bit, and one of 100 bits. -/
theorem test_mask_widths :
    (⟨0⟩ : MaskWidth).bits = 1 ∧ (⟨99⟩ : MaskWidth).bits = 100 ∧
    vecPc 1#5 (step (withWidth ⟨0⟩ (withMask 1 1 (load [0x62#8, 0xF1#8, 0x6E#8, 0x09#8, 0x10#8, 0xCB#8])))) =
      some (0#384, 0xAAAAAAAABBBBBBBBCCCCCCCC88888888#128, 0x1006#64) ∧
    ((withWidth ⟨99⟩ (withMask 1 (2 ^ 99) start)).readMask 1#3).getLsbD 99 = true ∧
    vecPc 1#5 (step (withWidth ⟨99⟩ (withMask 1 (2 ^ 99)
      (load [0x62#8, 0xF1#8, 0x6E#8, 0x09#8, 0x10#8, 0xCB#8])))) =
      some (0#384, 0xAAAAAAAABBBBBBBBCCCCCCCC44444444#128, 0x1006#64) := by decide +kernel

/-- The bytes of program 4 of 95_test_vectors section 6: `movss xmm1, xmm2`; `vmovss xmm1, xmm1, xmm2`. -/
def twoForms : List Byte := [0xF3#8, 0x0F#8, 0x10#8, 0xCA#8, 0xC5#8, 0xF2#8, 0x10#8, 0xCA#8]

/-- What `runProgram` gives, without its states. -/
def endOf : RunEnd → String
  | .final t => if t.pc = 0x1008#64 then "final" else "elsewhere"
  | .faulted _ t => if t.pc = 0x1004#64 then "faulted" else "elsewhere"
  | .refused _ => "refused"
  | .unended _ => "unended"

/-- R169: a run ends just past its last instruction, or at a fault; a program with a refused instruction
has no run, though its first instruction alone would complete. -/
theorem test_run_of_a_program :
    endOf ((load twoForms).runProgram twoForms 0x1000#64) = "final" ∧
    (let p := legacyBytes ++ [0xC5#8, 0xF2#8, 0x11#8, 0x00#8]
     endOf ((load p).runProgram p 0x1000#64) = "faulted") ∧
    (let p := legacyBytes ++ [0xC5#8, 0xEE#8, 0x10#8, 0xCB#8]
     endOf ((load p).runProgram p 0x1000#64) = "refused" ∧ isNext (step (load p)) = true) ∧
    (let p := legacyBytes ++ [0x0F#8, 0x10#8, 0x06#8]
     endOf ((load p).runProgram p 0x1000#64) = "refused") := by decide +kernel

/-- R53: storing over the next instruction, then fetching it. -/
theorem test_self_modifying_code :
    nextOf (fun t => refusalOf (step t))
      (step { load [0xF3#8, 0x0F#8, 0x11#8, 0x0F#8, 0xF3#8, 0x0F#8, 0x11#8, 0x0F#8] with
        x := regs.set 7 0x1007#64 }) = some (some .selfModifyingCode) := by decide +kernel

/-- The two views of a table word agree with the bytes: bits 7:0 are the first byte. -/
theorem test_table_word :
    decodeTableWord 32 0xCA100FF3 = some (.l10rr f3 1#3 2#3) ∧
    vecPc 1#5 (step (start.withFetchWord 32 0xCA100FF3)) =
      some (0x5A5A#384, 0x111111112222222233333333DDDDDDDD#128, 0x1004#64) := by decide +kernel

/-! ## Witnesses: states and operands that meet the hypotheses of each statement together -/

/-- The state an outcome leads to, `d` where there is none. -/
def after (d : State) : Host.Outcome State Fault Refusal → State
  | .next t => t
  | .fault _ => d
  | .refused _ => d

theorem next_after (d : State) (o : Host.Outcome State Fault Refusal) (h : isNext o = true) :
    o = .next (after d o) := by
  cases o with
  | next t => rfl
  | fault f => simp [isNext] at h
  | refused r => simp [isNext] at h

/-- `movss xmm1, xmm2`; `movss xmm1, [rsi]`; `movss [rdi], xmm1`; `movss xmm2, xmm1`, opcode 11. -/
def iL10rr : Instr := .l10rr f3 1#3 2#3
def iL10rm : Instr := .l10rm f3 1#3 (.base 6#3 .absent)
def iL11mr : Instr := .l11mr f3 1#3 (.base 7#3 .absent)
/-- `vmovss xmm1, xmm2, xmm3`; `vmovss xmm1, [rsi]`; `vmovss [rdi], xmm1`. -/
def iV10rr : Instr := .v10rr noHead (vx false 2#4) 1#3 3#3
def iV10rm : Instr := .v10rm noHead (vx false 0#4) 1#3 (.base 6#3 .absent)
def iV11mr : Instr := .v11mr noHead (vx false 0#4) 1#3 (.base 7#3 .absent)
/-- `vmovss xmm1 (k1), [rsi]`; `vmovss [rdi] (k1), xmm1`. -/
def iE10rm : Instr := .e10rm noHead (ev 0#4 false 0#2 1#3) 1#3 (.base 6#3 .absent)
def iE11mr : Instr := .e11mr noHead (ev 0#4 false 0#2 1#3) 1#3 (.base 7#3 .absent)

theorem witness_DecodeReadsBackEveryEncoding :
    (Instr.l11mr ⟨[.segGs, .addrSize, .rep], some ⟨true, true, true, true⟩⟩ 7#3
      (.sib 3#2 7#3 5#3 (.d32 0xFFFFFFFF#32))).wf = true := by decide

theorem witness_EncodeReadsBackEveryDecoding :
    decode [0xC5#8, 0xEA#8, 0x10#8, 0xCB#8, 0x90#8] = .instr iV10rr [0x90#8] := by decide

/-- Both directions: a row that fits, and one that does not. -/
theorem witness_EachFormFitsExactlyItsOpcodeTableRow :
    iV10rr.wf = true ∧ (∃ r ∈ opcodeRows, r.id = iV10rr.rowId) ∧
      ∃ r ∈ opcodeRows, r.id ≠ iV10rr.rowId := by decide

/-- The shortest and the longest form that executes (R78). -/
theorem witness_ExecutedFormsAreFourToThirteenBytesLong :
    (iL10rr.wf = true ∧ isNext (exec iL10rr start) = true ∧ iL10rr.ilen = 4) ∧
    (let i : Instr := .e10rm ⟨[.segFs, .addrSize], none⟩ (ev 0#4 false 0#2 0#3) 0#3
      (.sib 2#2 1#3 3#3 (.d32 0#32))
     i.wf = true ∧ isNext (exec i start) = true ∧ i.ilen = 13 ∧ encClass i = .evex) ∧
    (let i : Instr := .e10rr noHead (ev 2#4 false 0#2 0#3) 1#3 3#3
     i.wf = true ∧ isNext (exec i start) = true ∧ i.ilen = 6 ∧ encClass i = .evex) := by
  decide +kernel

theorem witness_StepRunsTheDecodedInstruction :
    let s := load legacyBytes
    s.cfg.mode = .long64 ∧ decode (s.bytesFrom s.pc 15) = .instr iL10rr (List.replicate 11 0#8) ∧
      s.fetchInRange iL10rr.ilen = true ∧ s.codeAdmitted iL10rr.ilen = true ∧
      s.codeModified iL10rr.ilen = false := by decide +kernel

theorem witness_StepRefusesEveryOtherMode : State.powerUp.cfg.mode ≠ .long64 := by decide

theorem witness_StepRefusesBytesThatAreNoForm :
    let s := load [0x0F#8, 0x10#8, 0x06#8]
    s.cfg.mode = .long64 ∧ decode (s.bytesFrom s.pc 15) = .notMovss := by decide +kernel

/-- The last four bytes of the address space; the last four below the hole; the first address of the hole;
the last byte not admitted. -/
theorem witness_StepRefusesCodeThatLeavesTheCanonicalRange :
    (let s := State.placeProgram legacyBytes { start with pc := 0xFFFFFFFFFFFFFFFC#64 }
     s.cfg.mode = .long64 ∧ decode (s.bytesFrom s.pc 15) = .instr iL10rr (List.replicate 11 0#8) ∧
      2 ^ 64 ≤ s.pc.toNat + iL10rr.ilen) ∧
    (let s := State.placeProgram legacyBytes { start with pc := 0x7FFFFFFFFFFC#64 }
     s.cfg.mode = .long64 ∧ decode (s.bytesFrom s.pc 15) = .instr iL10rr (List.replicate 11 0#8) ∧
      iL10rr.ilen = 4 ∧ canonical s.cfg.linearWidth (s.pc + BitVec.ofNat 64 4) = false) ∧
    (let s := State.placeProgram legacyBytes { start with pc := 0x800000000000#64 }
     s.cfg.mode = .long64 ∧ decode (s.bytesFrom s.pc 15) = .instr iL10rr (List.replicate 11 0#8) ∧
      canonical s.cfg.linearWidth (s.pc + BitVec.ofNat 64 0) = false) ∧
    (let s := withNoFetch 0x1003 (load legacyBytes)
     s.cfg.mode = .long64 ∧ decode (s.bytesFrom s.pc 4) = .instr iL10rr [] ∧
      s.fetchInRange iL10rr.ilen = true ∧ 3 < iL10rr.ilen ∧
      ∃ r ∈ s.cfg.noFetch, r.first ≤ (s.pc + BitVec.ofNat 64 3).toNat ∧
        (s.pc + BitVec.ofNat 64 3).toNat ≤ r.last) := by decide +kernel

/-- A store, with its first and last byte; and a state in which the last byte of the code counts as stored. -/
theorem witness_StepRefusesCodeTheRunHasStoredTo :
    (isNext (exec iL11mr start) = true ∧ memOperand iL11mr start = some (⟨0x80000#64, .ds⟩, .write) ∧
      AccessMade iL11mr start ∧ 0x80000#64 ∈ accessBytes 0x80000#64 4 ∧
      0x80003#64 ∈ accessBytes 0x80000#64 4) ∧
    (let s : State := { start with stored := [7] }
     isNext (exec iL10rr s) = true ∧ 7 ∈ s.stored) ∧
    (let s : State := { load legacyBytes with stored := [0x1003] }
     s.cfg.mode = .long64 ∧ decode (s.bytesFrom s.pc 15) = .instr iL10rr (List.replicate 11 0#8) ∧
      s.fetchInRange iL10rr.ilen = true ∧ s.codeAdmitted iL10rr.ilen = true ∧ 3 < iL10rr.ilen ∧
      (s.pc + BitVec.ofNat 64 3).toNat ∈ s.stored) := by
  refine ⟨⟨by decide +kernel, by decide +kernel, trivial, by decide, by decide⟩, by decide +kernel,
    by decide +kernel⟩

theorem runsUntil_from_stop (stop : Word) (n : Nat) (s t : State) (h : RunsUntil stop n s t)
    (hp : s.pc = stop) : t = s := by
  cases h with
  | done => rfl
  | step n s u t hq _ _ => exact absurd hp hq

theorem runsUntil_first (stop : Word) (n : Nat) (s t : State) (h : RunsUntil stop n s t) :
    t = s ∨ ∃ m, RunsUntil stop m (after s (step s)) t := by
  cases h with
  | done => exact .inl rfl
  | step n s u t _ hs hr =>
    rw [hs]
    exact .inr ⟨n, hr⟩

theorem legacy_mapped : CodeMapped (encode iL10rr ++ []) 0x1000#64 (load legacyBytes) := by
  refine ⟨by decide +kernel, by decide +kernel, fun n t hr a _ => ?_⟩
  have e : t.stored = [] := by
    obtain rfl | ⟨_, hr⟩ := runsUntil_first _ _ _ _ hr
    · decide +kernel
    · obtain rfl := runsUntil_from_stop _ _ _ _ hr (by decide +kernel)
      decide +kernel
  rw [e]
  exact List.not_mem_nil

theorem twoForms_mapped : CodeMapped twoForms 0x1000#64 (load twoForms) := by
  refine ⟨by decide +kernel, by decide +kernel, fun n t hr a _ => ?_⟩
  have e : t.stored = [] := by
    obtain rfl | ⟨_, hr⟩ := runsUntil_first _ _ _ _ hr
    · decide +kernel
    · obtain rfl | ⟨_, hr⟩ := runsUntil_first _ _ _ _ hr
      · decide +kernel
      · obtain rfl := runsUntil_from_stop _ _ _ _ hr (by decide +kernel)
        decide +kernel
  rw [e]
  exact List.not_mem_nil

theorem twoForms_launched : LaunchPremises twoForms 0x1000#64 (load twoForms) := by
  refine ⟨by decide +kernel, ?_, ?_, by decide +kernel, twoForms_mapped, by decide +kernel⟩
  · unfold FeaturesOk; decide +kernel
  · unfold EnabledOk; decide +kernel

/-- One instruction; and a program of two, before its first step and at its end. -/
theorem witness_UnderTheLaunchPremisesTheFirstInstructionRuns :
    (iL10rr.wf = true ∧ LaunchPremises (encode iL10rr ++ []) 0x1000#64 (load legacyBytes) ∧
      (load legacyBytes).fetchInRange iL10rr.ilen = true ∧ isNext (step (load legacyBytes)) = true) ∧
    (let is : List Instr := [iL10rr, .v10rr noHead (vx false 1#4) 1#3 2#3]
     (∀ i ∈ is, i.wf = true) ∧ is.flatMap encode = twoForms ∧
      LaunchPremises twoForms 0x1000#64 (load twoForms) ∧
      (load twoForms).fetchInRange twoForms.length = true ∧
      RunsUntil (programEnd twoForms 0x1000#64) 0 (load twoForms) (load twoForms) ∧
      is[0]? = some iL10rr ∧ ∃ t, RunsUntil (programEnd twoForms 0x1000#64) 2 (load twoForms) t) := by
  refine ⟨⟨by decide, ⟨by decide +kernel, ?_, ?_, by decide +kernel, legacy_mapped, by decide +kernel⟩,
      by decide +kernel, by decide +kernel⟩,
    by decide, by decide, twoForms_launched, by decide +kernel, .done _, rfl, _,
    .step _ _ _ _ (by decide +kernel) (next_after start _ (by decide +kernel))
      (.step _ _ _ _ (by decide +kernel) (next_after start _ (by decide +kernel)) (.done _))⟩
  · unfold FeaturesOk; decide +kernel
  · unfold EnabledOk; decide +kernel

/-- Its clauses in order: a run with a final state; a run that ends in a fault; states reached at the end,
at a fault and at a refusal; a form no state gives a meaning, bytes that are no form, another mode; a whole
program under the launch premises. -/
theorem witness_ARunEndsAtTheEndOfItsProgram :
    endOf ((load twoForms).runProgram twoForms 0x1000#64) = "final" ∧
    (let p := legacyBytes ++ [0xC5#8, 0xF2#8, 0x11#8, 0x00#8]
     endOf ((load p).runProgram p 0x1000#64) = "faulted") ∧
    ((load twoForms).pc = 0x1000#64 ∧ (load twoForms).programRefusal twoForms 0x1000#64 = none ∧
      ∃ t, RunsUntil (programEnd twoForms 0x1000#64) 2 (load twoForms) t ∧ AtEnd twoForms 0x1000#64 t) ∧
    (let p := [0xC5#8, 0xF2#8, 0x11#8, 0x00#8]
     (load p).programRefusal p 0x1000#64 = none ∧
      RunsUntil (programEnd p 0x1000#64) 0 (load p) (load p) ∧ ¬ AtEnd p 0x1000#64 (load p) ∧
      0 < p.length ∧ faultOf (step (load p)) = ud) ∧
    (let s := withDevice 0x70000 (load [0xF3#8, 0x0F#8, 0x10#8, 0x0E#8])
     let p := [0xF3#8, 0x0F#8, 0x10#8, 0x0E#8]
     s.programRefusal p 0x1000#64 = none ∧ refusalOf (step s) = some .deviceAccess) ∧
    (let i : Instr := .v10rr noHead { vx false 2#4 with l := true } 1#3 3#3
     i ∈ programForms [0xC5#8, 0xEE#8, 0x10#8, 0xCB#8] ∧ start.cfg.mode = .long64 ∧
      refusalOf (exec i start) = some .vexLengthOne ∧ Refusal.vexLengthOne ≠ .deviceAccess) ∧
    programReading [0x0F#8, 0x10#8, 0x06#8] = .notMovss ∧
    (programForms twoForms ≠ [] ∧ State.powerUp.cfg.mode ≠ .long64) ∧
    programReading twoForms = .whole ∧ LaunchPremises twoForms 0x1000#64 (load twoForms) := by
  refine ⟨by decide +kernel, by decide +kernel, ⟨by decide +kernel, by decide +kernel, _,
      .step _ _ _ _ (by decide +kernel) (next_after start _ (by decide +kernel))
        (.step _ _ _ _ (by decide +kernel) (next_after start _ (by decide +kernel)) (.done _)), ?_⟩,
    ⟨by decide +kernel, .done _, ?_, by decide, by decide +kernel⟩, by decide +kernel,
    ⟨by decide, by decide +kernel, by decide +kernel, by decide⟩, by decide, by decide +kernel, by decide,
    twoForms_launched⟩
  · unfold AtEnd; decide +kernel
  · unfold AtEnd; decide +kernel

/-! ### The instructions -/

theorem legacyReady_start : LegacyReady f3 start := by
  unfold LegacyReady; decide +kernel

theorem vexReady_start (b : Bool) : VexReady b noHead (vx false 0#4) start := by
  unfold VexReady; cases b <;> decide +kernel

theorem evexReady_start (b c : Bool) : EvexReady b c noHead (ev 0#4 false 0#2 1#3) start := by
  unfold EvexReady; cases b <;> cases c <;> decide +kernel

/-- The accesses of the examples go through, and a map that answers with a page fault stops them. -/
theorem access_start (kind : AccessKind) :
    AccessOk start ⟨0x70000#64, .ds⟩ kind ∧ AccessOk start ⟨0x80000#64, .ds⟩ kind ∧
    (let s := withAnswer (.pf 2 0#64) start
     s.touchesDevice 0x70000#64 = false ∧
      s.accessFault 0x70000#64 kind .ds = some (.pageFault 2 0x70000#64 0x1000#64) ∧
      s.touchesDevice 0x80000#64 = false ∧
      s.accessFault 0x80000#64 kind .ds = some (.pageFault 2 0x80000#64 0x1000#64)) := by
  unfold AccessOk; cases kind <;> decide +kernel

theorem witness_LegacyMoveOpcode10 : LegacyReady f3 start := legacyReady_start

theorem witness_LegacyMoveOpcode11 : LegacyReady f3 start := legacyReady_start

/-- Both clauses: the access goes through; the access faults. -/
theorem witness_LegacyLoad :
    legacyOperand f3 (.base 6#3 .absent) iL10rm.ilen start = ⟨0x70000#64, .ds⟩ ∧ LegacyReady f3 start ∧
      AccessOk start ⟨0x70000#64, .ds⟩ .read ∧
    (let s := withAnswer (.pf 2 0#64) start
     legacyOperand f3 (.base 6#3 .absent) iL10rm.ilen s = ⟨0x70000#64, .ds⟩ ∧ LegacyReady f3 s ∧
      s.touchesDevice 0x70000#64 = false ∧
      s.accessFault 0x70000#64 .read .ds = some (.pageFault 2 0x70000#64 0x1000#64)) :=
  ⟨by decide +kernel, legacyReady_start, (access_start .read).1, by decide +kernel, legacyReady_start,
    (access_start .read).2.2.1, (access_start .read).2.2.2.1⟩

theorem witness_LegacyStore :
    legacyOperand f3 (.base 7#3 .absent) iL11mr.ilen start = ⟨0x80000#64, .ds⟩ ∧ LegacyReady f3 start ∧
      AccessOk start ⟨0x80000#64, .ds⟩ .write ∧
    (let s := withAnswer (.pf 2 0#64) start
     legacyOperand f3 (.base 7#3 .absent) iL11mr.ilen s = ⟨0x80000#64, .ds⟩ ∧ LegacyReady f3 s ∧
      s.touchesDevice 0x80000#64 = false ∧
      s.accessFault 0x80000#64 .write .ds = some (.pageFault 2 0x80000#64 0x1000#64)) :=
  ⟨by decide +kernel, legacyReady_start, (access_start .write).2.1, by decide +kernel, legacyReady_start,
    (access_start .write).2.2.2.2.1, (access_start .write).2.2.2.2.2⟩

/-- One state for each line of the preamble. -/
theorem witness_LegacyPreambleOrder :
    (iL10rr = .l10rr f3 1#3 2#3) ∧ State.powerUp.cfg.mode ≠ .long64 ∧
      [Pfx.rep, .rep].count .rep ≠ 1 ∧ Pfx.repne ∈ [Pfx.repne, .rep] ∧ Pfx.opSize ∈ [Pfx.opSize, .rep] ∧
      1 < [Pfx.segCs, .segGs, .rep].countP (· ∈ [.segCs, .segSs, .segDs, .segEs, .segFs, .segGs]) ∧
      1 < [Pfx.addrSize, .addrSize, .rep].count .addrSize ∧ [Pfx.lock, .rep].count .rep = 1 ∧ Pfx.lock ∈ [Pfx.lock, .rep] ∧
      (configured ⟨false, true, true⟩ allE false []).cfg.features.sse = false ∧
      (configured allF ⟨false, true, true⟩ false []).cfg.enabled.legacySse = false ∧
      (configured allF allE true []).cfg.ts = true ∧ LegacyReady f3 start :=
  ⟨rfl, by decide, by decide, by decide, by decide, by decide, by decide, by decide, by decide,
    by decide +kernel, by decide +kernel, by decide +kernel, legacyReady_start⟩

theorem witness_VexMoveOpcode10 : VexReady false noHead (vx false 0#4) start := vexReady_start false

theorem witness_VexMoveOpcode11 : VexReady false noHead (vx false 0#4) start := vexReady_start false

theorem witness_VexLoad :
    vexOperand noHead (vx false 0#4) (.base 6#3 .absent) iV10rm.ilen start = ⟨0x70000#64, .ds⟩ ∧
      VexReady true noHead (vx false 0#4) start ∧ AccessOk start ⟨0x70000#64, .ds⟩ .read ∧
    (let s := withAnswer (.pf 2 0#64) start
     vexOperand noHead (vx false 0#4) (.base 6#3 .absent) iV10rm.ilen s = ⟨0x70000#64, .ds⟩ ∧
      VexReady true noHead (vx false 0#4) s ∧ s.touchesDevice 0x70000#64 = false ∧
      s.accessFault 0x70000#64 .read .ds = some (.pageFault 2 0x70000#64 0x1000#64)) :=
  ⟨by decide +kernel, vexReady_start true, (access_start .read).1, by decide +kernel,
    vexReady_start true, (access_start .read).2.2.1, (access_start .read).2.2.2.1⟩

theorem witness_VexStore :
    vexOperand noHead (vx false 0#4) (.base 7#3 .absent) iV11mr.ilen start = ⟨0x80000#64, .ds⟩ ∧
      VexReady true noHead (vx false 0#4) start ∧ AccessOk start ⟨0x80000#64, .ds⟩ .write ∧
    (let s := withAnswer (.pf 2 0#64) start
     vexOperand noHead (vx false 0#4) (.base 7#3 .absent) iV11mr.ilen s = ⟨0x80000#64, .ds⟩ ∧
      VexReady true noHead (vx false 0#4) s ∧ s.touchesDevice 0x80000#64 = false ∧
      s.accessFault 0x80000#64 .write .ds = some (.pageFault 2 0x80000#64 0x1000#64)) :=
  ⟨by decide +kernel, vexReady_start true, (access_start .write).2.1, by decide +kernel,
    vexReady_start true, (access_start .write).2.2.2.2.1, (access_start .write).2.2.2.2.2⟩

/-- One state for each line of the preamble. -/
theorem witness_VexPreambleOrder :
    (iV10rr = .v10rr noHead (vx false 2#4) 1#3 3#3) ∧ State.powerUp.cfg.mode ≠ .long64 ∧
      ({ vx false 2#4 with l := true } : Vex).l = true ∧
      1 < [Pfx.segFs, .segFs].countP (· ∈ [.segCs, .segSs, .segDs, .segEs, .segFs, .segGs]) ∧
      1 < [Pfx.addrSize, .addrSize].count .addrSize ∧ Pfx.opSize ∈ [Pfx.opSize] ∧
      (configured ⟨true, false, true⟩ allE false []).cfg.features.avx = false ∧
      (configured allF ⟨true, false, true⟩ false []).cfg.enabled.vex = false ∧
      (iV10rm = .v10rm noHead (vx false 0#4) 1#3 (.base 6#3 .absent)) ∧ (vx false 1#4).vvvv ≠ 0#4 ∧
      (configured allF allE true []).cfg.ts = true ∧ VexReady true noHead (vx false 0#4) start :=
  ⟨rfl, by decide, rfl, by decide, by decide, by decide, by decide +kernel, by decide +kernel, rfl,
    by decide, by decide +kernel, vexReady_start true⟩

/-- The writemask lets through, or not, with either masking kind. -/
theorem witness_EvexMoveOpcode10 :
    EvexReady false false noHead (ev 0#4 false 0#2 1#3) start ∧
    ¬ MaskOn (ev 0#4 false 0#2 1#3) start ∧
    EvexReady false false noHead (ev 0#4 true 0#2 1#3) start ∧
    ¬ MaskOn (ev 0#4 true 0#2 1#3) start ∧
    MaskOn (ev 0#4 true 0#2 1#3) (withMask 1 1 start) ∧
    EvexReady false false noHead (ev 0#4 false 0#2 0#3) start ∧
    MaskOn (ev 0#4 false 0#2 0#3) start := by
  refine ⟨evexReady_start .., ?_⟩
  unfold EvexReady MaskOn
  exact ⟨by decide +kernel, by decide +kernel, by decide +kernel, by decide +kernel, by decide +kernel,
    by decide +kernel⟩

theorem witness_EvexMoveOpcode11 :
    EvexReady false false noHead (ev 0#4 false 0#2 1#3) start ∧
    ¬ MaskOn (ev 0#4 false 0#2 1#3) start ∧
    EvexReady false false noHead (ev 0#4 true 0#2 1#3) start ∧
    MaskOn (ev 0#4 true 0#2 1#3) (withMask 1 1 start) := by
  unfold EvexReady MaskOn; decide +kernel

/-- The four clauses: an access, a masked-off one without a fault, a fault, a masked-off fault. -/
theorem witness_EvexLoad :
    let p := ev 0#4 false 0#2 1#3
    let o : MemOperand := ⟨0x70000#64, .ds⟩
    let on := withMask 1 1 start
    let bad := withAnswer (.pf 2 0#64) start
    evexOperand noHead p (.base 6#3 .absent) iE10rm.ilen start = o ∧
    EvexReady true false noHead p start ∧ MaskOn p on ∧ AccessOk on o .read ∧
    ¬ MaskOn p start ∧ ProbeOk start o .read ∧
    MaskOn p (withMask 1 1 bad) ∧ bad.touchesDevice o.addr = false ∧
    bad.accessFault o.addr .read o.seg = some (.pageFault 2 0x70000#64 0x1000#64) ∧
    ¬ MaskOn p bad ∧ (withSuppression .check bad).cfg.faultSuppression = .check ∧
    bad.cfg.faultSuppression = .either := by
  unfold EvexReady MaskOn AccessOk ProbeOk; decide +kernel

theorem witness_EvexStore :
    let p := ev 0#4 false 0#2 1#3
    let o : MemOperand := ⟨0x80000#64, .ds⟩
    let on := withMask 1 1 start
    let bad := withAnswer (.pf 2 0#64) start
    evexOperand noHead p (.base 7#3 .absent) iE11mr.ilen start = o ∧
    EvexReady true true noHead p start ∧ MaskOn p on ∧ AccessOk on o .write ∧
    ¬ MaskOn p start ∧ ProbeOk start o .write ∧
    MaskOn p (withMask 1 1 bad) ∧ bad.touchesDevice o.addr = false ∧
    bad.accessFault o.addr .write o.seg = some (.pageFault 2 0x80000#64 0x1000#64) ∧
    ¬ MaskOn p bad ∧ (withSuppression .check bad).cfg.faultSuppression = .check ∧
    bad.cfg.faultSuppression = .either := by
  unfold EvexReady MaskOn AccessOk ProbeOk; decide +kernel

theorem witness_MaskedLowTruthTable :
    (ev 0#4 true 0#2 0#3).aaa = 0#3 ∧ (ev 0#4 true 0#2 0#3).z = true ∧ (ev 0#4 true 0#2 1#3).aaa ≠ 0#3 ∧
      ((withMask 1 1 start).readMask 1#3).getLsbD 0 = true ∧
      ((withMask 7 0xFFFE start).readMask 7#3).getLsbD 0 = false ∧
      (ev 0#4 false 0#2 7#3).z = false ∧ start.cfg.mode = .long64 := by decide +kernel

/-- One state or prefix for each line of the preamble. -/
theorem witness_EvexPreambleOrder :
    (iE11mr = .e11mr noHead (ev 0#4 false 0#2 1#3) 1#3 (.base 7#3 .absent)) ∧
      State.powerUp.cfg.mode ≠ .long64 ∧
      ((ev 0#4 true 0#2 0#3).z = true ∧ (ev 0#4 true 0#2 0#3).aaa = 0#3) ∧
      (ev 0#4 false 3#2 1#3).ll = 3#2 ∧
      1 < [Pfx.segFs, .segGs].countP (· ∈ [.segCs, .segSs, .segDs, .segEs, .segFs, .segGs]) ∧
      1 < [Pfx.addrSize, .addrSize].count .addrSize ∧ Pfx.rep ∈ [Pfx.rep] ∧
      ({ ev 0#4 false 0#2 1#3 with p1bit2 := false } : Evex).p1bit2 = false ∧
      (configured ⟨true, true, false⟩ allE false []).cfg.features.avx512f = false ∧
      (configured allF ⟨true, true, false⟩ false []).cfg.enabled.evex = false ∧
      (ev 1#4 false 0#2 1#3).vvvv ≠ 0#4 ∧ (ev 0#4 true 0#2 1#3).z = true ∧
      ({ ev 0#4 false 0#2 1#3 with bc := true } : Evex).bc = true ∧
      (configured allF allE true []).cfg.ts = true ∧
      EvexReady true true noHead (ev 0#4 false 0#2 1#3) start :=
  ⟨rfl, by decide, by decide, by decide, by decide, by decide, by decide, by decide, by decide +kernel,
    by decide +kernel, by decide, by decide, by decide, by decide +kernel, evexReady_start true true⟩

theorem witness_VexMemoryFormsRaiseUdOnVvvv :
    start.cfg.mode = .long64 ∧ (vx false 1#4).l = false ∧ noHead.overridesAdmitted = true ∧
      (vx false 1#4).vvvv ≠ 0#4 := by decide +kernel

/-- Stored `vvvv` other than `1111`; stored `V'` 0. -/
theorem witness_EvexMemoryFormsRaiseUdOnVvvv :
    start.cfg.mode = .long64 ∧ noHead.overridesAdmitted = true ∧
      (let p := ev 1#4 false 0#2 1#3
       (p.z = true → p.aaa ≠ 0#3) ∧ p.ll ≠ 3#2 ∧ p.vvvv ≠ 0#4) ∧
      (let p : Evex := { ev 0#4 false 2#2 0#3 with v1 := true }
       (p.z = true → p.aaa ≠ 0#3) ∧ p.ll ≠ 3#2 ∧ p.vvvv = 0#4 ∧ p.v1 = true) := by decide +kernel

theorem witness_VexLengthOneIsRecognisedAndRefused :
    let p : Vex := { vx false 2#4 with l := true }
    (Instr.v10rr noHead p 1#3 3#3).wf = true ∧ start.cfg.mode = .long64 ∧ p.l = true := by
  decide +kernel

/-- `W = 1`; a refusal for each of the two causes; a `#UD` for each of the four; two other lengths. -/
theorem witness_EvexReservedFields :
    (0xFE#8).getLsbD 7 = true ∧ start.cfg.mode = .long64 ∧ noHead.overridesAdmitted = true ∧
      ((ev 0#4 true 0#2 0#3).z = true ∧ (ev 0#4 true 0#2 0#3).aaa = 0#3) ∧
      (ev 0#4 false 3#2 0#3).ll = 3#2 ∧
      ({ ev 0#4 false 0#2 1#3 with p0bit3 := true } : Evex).p0bit3 = true ∧
      ({ ev 0#4 false 0#2 1#3 with p1bit2 := false } : Evex).p1bit2 = false ∧
      ({ ev 0#4 false 0#2 1#3 with bc := true } : Evex).bc = true ∧
      (ev 0#4 true 0#2 1#3).z = true ∧ (ev 0#4 false 0#2 1#3).ll ≠ 3#2 ∧ (2#2 : BitVec 2) ≠ 3#2 := by
  decide +kernel

theorem witness_Opcode10And11RegisterFormsAgree :
    f3.rex = none ∧ (⟨[.rep], some ⟨false, true, false, false⟩⟩ : Head).rex =
      some ⟨false, true, false, false⟩ := by decide

theorem witness_EvexWithoutMaskActsAsVex :
    let p := ev 0#4 false 0#2 0#3
    let q := vx false 0#4
    p.aaa = 0#3 ∧ vreg5 p.r1 p.r 1#3 = vreg4 q.r 1#3 ∧ vreg5 p.x p.b 3#3 = vreg4 q.b 3#3 ∧
    p.vreg = q.vreg ∧ EvexReady false false noHead p start ∧ EvexReady true false noHead p start ∧
    EvexReady true true noHead p start ∧ VexReady false noHead q start ∧ VexReady true noHead q start ∧
    evexOperand noHead p (.base 6#3 .absent) 6 start = vexOperand noHead q (.base 6#3 .absent) 4 start ∧
    AccessOk start (evexOperand noHead p (.base 6#3 .absent) 6 start) .read ∧
    AccessOk start (evexOperand noHead p (.base 6#3 .absent) 6 start) .write := by
  refine ⟨by decide, by decide, by decide, by decide, ?_, ?_, ?_, vexReady_start false,
    vexReady_start true, by decide +kernel, ?_, ?_⟩ <;>
    first
    | (unfold EvexReady; decide +kernel)
    | (unfold AccessOk; decide +kernel)

/-! ### The whole machine -/

/-- A load whose access is made, and one whose access is masked off. -/
theorem witness_EveryReadyFormCompletes :
    (Ready iL10rm start ∧ memOperand iL10rm start = some (⟨0x70000#64, .ds⟩, .read) ∧
      AccessMade iL10rm start ∧ AccessOk start ⟨0x70000#64, .ds⟩ .read) ∧
    (Ready iE10rm start ∧ memOperand iE10rm start = some (⟨0x70000#64, .ds⟩, .read) ∧
      ¬ AccessMade iE10rm start ∧ ProbeOk start ⟨0x70000#64, .ds⟩ .read) := by
  refine ⟨⟨legacyReady_start, by decide +kernel, trivial, (access_start .read).1⟩,
    evexReady_start true false, by decide +kernel, ?_, ?_⟩
  · show ¬ MaskOn (ev 0#4 false 0#2 1#3) start
    unfold MaskOn; decide +kernel
  · unfold ProbeOk; decide +kernel

/-- Two hypotheses of this shape: a run from the last address and one from 1000H. -/
theorem witness_EveryCompletedFormAdvancesPc :
    isNext (exec iL10rr { start with pc := 0xFFFFFFFFFFFFFFFF#64 }) = true ∧
    isNext (exec iL10rr start) = true := by decide +kernel

theorem witness_NoStepChangesControlState : isNext (step (load legacyBytes)) = true := by
  decide +kernel

theorem witness_OnlyTheDestinationRegisterChanges :
    (isNext (exec iL10rr start) = true ∧ destReg iL10rr = some 1#5) ∧
    (isNext (exec iL11mr start) = true ∧ destReg iL11mr = none) := by decide +kernel

/-- A store whose access is made, one that is masked off, and a form that stores nothing. -/
theorem witness_MemoryChangesOnlyInTheStoredBytes :
    (isNext (exec iL11mr start) = true ∧ memOperand iL11mr start = some (⟨0x80000#64, .ds⟩, .write) ∧
      AccessMade iL11mr start) ∧
    (isNext (exec iE11mr start) = true ∧ ¬ AccessMade iE11mr start) ∧
    (isNext (exec iL10rr start) = true ∧ memOperand iL10rr start = none) := by
  refine ⟨⟨by decide +kernel, by decide +kernel, trivial⟩, ⟨by decide +kernel, ?_⟩, by decide +kernel⟩
  show ¬ MaskOn (ev 0#4 false 0#2 1#3) start
  unfold MaskOn; decide +kernel

theorem witness_UpperBitsAreKeptOrZeroedByClass :
    (isNext (exec iL10rr start) = true ∧ destReg iL10rr = some 1#5 ∧ encClass iL10rr = .legacy) ∧
    (isNext (exec iV10rr start) = true ∧ destReg iV10rr = some 1#5 ∧ encClass iV10rr ≠ .legacy) ∧
    128 ≤ 128 := by decide +kernel

/-- A legacy store to `rdi`, then a VEX load from there. -/
theorem witness_StoreThenLoadGivesTheStoredDoubleword :
    let j : Instr := .v10rm noHead (vx false 0#4) 2#3 (.base 7#3 .absent)
    let t := after start (exec iL11mr start)
    storeSource iL11mr = some 1#5 ∧ memOperand iL11mr start = some (⟨0x80000#64, .ds⟩, .write) ∧
      AccessMade iL11mr start ∧ isNext (exec iL11mr start) = true ∧
      memOperand j t = some (⟨0x80000#64, .ds⟩, .read) ∧ AccessMade j t ∧ destReg j = some 2#5 ∧
      isNext (exec j t) = true := by
  refine ⟨by decide, by decide +kernel, trivial, by decide +kernel, by decide +kernel, trivial, by decide,
    by decide +kernel⟩

theorem witness_OnlyBitZeroOfAMaskRegisterMatters :
    ∀ a : BitVec 3, ((Vector.replicate 8 0xFFFE)[a.toNat]'a.isLt).testBit 0 =
      (start.k[a.toNat]'a.isLt).testBit 0 := by decide +kernel

/-- Without REX; and `41`, a REX byte with `B` set alone. -/
theorem witness_RegisterNumbersOfEachClass :
    noHead.rex = none ∧ (0x41#8).extractLsb' 4 4 = 4#4 ∧
      (⟨[.rep], some ⟨false, false, false, true⟩⟩ : Head).rex = Rex.ofByte 0x41#8 := by decide

/-- An operand of each class, with an extended index and an extended base. -/
theorem witness_LinearAddressRule :
    let m : MemForm := .sib 1#2 2#3 3#3 (.d8 0xFF#8)
    let h : Head := ⟨[.rep], some ⟨false, false, true, true⟩⟩
    let p : Vex := ⟨false, false, true, true, false, 0#4, false⟩
    let e : Evex := { ev 0#4 false 0#2 1#3 with x := true, b := true }
    legacyOperand h m 6 start = ⟨0x21FFFF#64, .ds⟩ ∧ h.rex = some ⟨false, false, true, true⟩ ∧
      vexOperand noHead p m 6 start = ⟨0x21FFFF#64, .ds⟩ ∧ p.x = true ∧ p.b = true ∧
      evexOperand noHead e m 8 start = ⟨0x21FFFC#64, .ds⟩ ∧ e.x = true ∧ e.b = true := by
  decide +kernel

theorem witness_CompressedDisplacement : noHead.pfx = [] := rfl

/-- The three offsets that are no multiple of 4, without and with `AlignCheck`; and an aligned address. -/
theorem witness_MisalignedAccessRaisesAlignmentCheck :
    ∀ d ∈ [1#8, 2#8, 3#8],
      let i : Instr := .l10rm f3 1#3 (.base 6#3 (.d8 d))
      let s := withAlignCheck start
      Ready i s ∧ memOperand i s = some (⟨0x70000#64 + d.setWidth 64, .ds⟩, .read) ∧ AccessMade i s ∧
        s.touchesDevice (0x70000#64 + d.setWidth 64) = false ∧
        s.memCheck (0x70000#64 + d.setWidth 64) 4 .read .ds = none ∧ s.cfg.alignCheck = true ∧
        (0x70000#64 + d.setWidth 64).toNat % 4 ≠ 0 ∧ (0x70000#64).toNat % 4 = 0 ∧
        start.cfg.alignCheck = false := by
  intro d hd
  refine ⟨legacyReady_start, ?_, trivial, ?_, ?_, rfl, ?_, by decide, rfl⟩ <;>
    (revert d; decide +kernel)

/-- The lowest address of the hole reached by the last byte of an access, through DS and through SS. -/
theorem witness_NonCanonicalAccessRaisesSsOrGp :
    (let s : State := { start with x := regs.set 6 0x7FFFFFFFFFFD#64 }
     Ready iL10rm s ∧ memOperand iL10rm s = some (⟨0x7FFFFFFFFFFD#64, .ds⟩, .read) ∧
      AccessMade iL10rm s ∧ s.touchesDevice 0x7FFFFFFFFFFD#64 = false ∧
      s.misaligned 0x7FFFFFFFFFFD#64 = false ∧
      canonical s.cfg.linearWidth (0x7FFFFFFFFFFD#64 + BitVec.ofNat 64 3) = false) ∧
    (let i : Instr := .l10rm f3 1#3 (.base 5#3 (.d8 0#8))
     let s : State := { start with x := regs.set 5 0x800000000000#64 }
     Ready i s ∧ memOperand i s = some (⟨0x800000000000#64, .ss⟩, .read) ∧ AccessMade i s ∧
      s.touchesDevice 0x800000000000#64 = false ∧ s.misaligned 0x800000000000#64 = false ∧
      canonical s.cfg.linearWidth (0x800000000000#64 + BitVec.ofNat 64 0) = false) :=
  ⟨⟨legacyReady_start, by decide +kernel, trivial, by decide +kernel, by decide +kernel,
      by decide +kernel⟩,
    legacyReady_start, by decide +kernel, trivial, by decide +kernel, by decide +kernel,
    by decide +kernel⟩

/-- An entry that does not fit stands before the one that does. -/
theorem witness_PageFaultComesFromTheLaunchMap :
    let e : MapEntry := ⟨0x70000, 0x70FFF, none, none, .pf 4 1#64⟩
    let e' : MapEntry := ⟨0x70000, 0x70FFF, some .write, none, .gp⟩
    let s : State := { start with cfg := { launchAtReset with memMap := [e', e] } }
    Ready iL10rm s ∧ memOperand iL10rm s = some (⟨0x70000#64, .ds⟩, .read) ∧ AccessMade iL10rm s ∧
      s.touchesDevice 0x70000#64 = false ∧ s.misaligned 0x70000#64 = false ∧
      (∀ n < 4, canonical s.cfg.linearWidth (0x70000#64 + BitVec.ofNat 64 n) = true) ∧
      s.cfg.memMap = [e'] ++ e :: [] ∧ (∀ x ∈ [e'], entryFits x 0x70000#64 .read .ds = false) ∧
      entryFits e 0x70000#64 .read .ds = true ∧ e.answer = .pf 4 1#64 :=
  ⟨legacyReady_start, by decide +kernel, trivial, by decide +kernel, by decide +kernel,
    by decide +kernel, rfl, by decide +kernel, by decide +kernel, rfl⟩

theorem witness_AlignmentCheckOrMemCheckException :
    let i : Instr := .l10rm f3 1#3 (.base 6#3 (.d8 1#8))
    let s := withAlignCheck (withAnswer .gp start)
    Ready i s ∧ memOperand i s = some (⟨0x70001#64, .ds⟩, .read) ∧ AccessMade i s ∧
      s.touchesDevice 0x70001#64 = false ∧ s.misaligned 0x70001#64 = true ∧
      s.memCheck 0x70001#64 4 .read .ds = some (.generalProtection 0x1000#64) :=
  ⟨legacyReady_start, by decide +kernel, trivial, by decide +kernel, by decide +kernel,
    by decide +kernel⟩

/-- The three settings with a fault that would be reported, and an access without one. -/
theorem witness_MaskedOffAccessIsSuppressedOrChecked :
    let bad := withAnswer (.pf 2 0#64) start
    Ready iE11mr start ∧ memOperand iE11mr start = some (⟨0x80000#64, .ds⟩, .write) ∧
      ¬ AccessMade iE11mr start ∧ start.accessFault 0x80000#64 .write .ds = none ∧
      Ready iE11mr bad ∧ memOperand iE11mr bad = some (⟨0x80000#64, .ds⟩, .write) ∧
      ¬ AccessMade iE11mr bad ∧
      bad.accessFault 0x80000#64 .write .ds = some (.pageFault 2 0x80000#64 0x1000#64) ∧
      bad.cfg.faultSuppression = .either ∧
      (withSuppression .suppress bad).cfg.faultSuppression = .suppress ∧
      (withSuppression .check bad).cfg.faultSuppression = .check := by
  refine ⟨evexReady_start true true, by decide +kernel, ?_, by decide +kernel, evexReady_start true true,
    by decide +kernel, ?_, by decide +kernel, rfl, rfl, rfl⟩
  · show ¬ MaskOn (ev 0#4 false 0#2 1#3) start
    unfold MaskOn; decide +kernel
  · show ¬ MaskOn (ev 0#4 false 0#2 1#3) start
    unfold MaskOn; decide +kernel

/-- A device register under the last byte of the access. -/
theorem witness_DeviceAccessIsRefused :
    let s := withDevice 0x70003 start
    Ready iL10rm s ∧ memOperand iL10rm s = some (⟨0x70000#64, .ds⟩, .read) ∧ AccessMade iL10rm s ∧
      s.touchesDevice 0x70000#64 = true :=
  ⟨legacyReady_start, by decide +kernel, trivial, by decide +kernel⟩

theorem witness_FaultsCarryThePcOfTheirInstruction :
    faultOf (step (load [0xC5#8, 0xF2#8, 0x11#8, 0x00#8])) = ud := by decide +kernel

theorem witness_EveryStepKeepsTheInvariant :
    (load legacyBytes).Inv ∧ isNext (step (load legacyBytes)) = true :=
  ⟨⟨by decide +kernel, by decide +kernel, by decide +kernel, by decide +kernel, by decide +kernel,
    by decide +kernel⟩, by decide +kernel⟩

/-- Program 4 of 95_test_vectors, two steps. -/
theorem witness_EveryRunKeepsControlStateAndTheInvariant :
    let s := load [0xF3#8, 0x0F#8, 0x10#8, 0xCA#8, 0xC5#8, 0xF2#8, 0x10#8, 0xCA#8]
    s.Inv ∧ ∃ t, Runs 2 s t :=
  ⟨⟨by decide +kernel, by decide +kernel, by decide +kernel, by decide +kernel, by decide +kernel,
    by decide +kernel⟩, _, .step _ _ _ _ (next_after start _ (by decide +kernel))
      (.step _ _ _ _ (next_after start _ (by decide +kernel)) (.done _))⟩

end Sys2Proof.Tests
end

/-! PROOF. The RFLAGS and MXCSR held are not consulted (R15, R28, R130, log 18): what a form reads of the
state is the same with other contents of the two, what it does to the state commutes with replacing them,
and so does every form. -/

namespace Sys2Proof.Machine

/-- The end of a form commutes with a change of the next state. -/
@[simp] theorem mapNext_finish (f : State → State) (stop : Option Stop) (t : State) :
    mapNext f (finish stop t) = finish stop (f t) := by
  cases stop with
  | none => rfl
  | some e => cases e <;> rfl

section
variable (r : Word) (m : BitVec 32) (s : State)

/-! ## What a form reads -/

@[simp] theorem read32_withFlags (a : Word) : (s.withFlags r m).read32 a = s.read32 a := rfl

@[simp] theorem maskBit_withFlags (p : Evex) : (s.withFlags r m).maskBit p = s.maskBit p := rfl

@[simp] theorem accessFault_withFlags (a : Word) (kind : AccessKind) (seg : Seg) :
    (s.withFlags r m).accessFault a kind seg = s.accessFault a kind seg := rfl

@[simp] theorem accessStop_withFlags (a : Word) (kind : AccessKind) (seg : Seg) :
    (s.withFlags r m).accessStop a kind seg = s.accessStop a kind seg := rfl

@[simp] theorem probeStop_withFlags (a : Word) (kind : AccessKind) (seg : Seg) :
    (s.withFlags r m).probeStop a kind seg = s.probeStop a kind seg := rfl

theorem legacyChecks_withFlags (h : Head) :
    legacyChecks h (s.withFlags r m) = legacyChecks h s := rfl

theorem vexChecks_withFlags (isMem : Bool) (h : Head) (p : Vex) :
    vexChecks isMem h p (s.withFlags r m) = vexChecks isMem h p s := rfl

theorem evexChecks_withFlags (isMem isStore : Bool) (h : Head) (p : Evex) :
    evexChecks isMem isStore h p (s.withFlags r m) = evexChecks isMem isStore h p s := rfl

/-- The linear address of an operand is computed from general registers, segment bases and `pc`. -/
theorem operand_withFlags (h : Head) (x b : Bool) (n : Word) (ilen : Nat) (mf : MemForm) :
    (s.withFlags r m).operand h x b n ilen mf = s.operand h x b n ilen mf := rfl

theorem legacyOperand_withFlags (h : Head) (mf : MemForm) (ilen : Nat) :
    legacyOperand h mf ilen (s.withFlags r m) = legacyOperand h mf ilen s :=
  operand_withFlags ..

theorem vexOperand_withFlags (h : Head) (p : Vex) (mf : MemForm) (ilen : Nat) :
    vexOperand h p mf ilen (s.withFlags r m) = vexOperand h p mf ilen s :=
  operand_withFlags ..

theorem evexOperand_withFlags (h : Head) (p : Evex) (mf : MemForm) (ilen : Nat) :
    evexOperand h p mf ilen (s.withFlags r m) = evexOperand h p mf ilen s :=
  operand_withFlags ..

/-! ## What a form does to the state -/

@[simp] theorem advance_withFlags (n : Nat) :
    (s.withFlags r m).advance n = (s.advance n).withFlags r m := rfl

@[simp] theorem write32_withFlags (a : Word) (d : DWord) :
    (s.withFlags r m).write32 a d = (s.write32 a d).withFlags r m := rfl

@[simp] theorem mergeLow_withFlags (d src : VReg) :
    (s.withFlags r m).mergeLow d src = (s.mergeLow d src).withFlags r m := rfl

@[simp] theorem loadKeepUpper_withFlags (d : VReg) (t : DWord) :
    (s.withFlags r m).loadKeepUpper d t = (s.loadKeepUpper d t).withFlags r m := rfl

@[simp] theorem mergeZeroUpper_withFlags (d s1 : VReg) (t : DWord) :
    (s.withFlags r m).mergeZeroUpper d s1 t = (s.mergeZeroUpper d s1 t).withFlags r m := rfl

@[simp] theorem loadZeroUpper_withFlags (d : VReg) (t : DWord) :
    (s.withFlags r m).loadZeroUpper d t = (s.loadZeroUpper d t).withFlags r m := rfl

/-- Whether a masked-off access takes a choice does not depend on the flags. -/
@[simp] theorem afterProbe_withFlags (a : Word) (kind : AccessKind) (seg : Seg) :
    (s.withFlags r m).afterProbe a kind seg = (s.afterProbe a kind seg).withFlags r m := by
  unfold State.afterProbe
  rw [accessFault_withFlags, withFlags_cfg]
  split
  · rfl
  · split <;> rfl

/-! ## The shared meanings -/

variable (stop : Option Stop) (p : Evex) (o : MemOperand) (d s1 s2 src : VReg) (n : Nat)

theorem moveLegacy_withFlags :
    moveLegacy stop d src n (s.withFlags r m) =
      mapNext (State.withFlags r m) (moveLegacy stop d src n s) := by
  simp [moveLegacy]

theorem moveVex_withFlags :
    moveVex stop d s1 s2 n (s.withFlags r m) =
      mapNext (State.withFlags r m) (moveVex stop d s1 s2 n s) := by
  simp [moveVex]

theorem moveEvex_withFlags :
    moveEvex stop p d s1 s2 n (s.withFlags r m) =
      mapNext (State.withFlags r m) (moveEvex stop p d s1 s2 n s) := by
  simp [moveEvex]

theorem loadLegacy_withFlags :
    loadLegacy stop o d n (s.withFlags r m) =
      mapNext (State.withFlags r m) (loadLegacy stop o d n s) := by
  simp [loadLegacy]

theorem loadVex_withFlags :
    loadVex stop o d n (s.withFlags r m) =
      mapNext (State.withFlags r m) (loadVex stop o d n s) := by
  simp [loadVex]

theorem storeLow_withFlags :
    storeLow stop o src n (s.withFlags r m) =
      mapNext (State.withFlags r m) (storeLow stop o src n s) := by
  simp [storeLow]

theorem loadEvex_withFlags :
    loadEvex stop p o d n (s.withFlags r m) =
      mapNext (State.withFlags r m) (loadEvex stop p o d n s) := by
  cases hb : s.maskBit p <;> simp [loadEvex, hb]

theorem storeEvex_withFlags :
    storeEvex stop p o src n (s.withFlags r m) =
      mapNext (State.withFlags r m) (storeEvex stop p o src n s) := by
  cases hb : s.maskBit p <;> simp [storeEvex, hb, storeLow_withFlags]

/-! ## Every form -/

/-- Each form is its preamble, its operand and one shared meaning, none of which consults the flags. -/
theorem exec_withFlags (i : Instr) :
    exec i (s.withFlags r m) = mapNext (State.withFlags r m) (exec i s) := by
  cases i with
  | l10rr h reg rm =>
    simp only [exec, execL10rr, legacyChecks_withFlags, moveLegacy_withFlags]
  | l11rr h reg rm =>
    simp only [exec, execL11rr, legacyChecks_withFlags, moveLegacy_withFlags]
  | l10rm h reg mf =>
    simp only [exec, execL10rm, legacyChecks_withFlags, legacyOperand_withFlags, loadLegacy_withFlags]
  | l11mr h reg mf =>
    simp only [exec, execL11mr, legacyChecks_withFlags, legacyOperand_withFlags, storeLow_withFlags]
  | v10rr h p reg rm =>
    simp only [exec, execV10rr, vexChecks_withFlags, moveVex_withFlags]
  | v11rr h p reg rm =>
    simp only [exec, execV11rr, vexChecks_withFlags, moveVex_withFlags]
  | v10rm h p reg mf =>
    simp only [exec, execV10rm, vexChecks_withFlags, vexOperand_withFlags, loadVex_withFlags]
  | v11mr h p reg mf =>
    simp only [exec, execV11mr, vexChecks_withFlags, vexOperand_withFlags, storeLow_withFlags]
  | e10rr h p reg rm =>
    simp only [exec, execE10rr, evexChecks_withFlags, moveEvex_withFlags]
  | e11rr h p reg rm =>
    simp only [exec, execE11rr, evexChecks_withFlags, moveEvex_withFlags]
  | e10rm h p reg mf =>
    simp only [exec, execE10rm, evexChecks_withFlags, evexOperand_withFlags, loadEvex_withFlags]
  | e11mr h p reg mf =>
    simp only [exec, execE11mr, evexChecks_withFlags, evexOperand_withFlags, storeEvex_withFlags]

end

/-- Settles O42: reads and effects of every form are the same up to the RFLAGS and MXCSR held. -/
theorem flagRegistersAreNeverConsulted : Obligations.FlagRegistersAreNeverConsulted := by
  intro i s rflags mxcsr
  exact exec_withFlags rflags mxcsr s i

end Sys2Proof.Machine

/-! PROOF. What every step keeps: the control state, every vector register but the destination, and the
invariant of the machine; and how far it moves `pc` (R20, R22, R23, R26 to R28, R41, R53). -/

namespace Sys2Proof.Machine

/-! ## Where the bytes of an instruction lie -/

/-- An instruction in range does not wrap, and its bytes and the address after it are canonical (log 14). -/
theorem fetchInRange_iff (s : State) (n : Nat) :
    s.fetchInRange n = true ↔ s.pc.toNat + n < 2 ^ 64 ∧
      ∀ k ≤ n, canonical s.cfg.linearWidth (s.pc + BitVec.ofNat 64 k) = true := by
  simp [State.fetchInRange, accessBytes, Nat.lt_succ_iff]

/-- An access touches regions where one of its bytes lies in one of them. -/
theorem touches_iff (regions : List Region) (a : Word) (n : Nat) :
    touches regions a n = true ↔ ∃ k < n, ∃ r ∈ regions,
      r.first ≤ (a + BitVec.ofNat 64 k).toNat ∧ (a + BitVec.ofNat 64 k).toNat ≤ r.last := by
  simp only [touches, accessBytes, List.any_map, List.any_eq_true, List.mem_range, Function.comp_apply,
    Bool.and_eq_true, decide_eq_true_eq]

/-! ## The invariant under each update of the state -/

section
variable {s : State}

/-- A vector register written through `writeVec` stays in its width; 16 to 31 are written only where they
exist. -/
theorem State.Inv.writeVec (h : s.Inv) (d : VReg) (w : Vec)
    (hd : d.toNat < 16 ∨ s.cfg.features.avx512f = true) : (s.writeVec d w).Inv where
  memWf := h.memWf
  storedOk := h.storedOk
  vecWidth i := by
    by_cases hi : i = d
    · subst hi
      simp
    · have hne : d.toNat ≠ i.toNat := fun e => hi (BitVec.eq_of_toNat_eq e.symm)
      rw [readVec_writeVec_other s w hi, h.vecWidth i]
      simp [Vector.getElem_set_ne _ _ hne]
  maskWidth := h.maskWidth
  absentVecs hf i hi := by
    have hlow : d.toNat < 16 := hd.resolve_right (by simpa using hf)
    have hne : i ≠ d := by rintro rfl; omega
    rw [readVec_writeVec_other s w hne]
    exact h.absentVecs hf i hi
  pcCanonical := h.pcCanonical

/-- A state with the same registers and configuration meets the invariant where its memory, its stored
addresses and its `pc` do. -/
theorem State.Inv.of_sameRegs {t : State} (h : s.Inv) (hv : t.v = s.v) (hk : t.k = s.k)
    (hcfg : t.cfg = s.cfg) (hmem : t.mem.wf = true) (hstored : storedWf t.stored = true)
    (hpc : canonical s.cfg.linearWidth t.pc = true) : t.Inv where
  memWf := hmem
  storedOk := hstored
  vecWidth := by simpa [State.readVec, hv, hcfg] using h.vecWidth
  maskWidth := by simpa [hk, hcfg] using h.maskWidth
  absentVecs := by simpa [State.readVec, hv, hcfg] using h.absentVecs
  pcCanonical := by rwa [hcfg]

theorem State.Inv.write32 (h : s.Inv) (a : Word) (t : DWord) : (s.write32 a t).Inv :=
  h.of_sameRegs (write32_v a t s) (write32_k a t s) (write32_cfg a t s) (write32_mem_wf s a t h.memWf)
    (write32_stored_wf s a t h.storedOk) (by simpa using h.pcCanonical)

/-- A masked-off access changes the counter of choices alone, of which the invariant says nothing. -/
theorem State.Inv.afterProbe (h : s.Inv) (a : Word) (kind : AccessKind) (seg : Seg) :
    (s.afterProbe a kind seg).Inv :=
  h.of_sameRegs (by simp) (by simp) (by simp) (by simpa using h.memWf) (by simpa using h.storedOk)
    (by simpa using h.pcCanonical)

theorem State.Inv.advance (h : s.Inv) (n : Nat)
    (hpc : canonical s.cfg.linearWidth (s.pc + BitVec.ofNat 64 n) = true) : (s.advance n).Inv :=
  h.of_sameRegs rfl rfl rfl h.memWf h.storedOk hpc

end

/-- Every effect keeps the invariant, the address it moves `pc` to being canonical. -/
theorem Effect.keepsInv {n : Nat} {s t : State} (h : Effect n s t) (hs : s.Inv)
    (hpc : canonical s.cfg.linearWidth (s.pc + BitVec.ofNat 64 n) = true) : t.Inv := by
  cases h with
  | mergeLow d src hd => exact (hs.writeVec d _ (.inl hd)).advance n hpc
  | loadKeepUpper d t hd => exact (hs.writeVec d _ (.inl hd)).advance n hpc
  | mergeZeroUpper d s1 t hd => exact (hs.writeVec d _ hd).advance n hpc
  | loadZeroUpper d t hd => exact (hs.writeVec d _ hd).advance n hpc
  | loadMasked o d t hf =>
    refine ((hs.afterProbe _ _ _).writeVec d _ (.inr ?_)).advance n ?_
    · simpa using hf
    · simpa using hpc
  | store a t => exact (hs.write32 a t).advance n (by simpa using hpc)
  | storeMasked o => exact (hs.afterProbe _ _ _).advance n (by simpa using hpc)

/-- Settles O55: the fetch finds the address after the instruction canonical, and every effect a form can
have keeps the rest. -/
theorem everyStepKeepsTheInvariant : Obligations.EveryStepKeepsTheInvariant := by
  intro s t hs h
  obtain ⟨i, hfetch, hexec⟩ := step_next s t h
  obtain ⟨-, -, hrange, -, -⟩ := fetch_instr s i hfetch
  obtain ⟨-, hcanon⟩ := (fetchInRange_iff s i.ilen).mp hrange
  exact (exec_effect i s t hexec).keepsInv hs (hcanon i.ilen le_rfl)

/-! ## `pc`, the control state and the other registers -/

/-- Settles O36, by what every form does to `pc`, read as a number. -/
theorem everyCompletedFormAdvancesPc : Obligations.EveryCompletedFormAdvancesPc := by
  intro i s t h
  rw [exec_pc i s t h, BitVec.toNat_add, BitVec.toNat_ofNat, Nat.add_mod_mod]

/-- Settles O37: a step is the effect of a form, and no effect touches the control state. -/
theorem noStepChangesControlState : Obligations.NoStepChangesControlState := by
  intro s t h
  obtain ⟨i, -, hexec⟩ := step_next s t h
  exact Effect.keepsControl _ _ _ (exec_effect i s t hexec)

/-- A form that completes leaves every vector register that is not its destination (R22). -/
theorem exec_readVec_of_not_dest (i : Instr) (s t : State) (j : VReg) (h : exec i s = .next t)
    (hj : ∀ d, destReg i = some d → j ≠ d) : t.readVec j = s.readVec j := by
  cases i with
  | l10rr | l11rr =>
    obtain ⟨-, rfl⟩ := (moveLegacy_next ..).mp h
    exact readVec_mergeLow_other s _ (hj _ rfl)
  | l10rm =>
    obtain ⟨-, rfl⟩ := (loadLegacy_next ..).mp h
    exact readVec_loadKeepUpper_other s _ (hj _ rfl)
  | v10rr | v11rr =>
    obtain ⟨-, rfl⟩ := (moveVex_next ..).mp h
    exact readVec_mergeZeroUpper_other s _ _ (hj _ rfl)
  | v10rm =>
    obtain ⟨-, rfl⟩ := (loadVex_next ..).mp h
    exact readVec_loadZeroUpper_other s _ (hj _ rfl)
  | l11mr | v11mr =>
    obtain ⟨-, rfl⟩ := (storeLow_next ..).mp h
    exact keepsVecs_write32 s _ _ _ j
  | e10rr | e11rr =>
    obtain ⟨-, rfl⟩ := (moveEvex_next ..).mp h
    exact readVec_mergeZeroUpper_other s _ _ (hj _ rfl)
  | e10rm =>
    rcases (loadEvex_next ..).mp h with ⟨-, -, -, rfl⟩ | ⟨-, -, -, rfl⟩
    · exact readVec_loadZeroUpper_other s _ (hj _ rfl)
    · rw [readVec_advance, readVec_loadZeroUpper_other _ _ (hj _ rfl), readVec_afterProbe]
  | e11mr =>
    rcases (storeEvex_next ..).mp h with ⟨-, -, -, rfl⟩ | ⟨-, -, -, rfl⟩
    · exact keepsVecs_write32 s _ _ _ j
    · rw [readVec_advance, readVec_afterProbe]

/-- Settles O38: a store has no destination, so no register is one. -/
theorem onlyTheDestinationRegisterChanges : Obligations.OnlyTheDestinationRegisterChanges := by
  intro i s t h
  refine ⟨fun d hd j hj => exec_readVec_of_not_dest i s t j h fun d' hd' => ?_,
    fun hnone j => exec_readVec_of_not_dest i s t j h fun d hd => ?_⟩
  · obtain rfl : d = d' := Option.some.inj (hd.symm.trans hd')
    exact hj
  · simp [hnone] at hd

/-! ## Bit 0 of the mask registers -/

/-- The same state with another mask file. -/
def State.withMasks (k : Vector KMask 8) (s : State) : State :=
  { s with k := k }

section
variable (k : Vector KMask 8) (s : State) (stop : Option Stop) (p : Evex) (o : MemOperand)
  (d s1 s2 src : VReg) (n : Nat)

/-- Whether a masked-off access takes a choice does not depend on the masks. -/
theorem afterProbe_withMasks (a : Word) (kind : AccessKind) (seg : Seg) :
    (s.withMasks k).afterProbe a kind seg = (s.afterProbe a kind seg).withMasks k := by
  have hf : (s.withMasks k).accessFault a kind seg = s.accessFault a kind seg := rfl
  have hc : (s.withMasks k).cfg = s.cfg := rfl
  unfold State.afterProbe
  rw [hf, hc]
  split
  · rfl
  · split <;> rfl

/-! ### The meanings without a writemask -/

theorem moveLegacy_withMasks : moveLegacy stop d src n (s.withMasks k) =
    mapNext (State.withMasks k) (moveLegacy stop d src n s) := by
  rw [moveLegacy, moveLegacy, mapNext_finish]; rfl

theorem moveVex_withMasks : moveVex stop d s1 s2 n (s.withMasks k) =
    mapNext (State.withMasks k) (moveVex stop d s1 s2 n s) := by
  rw [moveVex, moveVex, mapNext_finish]; rfl

theorem loadLegacy_withMasks : loadLegacy stop o d n (s.withMasks k) =
    mapNext (State.withMasks k) (loadLegacy stop o d n s) := by
  rw [loadLegacy, loadLegacy, mapNext_finish]; rfl

theorem loadVex_withMasks : loadVex stop o d n (s.withMasks k) =
    mapNext (State.withMasks k) (loadVex stop o d n s) := by
  rw [loadVex, loadVex, mapNext_finish]; rfl

theorem storeLow_withMasks : storeLow stop o src n (s.withMasks k) =
    mapNext (State.withMasks k) (storeLow stop o src n s) := by
  rw [storeLow, storeLow, mapNext_finish]; rfl

/-! ### The meanings under a writemask -/

variable {k s}
variable (hk : ∀ a : BitVec 3, (k[a.toNat]'a.isLt).testBit 0 = (s.k[a.toNat]'a.isLt).testBit 0)
include hk

/-- The mask bit is bit 0 of a mask register, or 1 without a writemask (R72). -/
theorem maskBit_withMasks : (s.withMasks k).maskBit p = s.maskBit p := by
  simp only [State.maskBit, readMask_bit_zero, State.withMasks, hk]

theorem moveEvex_withMasks : moveEvex stop p d s1 s2 n (s.withMasks k) =
    mapNext (State.withMasks k) (moveEvex stop p d s1 s2 n s) := by
  rw [moveEvex, moveEvex, mapNext_finish, maskBit_withMasks p hk]; rfl

theorem loadEvex_withMasks : loadEvex stop p o d n (s.withMasks k) =
    mapNext (State.withMasks k) (loadEvex stop p o d n s) := by
  rw [loadEvex, loadEvex, maskBit_withMasks p hk]
  split
  · exact loadVex_withMasks k s stop o d n
  · rw [mapNext_finish, afterProbe_withMasks]; rfl

theorem storeEvex_withMasks : storeEvex stop p o src n (s.withMasks k) =
    mapNext (State.withMasks k) (storeEvex stop p o src n s) := by
  rw [storeEvex, storeEvex, maskBit_withMasks p hk]
  split
  · exact storeLow_withMasks k s stop o src n
  · rw [mapNext_finish, afterProbe_withMasks]; rfl

/-- Each form is a preamble and an operand, which do not read the masks, and one of the meanings above. -/
theorem exec_withMasks (i : Instr) :
    exec i (s.withMasks k) = mapNext (State.withMasks k) (exec i s) := by
  cases i with
  | l10rr h reg rm => exact moveLegacy_withMasks k s (legacyChecks h s) ..
  | l11rr h reg rm => exact moveLegacy_withMasks k s (legacyChecks h s) ..
  | l10rm h reg m => exact loadLegacy_withMasks k s (legacyChecks h s) (legacyOperand h m _ s) ..
  | l11mr h reg m => exact storeLow_withMasks k s (legacyChecks h s) (legacyOperand h m _ s) ..
  | v10rr h p reg rm => exact moveVex_withMasks k s (vexChecks false h p s) ..
  | v11rr h p reg rm => exact moveVex_withMasks k s (vexChecks false h p s) ..
  | v10rm h p reg m => exact loadVex_withMasks k s (vexChecks true h p s) (vexOperand h p m _ s) ..
  | v11mr h p reg m => exact storeLow_withMasks k s (vexChecks true h p s) (vexOperand h p m _ s) ..
  | e10rr h p reg rm => exact moveEvex_withMasks (evexChecks false false h p s) p _ _ _ _ hk
  | e11rr h p reg rm => exact moveEvex_withMasks (evexChecks false false h p s) p _ _ _ _ hk
  | e10rm h p reg m =>
    exact loadEvex_withMasks (evexChecks true false h p s) p (evexOperand h p m _ s) _ _ hk
  | e11mr h p reg m =>
    exact storeEvex_withMasks (evexChecks true true h p s) p (evexOperand h p m _ s) _ _ hk

end

/-- Settles O43: the mask bit is all a form reads of the mask file, and it writes none of it. -/
theorem onlyBitZeroOfAMaskRegisterMatters : Obligations.OnlyBitZeroOfAMaskRegisterMatters := by
  intro i s k hk
  exact exec_withMasks hk i

/-! ## Refusals of the fetch -/

theorem step_of_fetch_refuse (s : State) (r : Refusal) (h : s.fetch = .refuse r) :
    step s = .refused r := by
  rw [step, h]

/-- Settles O9: the range is tested before the admission, each over all bytes of the instruction. -/
theorem stepRefusesCodeThatLeavesTheCanonicalRange :
    Obligations.StepRefusesCodeThatLeavesTheCanonicalRange := by
  intro s i n rest hm hd
  have hfetch := fetch_of_decode s i n rest hm hd
  refine ⟨fun hout => step_of_fetch_refuse s _ ?_, fun hin k hk r hr hlo hhi =>
    step_of_fetch_refuse s _ ?_⟩
  · have hrange : s.fetchInRange i.ilen = false := by
      rw [Bool.eq_false_iff, ne_eq, fetchInRange_iff]
      rintro ⟨hlt, hcanon⟩
      rcases hout with hwrap | ⟨k, hk, hnc⟩
      · omega
      · simp [hcanon k hk] at hnc
    simpa [hrange] using hfetch
  · have hadm : s.codeAdmitted i.ilen = false := by
      simpa only [State.codeAdmitted, Bool.not_eq_false', touches_iff] using ⟨k, hk, r, hr, hlo, hhi⟩
    simpa [hin, hadm] using hfetch

/-! ## The control registers behind the switches -/

/-- A field of a register is all ones when each of its bits is 1. -/
theorem extractLsb'_eq_allOnes_iff {w : Nat} (x : BitVec w) (lo len : Nat) :
    x.extractLsb' lo len = BitVec.allOnes len ↔ ∀ i < len, x.getLsbD (lo + i) = true := by
  constructor
  · intro h i hi
    simpa [hi] using congrArg (BitVec.getLsbD · i) h
  · intro h
    apply BitVec.eq_of_getLsbD_eq
    intro i hi
    simp [hi, h i hi]

theorem enabled_legacySse_iff (r : SystemRegs) :
    r.enabled.legacySse = true ↔ r.cr0.getLsbD 2 = false ∧ r.cr4.getLsbD 9 = true := by
  simp [SystemRegs.enabled]

theorem enabled_vex_iff (r : SystemRegs) :
    r.enabled.vex = true ↔
      r.cr4.getLsbD 18 = true ∧ r.xcr0.getLsbD 1 = true ∧ r.xcr0.getLsbD 2 = true := by
  have h := extractLsb'_eq_allOnes_iff r.xcr0 1 2
  simp only [Nat.forall_lt_succ_right, Nat.not_lt_zero, false_imp_iff, implies_true, true_and] at h
  rw [SystemRegs.enabled, Bool.and_eq_true, beq_iff_eq]
  exact and_congr_right fun _ => h

theorem enabled_evex_iff (r : SystemRegs) :
    r.enabled.evex = true ↔ r.enabled.vex = true ∧
      r.xcr0.getLsbD 5 = true ∧ r.xcr0.getLsbD 6 = true ∧ r.xcr0.getLsbD 7 = true := by
  have h := extractLsb'_eq_allOnes_iff r.xcr0 5 3
  simp only [Nat.forall_lt_succ_right, Nat.not_lt_zero, false_imp_iff, implies_true, true_and,
    and_assoc] at h
  rw [SystemRegs.enabled, Bool.and_eq_true, beq_iff_eq]
  exact and_congr_right fun _ => h

/-- Steps 2 to 5 of R162 enable every class whatever the registers held. -/
theorem boot_enabled (r : SystemRegs) : r.boot.enabled = ⟨true, true, true⟩ := by
  have hsse : r.boot.enabled.legacySse = true := by
    rw [enabled_legacySse_iff]
    simp [SystemRegs.boot]
  have hvex : r.boot.enabled.vex = true := by
    rw [enabled_vex_iff]
    simp [SystemRegs.boot]
  have hevex : r.boot.enabled.evex = true := by
    refine (enabled_evex_iff _).mpr ⟨hvex, ?_⟩
    simp [SystemRegs.boot]
  exact (Enabled.mk.injEq ..).mpr ⟨hsse, hvex, hevex⟩

/-- Settles O59: the fields of R30's table bit by bit, and R162's masks over any contents. -/
theorem enabledFollowsTheControlRegisters : Obligations.EnabledFollowsTheControlRegisters := by
  intro r
  exact ⟨enabled_legacySse_iff r, enabled_vex_iff r, enabled_evex_iff r, rfl, boot_enabled r,
    by simp [SystemRegs.boot, SystemRegs.ts]⟩

end Sys2Proof.Machine

/-! PROOF. Memory: the bytes of a doubleword, what a completed form stores and leaves (R41, R43, R45), the
refusal of a device access (log 16), and the refusal of code that was stored to (R53, log 15). -/

namespace Sys2Proof.Machine

/-! ## The bytes of a doubleword -/

/-- The byte at offset `k` of a stored doubleword is its bits `8k+7:8k`. -/
theorem byteAt_write32_offset (s : State) (a : Word) (d : DWord) (k : Nat) (hk : k < 4) :
    (s.write32 a d).byteAt (a + BitVec.ofNat 64 k) = d.extractLsb' (8 * k) 8 := by
  obtain ⟨h0, h1, h2, h3⟩ := byteAt_write32_bytes s a d
  match k, hk with
  | 0, _ => rw [BitVec.add_zero]; exact h0
  | 1, _ => exact h1
  | 2, _ => exact h2
  | 3, _ => exact h3

/-- A byte before the three high bytes of a doubleword, which come together to its bits 31:8. -/
theorem append_highBytes (b : Byte) (d : DWord) :
    b ++ d.extractLsb' 24 8 ++ d.extractLsb' 16 8 ++ d.extractLsb' 8 8 = b ++ d.extractLsb' 8 24 := by
  have hhigh : d.extractLsb' 16 8 ++ d.extractLsb' 8 8 = d.extractLsb' 8 16 :=
    BitVec.extractLsb'_append_extractLsb'_eq_extractLsb' rfl
  have hall : d.extractLsb' 24 8 ++ d.extractLsb' 8 16 = d.extractLsb' 8 24 :=
    BitVec.extractLsb'_append_extractLsb'_eq_extractLsb' rfl
  rw [← hall, ← hhigh]
  simp only [BitVec.append_assoc, BitVec.cast_eq]

/-- A load one byte above a store sees the byte after the store and the three high bytes stored. -/
theorem read32_write32_succ (s : State) (a : Word) (d : DWord) :
    (s.write32 a d).read32 (a + 1#64) = s.byteAt (a + 4#64) ++ d.extractLsb' 8 24 := by
  obtain ⟨-, h1, h2, h3⟩ := byteAt_write32_bytes s a d
  have h4 : (s.write32 a d).byteAt (a + 4#64) = s.byteAt (a + 4#64) :=
    byteAt_write32_other s a _ d (by simp [accessBytes_four])
  have e2 : a + 1#64 + 1#64 = a + 2#64 := BitVec.add_assoc ..
  have e3 : a + 1#64 + 2#64 = a + 3#64 := BitVec.add_assoc ..
  have e4 : a + 1#64 + 3#64 = a + 4#64 := BitVec.add_assoc ..
  rw [State.read32, e2, e3, e4, h1, h2, h3, h4]
  exact append_highBytes _ d

/-- Settles O47: each byte of a doubleword is written at its own address, and read back from there. -/
theorem doublewordsAreLittleEndian : Obligations.DoublewordsAreLittleEndian := by
  intro s a d
  exact ⟨rfl, byteAt_write32_offset s a d, read32_write32 s a d, read32_write32_succ s a d⟩

/-! ## What a completed form stores -/

/-- A completed form whose operand is written to, and whose access is made, has stored its source. -/
theorem exec_next_of_store (i : Instr) (s t : State) (o : MemOperand) (h : exec i s = .next t)
    (hm : memOperand i s = some (o, .write)) (ha : AccessMade i s) :
    ∃ src, storeSource i = some src ∧
      t = (s.write32 o.addr (lowDword (s.readVec src))).advance i.ilen := by
  cases i <;> cases hm
  case l11mr | v11mr =>
    obtain ⟨-, ht⟩ := (storeLow_next ..).mp h
    exact ⟨_, rfl, ht⟩
  case e11mr =>
    rcases (storeEvex_next ..).mp h with ⟨-, -, -, ht⟩ | ⟨hoff, -, -, -⟩
    · exact ⟨_, rfl, ht⟩
    · exact absurd ((maskBit_iff_maskOn ..).mpr ha) (by simp [hoff])

/-- A completed form that makes no store leaves memory, and what counts as stored, as they were. -/
theorem exec_mem_of_no_store (i : Instr) (s t : State) (h : exec i s = .next t)
    (hno : ∀ o, memOperand i s = some (o, .write) → ¬ AccessMade i s) :
    t.mem = s.mem ∧ t.stored = s.stored := by
  cases i with
  | l10rr | l11rr =>
    obtain ⟨-, rfl⟩ := (moveLegacy_next ..).mp h
    simp
  | v10rr | v11rr =>
    obtain ⟨-, rfl⟩ := (moveVex_next ..).mp h
    simp
  | e10rr | e11rr =>
    obtain ⟨-, rfl⟩ := (moveEvex_next ..).mp h
    simp
  | l10rm =>
    obtain ⟨-, rfl⟩ := (loadLegacy_next ..).mp h
    simp
  | v10rm =>
    obtain ⟨-, rfl⟩ := (loadVex_next ..).mp h
    simp
  | e10rm =>
    rcases (loadEvex_next ..).mp h with ⟨-, -, -, rfl⟩ | ⟨-, -, -, rfl⟩ <;> simp
  | l11mr | v11mr => exact absurd trivial (hno _ rfl)
  | e11mr h' p reg m =>
    rcases (storeEvex_next ..).mp h with ⟨hon, -, -, -⟩ | ⟨-, -, -, rfl⟩
    · exact absurd ((maskBit_iff_maskOn p s).mp hon) (hno _ rfl)
    · simp

/-- Settles O39: a store that is made writes its four bytes, and no other form touches memory. -/
theorem memoryChangesOnlyInTheStoredBytes : Obligations.MemoryChangesOnlyInTheStoredBytes := by
  intro i s t h
  refine ⟨fun o hm ha => ?_, fun hno => ?_⟩
  · obtain ⟨src, -, rfl⟩ := exec_next_of_store i s t o h hm ha
    exact keepsMemBut_write32 s o.addr _ _
  · obtain ⟨hmem, hstored⟩ := exec_mem_of_no_store i s t h hno
    exact keepsMem_of_eq s t hmem hstored

/-! ## Device accesses -/

theorem accessStop_of_touchesDevice (s : State) (a : Word) (kind : AccessKind) (seg : Seg)
    (h : s.touchesDevice a = true) : s.accessStop a kind seg = some (.refuse .deviceAccess) := by
  rw [State.accessStop, if_pos h]

/-- Settles O53: a form that passes its preamble ends as its access does, which stops at the device. -/
theorem deviceAccessIsRefused : Obligations.DeviceAccessIsRefused := by
  intro i s o k hready hm ha hdev
  obtain ⟨t, hexec⟩ := exec_accessMade i s o k hready hm ha
  rw [hexec, finish_eq_refused]
  exact accessStop_of_touchesDevice s o.addr k o.seg hdev

/-! ## Code that was stored to -/

/-- What counts as stored still does after a completed form: a store adds to it, nothing takes from it. -/
theorem exec_stored_subset (i : Instr) (s t : State) (h : exec i s = .next t) :
    s.stored ⊆ t.stored := by
  intro n hn
  by_cases hno : ∀ o, memOperand i s = some (o, .write) → ¬ AccessMade i s
  · obtain ⟨-, hstored⟩ := exec_mem_of_no_store i s t h hno
    rwa [hstored]
  · push Not at hno
    obtain ⟨o, hm, ha⟩ := hno
    obtain ⟨src, -, rfl⟩ := exec_next_of_store i s t o h hm ha
    rw [advance_stored, write32_mem_stored]
    exact .inr hn

/-- Code is modified where one of its bytes counts as stored. -/
theorem codeModified_iff (s : State) (n : Nat) :
    s.codeModified n = true ↔ ∃ k < n, (s.pc + BitVec.ofNat 64 k).toNat ∈ s.stored := by
  simp [State.codeModified, accessBytes]

/-- Settles O10: a store notes its four bytes, completed forms keep what is noted, and the fetch asks for
each byte of the instruction. -/
theorem stepRefusesCodeTheRunHasStoredTo : Obligations.StepRefusesCodeTheRunHasStoredTo := by
  refine ⟨fun i s t o a h hm ha hin => ?_, fun i s t n h hn => exec_stored_subset i s t h hn,
    fun s i n rest k hmode hd hrange hadm hk hstored => step_of_fetch_refuse s _ ?_⟩
  · obtain ⟨src, -, rfl⟩ := exec_next_of_store i s t o h hm ha
    rw [advance_stored, write32_mem_stored]
    exact .inl ⟨a, hin, rfl⟩
  · have hmod : s.codeModified i.ilen = true := (codeModified_iff s _).mpr ⟨k, hk, hstored⟩
    simpa [hrange, hadm, hmod] using fetch_of_decode s i n rest hmode hd

end Sys2Proof.Machine

/-! PROOF. The encoding: what decodes is what was encoded (R61 to R82, R90), which row of the opcode table
its bytes fit (R81), and what is read where the decoder finds no form. -/

namespace Sys2Proof

/-! ## The class part of an encoding

An encoding is a head, the bytes of its class, an opcode byte, and ModRM with what it announces. The class
part is the only one that differs between the classes, so both directions of the round trip speak of it. -/

/-- What stands between the head and the opcode byte: the escape byte, or the VEX or EVEX bytes (R61). -/
inductive ClassPart where
  | legacy
  | vex (p : Vex)
  | evex (p : Evex)

namespace ClassPart

/-- Its bytes. -/
def encode : ClassPart → List Byte
  | .legacy => [0x0F#8]
  | .vex p => p.encode
  | .evex p => p.encode

/-- Whether it can be spelled after a head. -/
def wf (h : Head) : ClassPart → Bool
  | .legacy => h.wfLegacy
  | .vex p => p.wf
  | .evex _ => true

/-- The forms of the class, by opcode byte and operands (R81). -/
def form (h : Head) : ClassPart → Byte → BitVec 3 → RegMem → Instr
  | .legacy => legacyForm h
  | .vex p => vexForm h p
  | .evex p => evexForm h p

/-- The encoding of a form, part by part. -/
theorem encode_form (c : ClassPart) (h : Head) (op : Byte) (reg : BitVec 3) (o : RegMem)
    (hop : isMovssOp op = true) :
    Sys2Proof.encode (c.form h op reg o) = h.encode ++ (c.encode ++ op :: o.encode reg) := by
  rcases isMovssOp_cases op hop with rfl | rfl <;> cases c <;> cases o <;>
    simp [form, legacyForm, vexForm, evexForm, Sys2Proof.encode, encode, RegMem.encode]

/-- A form is well-formed when its class part and its operand are. -/
theorem wf_form (c : ClassPart) (h : Head) (op : Byte) (reg : BitVec 3) (o : RegMem) :
    (c.form h op reg o).wf = (c.wf h && o.wf) := by
  cases c <;> cases o <;> simp only [form, legacyForm, vexForm, evexForm] <;> split <;>
    simp [Instr.wf, wf, RegMem.wf]

/-- Every instruction is a form of one of the classes. -/
theorem exists_form (i : Instr) :
    ∃ (c : ClassPart) (h : Head) (op : Byte) (reg : BitVec 3) (o : RegMem), isMovssOp op = true ∧
      i = c.form h op reg o := by
  cases i with
  | l10rr h reg rm => exact ⟨.legacy, h, 0x10#8, reg, .reg rm, rfl, rfl⟩
  | l10rm h reg m => exact ⟨.legacy, h, 0x10#8, reg, .mem m, rfl, rfl⟩
  | l11rr h reg rm => exact ⟨.legacy, h, 0x11#8, reg, .reg rm, rfl, rfl⟩
  | l11mr h reg m => exact ⟨.legacy, h, 0x11#8, reg, .mem m, rfl, rfl⟩
  | v10rr h p reg rm => exact ⟨.vex p, h, 0x10#8, reg, .reg rm, rfl, rfl⟩
  | v10rm h p reg m => exact ⟨.vex p, h, 0x10#8, reg, .mem m, rfl, rfl⟩
  | v11rr h p reg rm => exact ⟨.vex p, h, 0x11#8, reg, .reg rm, rfl, rfl⟩
  | v11mr h p reg m => exact ⟨.vex p, h, 0x11#8, reg, .mem m, rfl, rfl⟩
  | e10rr h p reg rm => exact ⟨.evex p, h, 0x10#8, reg, .reg rm, rfl, rfl⟩
  | e10rm h p reg m => exact ⟨.evex p, h, 0x10#8, reg, .mem m, rfl, rfl⟩
  | e11rr h p reg rm => exact ⟨.evex p, h, 0x11#8, reg, .reg rm, rfl, rfl⟩
  | e11mr h p reg m => exact ⟨.evex p, h, 0x11#8, reg, .mem m, rfl, rfl⟩

/-- The first byte of a class part is neither REX nor one of R62's bytes, so the head ends before it. -/
theorem encode_head (c : ClassPart) :
    ∃ b bs, c.encode = b :: bs ∧ Pfx.ofByte b = none ∧ Rex.ofByte b = none := by
  cases c with
  | legacy => exact ⟨_, _, rfl, by decide, by decide⟩
  | vex p =>
    simp only [encode, Vex.encode]
    split <;> exact ⟨_, _, rfl, by decide, by decide⟩
  | evex p => exact ⟨_, _, rfl, by decide, by decide⟩

end ClassPart

/-! ## From an instruction to bytes and back -/

@[simp] theorem decodeClass_0F (h : Head) (bs : List Byte) :
    decodeClass h (0x0F#8 :: bs) = decodeLegacy h bs := rfl

@[simp] theorem decodeClass_C5 (h : Head) (bs : List Byte) :
    decodeClass h (0xC5#8 :: bs) = decodeVex2 h bs := rfl

@[simp] theorem decodeClass_C4 (h : Head) (bs : List Byte) :
    decodeClass h (0xC4#8 :: bs) = decodeVex3 h bs := rfl

@[simp] theorem decodeClass_62 (h : Head) (bs : List Byte) :
    decodeClass h (0x62#8 :: bs) = decodeEvex h bs := rfl

/-- The decoder reads encoded VEX bytes, two or three. -/
theorem decodeClass_vex (h : Head) (p : Vex) (bs : List Byte) (hp : p.wf = true) :
    decodeClass h (p.encode ++ bs) = decodeOp (vexForm h p) bs := by
  obtain ⟨short, r, x, b, w, vvvv, l⟩ := p
  cases short with
  | true =>
    obtain ⟨rfl, rfl, rfl⟩ : x = false ∧ b = false ∧ w = false := by
      simpa [Vex.wf, and_assoc] using hp
    obtain ⟨hbyte, hpp⟩ := vex_ofByte2 r vvvv l
    simp [Vex.encode, decodeVex2, hbyte, hpp]
  | false =>
    obtain ⟨hr, hx, hb, hm⟩ := vex_byte1 r x b
    obtain ⟨hw, hv, hl, hpp⟩ := vex_byte2 w vvvv l
    simp only [Vex.encode, decodeClass_C4, decodeVex3, Vex.ofBytes3, List.cons_append, List.nil_append,
      hr, hx, hb, hm, hw, hv, hl, hpp, Bool.not_not, and_self, if_true, Bool.false_eq_true, if_false]

/-- The decoder reads encoded EVEX bytes. -/
theorem decodeClass_evex (h : Head) (p : Evex) (bs : List Byte) :
    decodeClass h (p.encode ++ bs) = decodeOp (evexForm h p) bs := by
  obtain ⟨r, x, b, r1, p0bit3, vvvv, p1bit2, z, ll, bc, v1, aaa⟩ := p
  obtain ⟨hr, hx, hb, hr1, hp0, hm⟩ := evex_byte0 r x b r1 p0bit3
  obtain ⟨hw, hv, hp1, hpp⟩ := evex_byte1 vvvv p1bit2
  obtain ⟨hz, hll, hbc, hv1, ha⟩ := evex_byte2 z ll bc v1 aaa
  simp only [Evex.encode, decodeClass_62, decodeEvex, Evex.ofBytes, List.cons_append, List.nil_append,
    hr, hx, hb, hr1, hp0, hm, hw, hv, hp1, hpp, hz, hll, hbc, hv1, ha, Bool.not_not, and_self, if_true]

/-- The decoder reads the class part that was encoded, and goes on with the opcode byte. -/
theorem decodeClass_encode (c : ClassPart) (h : Head) (bs : List Byte) (hc : c.wf h = true) :
    decodeClass h (c.encode ++ bs) = decodeOp (c.form h) bs := by
  cases c with
  | legacy =>
    have hrep : h.wfLegacy = true := hc
    simp [ClassPart.encode, decodeLegacy, hrep, ClassPart.form]
  | vex p => exact decodeClass_vex h p bs hc
  | evex p => exact decodeClass_evex h p bs

/-- Settles O1: the head, the class part, and the opcode with its operand are each read back. -/
theorem decodeReadsBackEveryEncoding : Obligations.DecodeReadsBackEveryEncoding := by
  intro i rest hi
  obtain ⟨c, h, op, reg, o, hop, rfl⟩ := ClassPart.exists_form i
  rw [ClassPart.wf_form, Bool.and_eq_true] at hi
  obtain ⟨hc, ho⟩ := hi
  obtain ⟨b, bs, hbs, hpfx, hrex⟩ := c.encode_head
  calc decode (encode (c.form h op reg o) ++ rest)
      = decode (h.encode ++ b :: (bs ++ (op :: (o.encode reg ++ rest)))) := by
        simp [c.encode_form h op reg o hop, hbs]
    _ = decodeClass h (c.encode ++ op :: (o.encode reg ++ rest)) := by
        rw [decode_head h b _ hpfx hrex, hbs, List.cons_append]
    _ = decodeOp (c.form h) (op :: (o.encode reg ++ rest)) := decodeClass_encode c h _ hc
    _ = .instr (c.form h op reg o) rest := decodeOp_encode _ op reg o rest hop ho

/-! ## From bytes to an instruction and back -/

/-- The fields read from the bytes after `C4` encode to those bytes. -/
theorem vex_ofBytes3_restored (b1 b2 : Byte) (h1 : b1.extractLsb' 0 5 = 1#5)
    (h2 : b2.extractLsb' 0 2 = 2#2) : (Vex.ofBytes3 b1 b2).encode = [0xC4#8, b1, b2] := by
  simp only [Vex.encode, Vex.ofBytes3, Bool.not_not, vexByte3_restored b1 h1, vexByte4_restored b2 h2,
    Bool.false_eq_true, if_false]

/-- The fields read from the bytes after `62` encode to those bytes. -/
theorem evex_ofBytes_restored (p0 p1 p2 : Byte) (h0 : p0.extractLsb' 0 3 = 1#3)
    (h1 : p1.extractLsb' 0 2 = 2#2) (hw : p1.getLsbD 7 = false) :
    (Evex.ofBytes p0 p1 p2).encode = [0x62#8, p0, p1, p2] := by
  simp only [Evex.encode, Evex.ofBytes, Bool.not_not, evexP0_restored p0 h0, evexP1_restored p1 h1 hw,
    evexP2_restored p2]

/-- A class part that was read is well-formed, encodes to the bytes read, and leaves the opcode. -/
theorem decodeClass_restores (h : Head) (bs rest : List Byte) (i : Instr)
    (hd : decodeClass h bs = .instr i rest) :
    ∃ c bs', ClassPart.wf h c = true ∧ bs = c.encode ++ bs' ∧
      decodeOp (c.form h) bs' = .instr i rest := by
  cases bs with
  | nil => simp [decodeClass] at hd
  | cons b bs =>
    simp only [decodeClass] at hd
    split_ifs at hd with h0F hC5 hC4 h62
    · simp only [decodeLegacy] at hd
      split_ifs at hd with hrep
      exact ⟨.legacy, bs, hrep, by rw [h0F]; rfl, hd⟩
    · match bs, hd with
      | c1 :: bs, hd =>
        simp only [decodeVex2] at hd
        split_ifs at hd with hpp
        obtain ⟨henc, hwf⟩ := vexByte2_restored c1 hpp
        exact ⟨.vex (Vex.ofByte2 c1), bs, hwf, by simp [ClassPart.encode, henc, hC5], hd⟩
    · match bs, hd with
      | b1 :: b2 :: bs, hd =>
        simp only [decodeVex3] at hd
        split_ifs at hd with hmp
        have henc := vex_ofBytes3_restored b1 b2 hmp.1 hmp.2
        exact ⟨.vex (Vex.ofBytes3 b1 b2), bs, rfl, by simp [ClassPart.encode, henc, hC4], hd⟩
    · match bs, hd with
      | p0 :: p1 :: p2 :: bs, hd =>
        simp only [decodeEvex] at hd
        split_ifs at hd with hfix
        obtain ⟨hm, hpp, hw⟩ := hfix
        have henc := evex_ofBytes_restored p0 p1 p2 hm hpp hw
        exact ⟨.evex (Evex.ofBytes p0 p1 p2), bs, rfl, by simp [ClassPart.encode, henc, h62], hd⟩

/-- Settles O2: the decoder's three parts, put together again, are the bytes that were read. -/
theorem encodeReadsBackEveryDecoding : Obligations.EncodeReadsBackEveryDecoding := by
  intro i bs rest hd
  obtain ⟨c, bs', hc, hbs', hop⟩ := decodeClass_restores _ _ _ _ hd
  obtain ⟨op, reg, o, hmovss, ho, rfl, rfl⟩ := decodeOp_restores _ _ _ _ hop
  refine ⟨by rw [ClassPart.wf_form, hc, ho]; rfl, ?_⟩
  calc encode (c.form _ op reg o) ++ rest
      = (takePfx bs).1.map Pfx.toByte ++ (((takeRex (takePfx bs).2).1.map Rex.toByte).toList ++
          (c.encode ++ op :: (o.encode reg ++ rest))) := by
        simp [ClassPart.encode_form _ _ _ _ _ hmovss, Head.encode]
    _ = bs := by rw [← hbs', takeRex_restores, takePfx_restores]

/-! ## Bytes written out in the spec -/

/-- Settles O4: each of the fixed byte strings, by running the decoder on it. -/
theorem specWordsDecodeToTheirForms : Obligations.SpecWordsDecodeToTheirForms :=
  ⟨rfl, rfl, rfl, rfl, rfl, rfl, rfl, rfl⟩

/-! ## The opcode table -/

/-- ModRM of an operand, and what it announces: `mod` is 11 exactly for a register operand (R64). -/
theorem regMem_encode_modrm (reg : BitVec 3) (o : RegMem) :
    ∃ c tail, o.encode reg = c :: tail ∧ (c.extractLsb' 6 2 = 3#2 ↔ ∃ rm, o = .reg rm) := by
  cases o with
  | reg rm => exact ⟨_, _, rfl, by simp [pack233_mod]⟩
  | mem m => cases m <;> exact ⟨_, _, rfl, by simp [pack233_mod, disp_mod_ne_three]⟩

/-- The normalised bytes of R81 depend on what follows the head alone. -/
theorem normalise_encode (h : Head) (bs : List Byte) :
    normalise h (h.encode ++ bs) = normalise ⟨[], none⟩ bs := by
  have hdrop : (h.encode ++ bs).drop h.size = bs :=
    List.drop_left' (Laws.Length.head_size h)
  simp only [normalise, hdrop]
  rfl

/-- The bytes R81 puts for a class part: `F3 0F`, the VEX bytes spelled out in three, the EVEX bytes. -/
def ClassPart.normalised : ClassPart → List Byte
  | .legacy => [0xF3#8, 0x0F#8]
  | .vex p => Vex.encode { p with short := false }
  | .evex p => p.encode

/-- The bits of two VEX bytes, in the places they have in three (R66, R67). -/
theorem vex_short_spread (r : Bool) (vvvv : BitVec 4) (l : Bool) :
    (BitVec.ofBool (!r) ++ ~~~ vvvv ++ BitVec.ofBool l ++ 2#2).extractLsb' 7 1 ++ 3#2 ++ 1#5 =
      BitVec.ofBool (!r) ++ BitVec.ofBool (!false) ++ BitVec.ofBool (!false) ++ 1#5 ∧
    0#1 ++ (BitVec.ofBool (!r) ++ ~~~ vvvv ++ BitVec.ofBool l ++ 2#2).extractLsb' 0 7 =
      BitVec.ofBool false ++ ~~~ vvvv ++ BitVec.ofBool l ++ 2#2 := by
  revert r vvvv l; decide

/-- The normalised bytes of a form: its class part, the opcode and ModRM (R81). -/
theorem normalise_classPart (c : ClassPart) (h : Head) (op m : Byte) (tail : List Byte)
    (hc : c.wf h = true) :
    normalise ⟨[], none⟩ (c.encode ++ op :: m :: tail) = c.normalised ++ [op, m] := by
  cases c with
  | legacy => rfl
  | evex p => rfl
  | vex p =>
    obtain ⟨short, r, x, b, w, vvvv, l⟩ := p
    cases short with
    | false => rfl
    | true =>
      obtain ⟨rfl, rfl, rfl⟩ : x = false ∧ b = false ∧ w = false := by
        simpa [ClassPart.wf, Vex.wf, and_assoc] using hc
      obtain ⟨h1, h2⟩ := vex_short_spread r vvvv l
      calc normalise ⟨[], none⟩ ((ClassPart.vex ⟨true, r, false, false, false, vvvv, l⟩).encode ++
              op :: m :: tail)
          = [0xC4#8, _, _, op, m] := rfl
        _ = Vex.encode ⟨false, r, false, false, false, vvvv, l⟩ ++ [op, m] := by rw [h1, h2]; rfl

/-! A row's mask keeps the fixed bits of each byte of an encoding (R64, R66, R69, R70). -/

theorem and_C0_eq_iff (m : Byte) : m &&& 0xC0#8 = 0xC0#8 ↔ m.extractLsb' 6 2 = 3#2 := by
  revert m; decide

theorem vex_byte1_and (r x b : Bool) :
    (BitVec.ofBool (!r) ++ BitVec.ofBool (!x) ++ BitVec.ofBool (!b) ++ 1#5) &&& 0x1F#8 = 0x01#8 := by
  revert r x b; decide

theorem vex_byte2_and (w : Bool) (vvvv : BitVec 4) (l : Bool) :
    (BitVec.ofBool w ++ ~~~ vvvv ++ BitVec.ofBool l ++ 2#2) &&& 0x03#8 = 0x02#8 := by
  revert w vvvv l; decide

theorem evex_byte0_and (r x b r1 p3 : Bool) :
    (BitVec.ofBool (!r) ++ BitVec.ofBool (!x) ++ BitVec.ofBool (!b) ++ BitVec.ofBool (!r1) ++
      BitVec.ofBool p3 ++ 1#3) &&& 0x07#8 = 0x01#8 := by
  revert r x b r1 p3; decide

theorem evex_byte1_and (vvvv : BitVec 4) (p2 : Bool) :
    (0#1 ++ ~~~ vvvv ++ BitVec.ofBool p2 ++ 2#2) &&& 0x83#8 = 0x02#8 := by
  revert vvvv p2; decide

/-- The normalised bytes of a form, row by row: the class part fits the rows of its class alone, and of
these the opcode and `mod` leave one. -/
theorem fits_normalised (c : ClassPart) (h : Head) (op m : Byte) (reg : BitVec 3) (o : RegMem)
    (hop : isMovssOp op = true) (hm : m.extractLsb' 6 2 = 3#2 ↔ ∃ rm, o = .reg rm) :
    ∀ r ∈ opcodeRows,
      (r.fits (c.normalised ++ [op, m]) = true ↔ r.id = (c.form h op reg o).rowId) := by
  simp only [opcodeRows, legacyRows, vexRows, evexRows, List.cons_append, List.nil_append,
    List.forall_mem_cons]
  rcases isMovssOp_cases op hop with rfl | rfl <;> cases o <;>
    simp only [RegMem.reg.injEq, exists_eq', reduceCtorEq, exists_false, iff_true, iff_false] at hm
  all_goals cases c with
  | legacy =>
    simp [OpRow.fits, ClassPart.normalised, ClassPart.form, legacyForm, Instr.rowId, and_C0_eq_iff, hm]
  | vex p =>
    simp [OpRow.fits, ClassPart.normalised, Vex.encode, vex_byte1_and, vex_byte2_and, ClassPart.form,
      vexForm, Instr.rowId, and_C0_eq_iff, hm]
  | evex p =>
    simp [OpRow.fits, ClassPart.normalised, Evex.encode, evex_byte0_and, evex_byte1_and, ClassPart.form,
      evexForm, Instr.rowId, and_C0_eq_iff, hm]

@[simp] theorem ClassPart.head_form (c : ClassPart) (h : Head) (op : Byte) (reg : BitVec 3) (o : RegMem) :
    (c.form h op reg o).head = h := by
  cases c <;> cases o <;> simp only [form, legacyForm, vexForm, evexForm] <;> split <;> rfl

/-- Settles O3: the normalised bytes are the class part, the opcode and ModRM, which fit one row. -/
theorem eachFormFitsExactlyItsOpcodeTableRow : Obligations.EachFormFitsExactlyItsOpcodeTableRow := by
  intro i hi r hr
  obtain ⟨c, h, op, reg, o, hop, rfl⟩ := ClassPart.exists_form i
  rw [ClassPart.wf_form, Bool.and_eq_true] at hi
  obtain ⟨m, tail, henc, hm⟩ := regMem_encode_modrm reg o
  rw [ClassPart.head_form, c.encode_form h op reg o hop, normalise_encode, henc,
    normalise_classPart c h op m tail hi.1]
  exact fits_normalised c h op m reg o hop hm r hr

end Sys2Proof

/-! PROOF. The preambles: a form that its preamble stops ends as the preamble says, and what each preamble
makes of the reserved fields (R84 to R88); the length of what executes (R78); the two encodings of one
register move (R83); and the fetch (R27, R60, R82, R89). -/

namespace Sys2Proof.Machine

/-! ## A form and its preamble -/

/-- A form that its preamble stops ends with that exception or refusal, its access not being asked. -/
theorem exec_of_preamble_stop (i : Instr) (s : State) (e : Stop) (h : preamble i s = some e) :
    exec i s = e.outcome := by
  cases i <;> simp only [preamble] at h
  case l10rr | l11rr => simp only [exec, execL10rr, execL11rr, moveLegacy, h]; rfl
  case v10rr | v11rr => simp only [exec, execV10rr, execV11rr, moveVex, h]; rfl
  case e10rr | e11rr => simp only [exec, execE10rr, execE11rr, moveEvex, h]; rfl
  case l10rm | v10rm => simp only [exec, execL10rm, execV10rm, loadLegacy, loadVex, h]; rfl
  case l11mr | v11mr => simp only [exec, execL11mr, execV11mr, storeLow, h]; rfl
  case e10rm => simp only [exec, execE10rm, loadEvex, h]; split <;> rfl
  case e11mr => simp only [exec, execE11mr, storeEvex, storeLow, h]; split <;> rfl

/-- A form passes its preamble exactly when it is ready. -/
theorem preamble_eq_none_iff (i : Instr) (s : State) : preamble i s = none ↔ Ready i s := by
  cases i with
  | l10rr | l10rm | l11mr | l11rr => exact legacyChecks_eq_none ..
  | v10rr | v10rm | v11rr | v11mr => exact vexChecks_eq_none ..
  | e10rr | e10rm | e11rr | e11mr => exact evexChecks_eq_none ..

/-- A form that completes was ready. -/
theorem ready_of_exec_next (i : Instr) (s t : State) (h : exec i s = .next t) : Ready i s := by
  rw [← preamble_eq_none_iff]
  cases hp : preamble i s with
  | none => rfl
  | some e =>
    rw [exec_of_preamble_stop i s e hp] at h
    cases e <;> cases h

/-! ## The length of what executes -/

theorem memForm_size_le (m : MemForm) : m.size ≤ 5 := by
  cases m with
  | ripRel | sibNoBase => simp [MemForm.size]
  | base rm d => cases d <;> simp [MemForm.size, Disp.size]
  | sib scale index sb d => cases d <;> simp [MemForm.size, Disp.size]

theorem vex_size_bounds (p : Vex) : 2 ≤ p.size ∧ p.size ≤ 3 := by
  unfold Vex.size
  split <;> decide

/-- Each byte that may precede REX is of one of the kinds of R62. -/
theorem pfx_length_eq (l : List Pfx) :
    l.length = l.countP isSegPfx + l.count .addrSize + l.count .rep + l.count .repne +
      l.count .opSize + l.count .lock := by
  induction l with
  | nil => rfl
  | cons p l ih =>
    rw [List.length_cons, ih]
    cases p <;> simp [List.countP_cons, isSegPfx] <;> omega

/-- What R62, R68 and R71 admit of overrides, as counts. -/
theorem overridesAdmitted_iff (h : Head) :
    h.overridesAdmitted = true ↔ h.pfx.countP isSegPfx ≤ 1 ∧ h.pfx.count .addrSize ≤ 1 := by
  simp only [Head.overridesAdmitted, Head.count, ← List.countP_eq_length_filter, Bool.and_eq_true,
    decide_eq_true_eq, List.count]

/-- The head of a legacy form that executes: `F3`, an override and a `67` at most, and REX. -/
theorem legacyReady_head_size (h : Head) (s : State) (hr : LegacyReady h s) :
    1 ≤ h.size ∧ h.size ≤ 4 := by
  obtain ⟨-, hadm, hlock, -⟩ := hr
  simp only [Head.legacyAdmitted, Bool.and_eq_true, Bool.not_eq_true', beq_iff_eq,
    overridesAdmitted_iff, Head.count, ← List.countP_eq_length_filter] at hadm
  obtain ⟨⟨⟨hrep, hrepne⟩, hop⟩, hseg, haddr⟩ := hadm
  have hlen := pfx_length_eq h.pfx
  simp only [Head.locked, List.contains_eq_mem, decide_eq_false_iff_not,
    ← List.count_eq_zero] at hlock hrepne hop
  unfold Head.size
  rw [← List.count] at hrep
  split <;> omega

/-- The head of a VEX or EVEX form that executes: an override and a `67` at most. -/
theorem head_size_le_two (h : Head) (hov : h.overridesAdmitted = true) (hbad : h.badForVex = false) :
    h.size ≤ 2 := by
  obtain ⟨hseg, haddr⟩ := (overridesAdmitted_iff h).mp hov
  rw [← Bool.not_eq_true, badForVex_iff] at hbad
  push Not at hbad
  obtain ⟨hrex, hop, hrepne, hrep, hlock⟩ := hbad
  have hlen := pfx_length_eq h.pfx
  rw [← List.count_eq_zero] at hop hrepne hrep hlock
  simp only [Head.size, hrex, Option.isSome_none, Bool.false_eq_true, if_false]
  omega

/-- Settles O5: the preamble bounds the head, and every other part has a bounded length. -/
theorem executedFormsAreFourToThirteenBytesLong :
    Obligations.ExecutedFormsAreFourToThirteenBytesLong := by
  intro i s t _ hexec
  have hr := ready_of_exec_next i s t hexec
  cases i with
  | l10rr h | l11rr h =>
    have := legacyReady_head_size h s hr
    simp only [Instr.ilen, encClass, reduceCtorEq, false_imp_iff, and_true]
    omega
  | l10rm h reg m | l11mr h reg m =>
    have := legacyReady_head_size h s hr
    have := memForm_size_le m
    simp only [Instr.ilen, encClass, reduceCtorEq, false_imp_iff, and_true]
    omega
  | v10rr h p | v11rr h p =>
    obtain ⟨-, -, hov, hbad, -⟩ := hr
    have := head_size_le_two h hov hbad
    have := vex_size_bounds p
    simp only [Instr.ilen, encClass, reduceCtorEq, false_imp_iff, and_true]
    omega
  | v10rm h p reg m | v11mr h p reg m =>
    obtain ⟨-, -, hov, hbad, -⟩ := hr
    have := head_size_le_two h hov hbad
    have := vex_size_bounds p
    have := memForm_size_le m
    simp only [Instr.ilen, encClass, reduceCtorEq, false_imp_iff, and_true]
    omega
  | e10rr h p | e11rr h p =>
    obtain ⟨-, -, -, hov, hbad, -⟩ := hr
    have := head_size_le_two h hov hbad
    simp only [Instr.ilen]
    omega
  | e10rm h p reg m | e11mr h p reg m =>
    obtain ⟨-, -, -, hov, hbad, -⟩ := hr
    have := head_size_le_two h hov hbad
    have := memForm_size_le m
    simp only [Instr.ilen]
    omega

/-! ## Reserved fields -/

/-- Conditions that give the same stop count as one condition. -/
theorem firstStop_merge (c d : Bool) (e : Stop) (l : List (Bool × Stop)) :
    firstStop ((c, e) :: (d, e) :: l) = firstStop ((c || d, e) :: l) := by
  cases c <;> rfl

/-- A condition that does not hold is passed over. -/
theorem firstStop_of_false (c : Bool) (e : Stop) (l : List (Bool × Stop)) (h : c = false) :
    firstStop ((c, e) :: l) = firstStop l := by
  rw [h]; rfl

theorem firstStop_of_true (c : Bool) (e : Stop) (l : List (Bool × Stop)) (h : c = true) :
    firstStop ((c, e) :: l) = some e := by
  rw [h]; rfl

/-- A memory form of the VEX class that is not refused raises `#UD` when `vvvv` names a register (R114). -/
theorem vexChecks_of_vvvv (h : Head) (p : Vex) (s : State) (hmode : s.cfg.mode = .long64)
    (hl : p.l = false) (hov : h.overridesAdmitted = true) (hv : p.vvvv ≠ 0#4) :
    vexChecks true h p s = some s.ud := by
  rw [vexChecks, firstStop_of_false _ _ _ (by simp [hmode]), firstStop_of_false _ _ _ hl,
    firstStop_of_false _ _ _ (by simp [hov]), firstStop_merge, firstStop_merge]
  exact firstStop_of_true _ _ _ (by simp [hv])

/-- The fields for which an EVEX form that is not refused raises `#UD` (R125). -/
theorem evexChecks_of_reserved (isMem isStore : Bool) (h : Head) (p : Evex) (s : State)
    (hmode : s.cfg.mode = .long64) (hz : p.z = true → p.aaa ≠ 0#3) (hll : p.ll ≠ 3#2)
    (hov : h.overridesAdmitted = true)
    (hud : p.p0bit3 = true ∨ p.p1bit2 = false ∨ p.bc = true ∨ (isStore = true ∧ p.z = true) ∨
      (isMem = true ∧ (p.vvvv ≠ 0#4 ∨ p.v1 = true))) :
    evexChecks isMem isStore h p s = some s.ud := by
  rw [evexChecks, firstStop_of_false _ _ _ (by simp [hmode]),
    firstStop_of_false _ _ _ (by simpa using hz), firstStop_of_false _ _ _ (by simp [hll]),
    firstStop_of_false _ _ _ (by simp [hov])]
  repeat rw [firstStop_merge]
  apply firstStop_of_true
  rcases hud with hp0 | hp1 | hbc | ⟨hs, hz⟩ | ⟨hm, hv | hv⟩ <;> simp [*]

/-- The preamble of the four VEX forms. -/
theorem preamble_vex (h : Head) (p : Vex) (reg rm : BitVec 3) (m : MemForm) (s : State) (i : Instr)
    (hi : i = .v10rr h p reg rm ∨ i = .v10rm h p reg m ∨ i = .v11rr h p reg rm ∨ i = .v11mr h p reg m) :
    ∃ isMem, preamble i s = vexChecks isMem h p s := by
  rcases hi with rfl | rfl | rfl | rfl <;> exact ⟨_, rfl⟩

/-- The preamble of the four EVEX forms. -/
theorem preamble_evex (h : Head) (p : Evex) (reg rm : BitVec 3) (m : MemForm) (s : State) (i : Instr)
    (hi : i = .e10rr h p reg rm ∨ i = .e10rm h p reg m ∨ i = .e11rr h p reg rm ∨ i = .e11mr h p reg m) :
    ∃ isMem isStore, preamble i s = evexChecks isMem isStore h p s ∧
      (i = .e11mr h p reg m → isStore = true) := by
  rcases hi with rfl | rfl | rfl | rfl <;> exact ⟨_, _, rfl, by simp⟩

/-- Settles O29: the preamble of both forms reaches the `#UD` on `vvvv`, or another before it. -/
theorem vexMemoryFormsRaiseUdOnVvvv : Obligations.VexMemoryFormsRaiseUdOnVvvv := by
  intro h p reg m s hmode hl hov hv
  have hud := vexChecks_of_vvvv h p s hmode hl hov hv
  exact ⟨exec_of_preamble_stop (.v11mr h p reg m) s _ hud,
    exec_of_preamble_stop (.v10rm h p reg m) s _ hud⟩

/-- Settles O30: the same for `vvvv` and `V'` of the EVEX forms. -/
theorem evexMemoryFormsRaiseUdOnVvvv : Obligations.EvexMemoryFormsRaiseUdOnVvvv := by
  intro h p reg m s hmode hz hll hov hv
  have hud (isStore : Bool) := evexChecks_of_reserved true isStore h p s hmode hz hll hov
    (.inr (.inr (.inr (.inr ⟨rfl, hv⟩))))
  exact ⟨exec_of_preamble_stop (.e11mr h p reg m) s _ (hud true),
    exec_of_preamble_stop (.e10rm h p reg m) s _ (hud false)⟩

/-- Settles O31: `L` is read back like every other bit, and the preamble refuses it right after the mode. -/
theorem vexLengthOneIsRecognisedAndRefused : Obligations.VexLengthOneIsRecognisedAndRefused := by
  intro h p reg rm m s i hi
  refine ⟨fun hwf => ?_, fun hmode hl => ?_⟩
  · simpa using decodeReadsBackEveryEncoding i [] hwf
  · obtain ⟨isMem, hpre⟩ := preamble_vex h p reg rm m s i hi
    refine exec_of_preamble_stop i s (.refuse .vexLengthOne) ?_
    rw [hpre, vexChecks, firstStop_of_false _ _ _ (by simp [hmode]), firstStop_of_true _ _ _ hl]

/-- EVEX bytes with `W = 1`, at the front of a byte string, are no form of MOVSS. -/
theorem decode_evex_of_w (p0 p1 p2 : Byte) (bs : List Byte) (hw : p1.getLsbD 7 = true) :
    decode (0x62#8 :: p0 :: p1 :: p2 :: bs) = .notMovss := by
  have hhead : decode (0x62#8 :: p0 :: p1 :: p2 :: bs) =
      decodeClass ⟨[], none⟩ (0x62#8 :: p0 :: p1 :: p2 :: bs) :=
    decode_head ⟨[], none⟩ 0x62#8 _ (by decide) (by decide)
  rw [hhead, decodeClass_62, decodeEvex, if_neg (by simp only [hw]; simp)]

/-- The preamble tells `L'L` 00, 01 and 10 apart from 11 alone. -/
theorem evexChecks_withLL (isMem isStore : Bool) (h : Head) (p : Evex) (s : State) (ll : BitVec 2)
    (hp : p.ll ≠ 3#2) (hll : ll ≠ 3#2) :
    evexChecks isMem isStore h { p with ll := ll } s = evexChecks isMem isStore h p s := by
  have hbeq : (p.ll == 3#2) = (ll == 3#2) := by simp [hp, hll]
  simp only [evexChecks, hbeq]

/-- Settles O32: the decoder wants `W = 0`; the preamble refuses, and raises `#UD`, in R125's order; and
nothing else reads `L'L`. -/
theorem evexReservedFields : Obligations.EvexReservedFields := by
  refine ⟨decode_evex_of_w, fun h p reg rm m s i hi hmode => ?_, fun h p reg rm m s ll hp hll => ?_⟩
  · obtain ⟨isMem, isStore, hpre, hstore⟩ := preamble_evex h p reg rm m s i hi
    refine ⟨fun hz ha => exec_of_preamble_stop i s (.refuse .zeroingWithoutMask) ?_,
      fun hz hll => exec_of_preamble_stop i s (.refuse .evexLengthReserved) ?_,
      fun hz hll hov hud => exec_of_preamble_stop i s s.ud ?_⟩
    · rw [hpre, evexChecks, firstStop_of_false _ _ _ (by simp [hmode]),
        firstStop_of_true _ _ _ (by simp [hz, ha])]
    · rw [hpre, evexChecks, firstStop_of_false _ _ _ (by simp [hmode]),
        firstStop_of_false _ _ _ (by simpa using hz), firstStop_of_true _ _ _ (by simp [hll])]
    · rw [hpre]
      exact evexChecks_of_reserved isMem isStore h p s hmode hz hll hov
        (hud.imp_right (.imp_right (.imp_right fun hs => .inl ⟨hstore hs.1, hs.2⟩)))
  · have hchecks (isMem isStore : Bool) := evexChecks_withLL isMem isStore h p s ll hp hll
    simp only [exec, execE10rr, execE10rm, execE11rr, execE11mr, hchecks]
    exact ⟨rfl, rfl, rfl, rfl⟩

/-! ## The two encodings of a register move -/

/-- Settles O33: with the extension bits exchanged too, both forms name the same registers, and nothing else
tells them apart. -/
theorem opcode10And11RegisterFormsAgree : Obligations.Opcode10And11RegisterFormsAgree := by
  intro h q v e reg rm s
  refine ⟨fun hrex => ?_, fun hrex => ?_, rfl, rfl⟩
  · obtain ⟨pfx, rex⟩ := h
    cases hrex
    rfl
  · obtain ⟨pfx, rex⟩ := h
    cases hrex
    rfl

/-! ## The fetch -/

/-- Settles O6: the fetch decodes what any number of bytes decodes to, and lets it through. -/
theorem stepRunsTheDecodedInstruction : Obligations.StepRunsTheDecodedInstruction := by
  intro s i n rest hmode hd hrange hadm hmod
  have hfetch : s.fetch = .instr i := by
    simpa [hrange, hadm, hmod] using fetch_of_decode s i n rest hmode hd
  rw [step, hfetch]

/-- Settles O7: the mode is the first thing the fetch looks at. -/
theorem stepRefusesEveryOtherMode : Obligations.StepRefusesEveryOtherMode := by
  intro s hmode
  exact step_of_fetch_refuse s _ (by rw [State.fetch, if_pos hmode])

/-- Settles O8: the bytes the fetch looks at are no form where any number of them is none. -/
theorem stepRefusesBytesThatAreNoForm : Obligations.StepRefusesBytesThatAreNoForm := by
  intro s n hmode hd
  have hwindow := (decode_fetchWindow s n (by simp [hd])).2 hd
  exact step_of_fetch_refuse s _ (by simp [State.fetch, hmode, hwindow])

end Sys2Proof.Machine

/-! PROOF. Operands: register numbers from the bytes of the prefixes (R73, R74), and the linear address and
segment of a memory operand, computed on integers (R77, R79). -/

namespace Sys2Proof

/-! ## Register numbers -/

theorem gpr_toNat (hi : Bool) (lo : BitVec 3) : (gpr hi lo).toNat = 8 * hi.toNat + lo.toNat := by
  revert hi lo; decide

theorem vreg4_toNat (hi : Bool) (lo : BitVec 3) : (vreg4 hi lo).toNat = 8 * hi.toNat + lo.toNat := by
  revert hi lo; decide

theorem vreg5_toNat (top hi : Bool) (lo : BitVec 3) :
    (vreg5 top hi lo).toNat = 16 * top.toNat + 8 * hi.toNat + lo.toNat := by
  revert top hi lo; decide

theorem vex_vreg_toNat (p : Vex) : p.vreg.toNat = p.vvvv.toNat := by
  have h (vvvv : BitVec 4) : (0#1 ++ vvvv).toNat = vvvv.toNat := by
    revert vvvv; decide
  exact h p.vvvv

theorem evex_vreg_toNat (p : Evex) : p.vreg.toNat = 16 * p.v1.toNat + p.vvvv.toNat := by
  have h (v1 : Bool) (vvvv : BitVec 4) :
      (BitVec.ofBool v1 ++ vvvv).toNat = 16 * v1.toNat + vvvv.toNat := by
    revert v1 vvvv; decide
  exact h p.v1 p.vvvv

theorem inverted_toNat (b : Bool) : (!b).toNat = 1 - b.toNat := by
  cases b <;> rfl

theorem inverted4_toNat (v : BitVec 4) : (~~~ v).toNat = 15 - v.toNat :=
  BitVec.toNat_not

/-- Settles O44: a number is its bits put together, and a bit or field stored inverted is its complement. -/
theorem registerNumbersOfEachClass : Obligations.RegisterNumbersOfEachClass := by
  refine ⟨gpr_toNat, fun h lo hrex => ?_, fun h c lo hc hrex => ?_, fun c1 lo => ?_, fun b1 b2 lo => ?_,
    fun p0 p1 p2 lo => ?_⟩
  · simp [vreg4_toNat, gpr_toNat, Head.r, Head.x, Head.b, hrex]
  · rw [Rex.ofByte, if_pos hc] at hrex
    simp [vreg4_toNat, gpr_toNat, Head.r, Head.x, Head.b, hrex]
  · simp only [vreg4_toNat, gpr_toNat, vex_vreg_toNat, Vex.ofByte2, inverted_toNat, inverted4_toNat]
    simp
  · simp only [vreg4_toNat, gpr_toNat, vex_vreg_toNat, Vex.ofBytes3, inverted_toNat, inverted4_toNat,
      and_self]
  · simp only [vreg5_toNat, gpr_toNat, evex_vreg_toNat, Evex.ofBytes, inverted_toNat, inverted4_toNat,
      and_self]

end Sys2Proof

namespace Sys2Proof.Machine

/-! ## The effective and linear address, on integers -/

/-- The effective-address size in bits (R62, R77). -/
def addrBits (addr32 : Bool) : Nat := if addr32 then 32 else 64

/-- `r(n)` of R77 as an integer. -/
def State.regInt (s : State) (addr32 : Bool) (n : GReg) : Int :=
  (s.readGpr n).toNat % 2 ^ addrBits addr32

/-- `iv` of R77 as an integer. -/
def State.indexInt (s : State) (addr32 x : Bool) (scale : BitVec 2) (index : BitVec 3) : Int :=
  if gpr x index = 4#4 then 0 else s.regInt addr32 (gpr x index) * 2 ^ scale.toNat

/-- `d` of R77 as an integer, with the displacement scale `n` of R79. -/
def dispInt (n : Word) : Disp → Int
  | .absent => 0
  | .d8 c => c.toInt * n.toNat
  | .d32 c => c.toInt

/-- The sum of R77 on integers, before it is cut to the address size. -/
def State.sumInt (s : State) (addr32 x b : Bool) (n : Word) (next : Int) : MemForm → Int
  | .ripRel d => next + d.toInt
  | .base rm d => s.regInt addr32 (gpr b rm) + dispInt n d
  | .sib scale index sb d =>
    s.regInt addr32 (gpr b sb) + s.indexInt addr32 x scale index + dispInt n d
  | .sibNoBase scale index d => s.indexInt addr32 x scale index + d.toInt

theorem ofInt_toNat {w : Nat} (a : BitVec w) : BitVec.ofInt w a.toNat = a := by
  rw [BitVec.ofInt_natCast, BitVec.ofNat_toNat, BitVec.setWidth_eq]

/-! Each part of the sum is the integer modulo 2^64. -/

theorem addrReg_eq_ofInt (s : State) (addr32 : Bool) (n : GReg) :
    s.addrReg addr32 n = BitVec.ofInt 64 (s.regInt addr32 n) := by
  have hcast : s.regInt addr32 n = ((s.readGpr n).toNat % 2 ^ addrBits addr32 : Nat) := by
    simp [State.regInt]
  apply BitVec.eq_of_toNat_eq
  rw [hcast, BitVec.ofInt_natCast, BitVec.toNat_ofNat]
  cases addr32 with
  | false =>
    simp only [State.addrReg, addrBits, Bool.false_eq_true, if_false]
    omega
  | true =>
    simp only [State.addrReg, addrBits, if_true, BitVec.toNat_setWidth]

theorem indexValue_eq_ofInt (s : State) (addr32 x : Bool) (scale : BitVec 2) (index : BitVec 3) :
    s.indexValue addr32 x scale index = BitVec.ofInt 64 (s.indexInt addr32 x scale index) := by
  unfold State.indexValue State.indexInt
  split
  · rfl
  · rw [BitVec.ofInt_mul, ← addrReg_eq_ofInt, BitVec.shiftLeft_eq_mul_twoPow]
    congr 1
    revert scale; decide

theorem disp_value_eq_ofInt (n : Word) (d : Disp) : d.value n = BitVec.ofInt 64 (dispInt n d) := by
  cases d with
  | absent => rfl
  | d8 c => rw [dispInt, BitVec.ofInt_mul, ofInt_toNat]; rfl
  | d32 c => rfl

/-- The model's sum is the integer sum modulo 2^64. -/
theorem addrSum_eq_ofInt (s : State) (addr32 x b : Bool) (n next : Word) (m : MemForm) (nextInt : Int)
    (hnext : next = BitVec.ofInt 64 nextInt) :
    s.addrSum addr32 x b n next m = BitVec.ofInt 64 (s.sumInt addr32 x b n nextInt m) := by
  cases m <;> simp only [State.addrSum, State.sumInt, BitVec.ofInt_add, addrReg_eq_ofInt,
    indexValue_eq_ofInt, disp_value_eq_ofInt, hnext] <;> rfl

/-- `ea` of R77 is the integer sum modulo 2^asize. -/
theorem effAddr_toNat (s : State) (addr32 x b : Bool) (n next : Word) (m : MemForm) (nextInt : Int)
    (hnext : next = BitVec.ofInt 64 nextInt) :
    ((s.effAddr addr32 x b n next m).toNat : Int) =
      s.sumInt addr32 x b n nextInt m % 2 ^ addrBits addr32 := by
  rw [State.effAddr, addrSum_eq_ofInt s addr32 x b n next m nextInt hnext]
  cases addr32 with
  | false =>
    simp only [addrBits, Bool.false_eq_true, if_false, BitVec.toNat_ofInt]
    omega
  | true =>
    simp only [addrBits, if_true, BitVec.toNat_setWidth, BitVec.toNat_ofInt]
    omega

/-- The linear address of R77: segment base and effective address, added modulo 2^64. -/
theorem operand_addr_toNat (s : State) (h : Head) (x b : Bool) (n : Word) (ilen : Nat) (m : MemForm) :
    ((s.operand h x b n ilen m).addr.toNat : Int) =
      ((s.segBase (h.seg b m)).toNat +
        s.sumInt h.addr32 x b n (s.pc.toNat + ilen) m % 2 ^ addrBits h.addr32) % 2 ^ 64 := by
  have hnext : s.pc + BitVec.ofNat 64 ilen = BitVec.ofInt 64 (s.pc.toNat + ilen) := by
    rw [BitVec.ofInt_add, ofInt_toNat, BitVec.ofInt_natCast]
  rw [← effAddr_toNat s h.addr32 x b n _ m _ hnext]
  simp [State.operand]

theorem gpr_eq_iff (hi : Bool) (lo : BitVec 3) (g : GReg) :
    gpr hi lo = g ↔ 8 * hi.toNat + lo.toNat = g.toNat := by
  rw [← BitVec.toNat_inj, gpr_toNat]

/-- Settles O45: the sum, the default segment and the segment base are the model's, read as integers. -/
theorem linearAddressRule : Obligations.LinearAddressRule := by
  intro s h x b n ilen m o ho
  have hop : o = s.operand h x b n ilen m := by
    rcases ho with ⟨rfl, rfl, rfl, rfl⟩ | ⟨p, rfl, rfl, rfl, rfl⟩ | ⟨p, rfl, rfl, rfl, rfl⟩ | rfl
    · cases hr : h.rex <;> simp [legacyOperand, Head.x, Head.b, hr]
    · rfl
    · rfl
    · rfl
  subst hop
  intro asize num r iv dv sum dflt seg sbase
  have hasize : addrBits h.addr32 = asize := by
    simp [addrBits, Head.addr32, asize]
  have hreg (hi : Bool) (lo : BitVec 3) : s.regInt h.addr32 (gpr hi lo) = r (num hi lo) := by
    simp [State.regInt, State.readGpr, hasize, gpr_toNat, r, num]
  have hnum (hi : Bool) (lo : BitVec 3) (g : Fin 16) : gpr hi lo = BitVec.ofFin g ↔ num hi lo = g := by
    rw [gpr_eq_iff, Fin.ext_iff]; rfl
  have hdv (d : Disp) : dispInt n d = dv d := by
    cases d <;> rfl
  have hiv (scale : BitVec 2) (index : BitVec 3) : s.indexInt h.addr32 x scale index = iv scale index := by
    simp only [State.indexInt, hreg, iv, ← hnum]
    rfl
  have hsum : s.sumInt h.addr32 x b n (s.pc.toNat + ilen) m = sum := by
    cases m <;> simp only [State.sumInt, hreg, hiv, hdv] <;> rfl
  have hdflt : m.defaultSeg b = dflt := by
    cases m <;> simp only [MemForm.defaultSeg, dflt, ← hnum] <;> rfl
  have hseg : h.seg b m = seg := by
    simp [Head.seg, hdflt, seg]
  have hsbase : ((s.segBase (h.seg b m)).toNat : Int) = sbase := by
    rw [hseg]
    simp only [sbase]
    cases seg <;> rfl
  refine ⟨hseg, ?_⟩
  rw [operand_addr_toNat, hsbase, hsum, hasize]

/-- A segment that no override chose has base 0 (R77). -/
theorem segBase_defaultSeg (s : State) (b : Bool) (m : MemForm) :
    s.segBase (m.defaultSeg b) = 0#64 := by
  have hsel (c : Prop) [Decidable c] : s.segBase (if c then .ss else .ds) = 0#64 := by
    split <;> rfl
  cases m with
  | ripRel | sibNoBase => rfl
  | base | sib => exact hsel _

/-- Without prefixes an operand with a base register is at the register plus the displacement (R77). -/
theorem operand_addr_base (s : State) (h : Head) (x b : Bool) (n : Word) (ilen : Nat) (rm : BitVec 3)
    (d : Disp) (hp : h.pfx = []) :
    (s.operand h x b n ilen (.base rm d)).addr = s.readGpr (gpr b rm) + d.value n := by
  have hseg : h.seg b (.base rm d) = (MemForm.base rm d).defaultSeg b := by
    simp [Head.seg, hp]
  have haddr32 : h.addr32 = false := by
    simp [Head.addr32, hp]
  simp [State.operand, hseg, haddr32, segBase_defaultSeg, State.effAddr, State.addrSum, State.addrReg]

/-- A `disp8` scaled by 4 does not wrap. -/
theorem disp8_scaled_toInt (c : BitVec 8) : (c.signExtend 64 * 4#64).toInt = c.toInt * 4 := by
  have hlo := BitVec.le_toInt c
  have hhi := BitVec.toInt_lt (x := c)
  rw [BitVec.toInt_mul, BitVec.toInt_signExtend_of_le (by decide)]
  exact Int.bmod_eq_of_le (by simp at hlo ⊢; omega) (by simp at hhi ⊢; omega)

/-- Settles O46: the displacement is added as it is encoded but for a `disp8`, which the scale of the class
multiplies. -/
theorem compressedDisplacement : Obligations.CompressedDisplacement := by
  intro c d h p v rm ilen s hp
  have hlo := BitVec.le_toInt c
  have hhi := BitVec.toInt_lt (x := c)
  refine ⟨?_, ?_, ?_, ?_, disp8_scaled_toInt c, by simp at hlo; omega, by simp at hhi; omega⟩
  · rw [evexOperand, operand_addr_base _ _ _ _ _ _ _ _ hp, Disp.value, BitVec.mul_comm]
  · rw [evexOperand, operand_addr_base _ _ _ _ _ _ _ _ hp, Disp.value]
  · rw [vexOperand, operand_addr_base _ _ _ _ _ _ _ _ hp, Disp.value, BitVec.mul_one]
  · rw [legacyOperand, operand_addr_base _ _ _ _ _ _ _ _ hp, Disp.value, BitVec.mul_one]

end Sys2Proof.Machine

/-! PROOF. The legacy forms (R100 to R104), and what all classes share with them: the completion of a ready
form (R139, R143), the upper bits of its destination, and a load of what a store left (R49). -/

namespace Sys2Proof.Machine

/-! ## The frames of the two writes -/

/-- A form that writes one vector register and advances leaves everything else. -/
theorem writeVec_advance_frame (s : State) (d : VReg) (w : Vec) (n : Nat) :
    ((s.writeVec d w).advance n).pc = s.pc + BitVec.ofNat 64 n ∧
      KeepsVecsBut d s ((s.writeVec d w).advance n) ∧ KeepsControl s ((s.writeVec d w).advance n) ∧
      KeepsMem s ((s.writeVec d w).advance n) ∧ ((s.writeVec d w).advance n).choices = s.choices :=
  ⟨rfl, fun _ hi => readVec_writeVec_other s w hi, ⟨rfl, rfl, rfl, rfl, rfl, rfl⟩,
    keepsMem_of_eq _ _ rfl rfl, rfl⟩

/-- A form that stores a doubleword and advances leaves everything but its four bytes. -/
theorem write32_advance_frame (s : State) (a : Word) (d : DWord) (n : Nat) :
    ((s.write32 a d).advance n).pc = s.pc + BitVec.ofNat 64 n ∧
      KeepsVecs s ((s.write32 a d).advance n) ∧ KeepsControl s ((s.write32 a d).advance n) ∧
      KeepsMemBut a s ((s.write32 a d).advance n) ∧ ((s.write32 a d).advance n).choices = s.choices :=
  ⟨by rw [advance_pc, write32_pc], keepsVecs_write32 s a d n,
    Effect.keepsControl n _ _ (.store a d), keepsMemBut_write32 s a d n,
    by rw [advance_choices, write32_choices]⟩

/-! ## The register moves -/

/-- Both legacy register moves merge bits 31:0 of the source into the destination, and raise what the
preamble raises. -/
theorem moveLegacy_spec (h : Head) (d src : VReg) (n : Nat) (s : State) :
    (LegacyReady h s → ∃ t, moveLegacy (legacyChecks h s) d src n s = .next t ∧
      (∀ j, (t.readVec d).getLsbD j =
        if j < 32 then (s.readVec src).getLsbD j else (s.readVec d).getLsbD j) ∧
      t.pc = s.pc + BitVec.ofNat 64 n ∧
      KeepsVecsBut d s t ∧ KeepsControl s t ∧ KeepsMem s t ∧ t.choices = s.choices) ∧
    RaisesOnlyUdOrNm s (moveLegacy (legacyChecks h s) d src n s) := by
  refine ⟨fun hr => ?_, fun f hf => ?_⟩
  · have hgo := (moveLegacy_next _ d src n s _).mpr ⟨(legacyChecks_eq_none h s).mpr hr, rfl⟩
    exact ⟨_, hgo, mergeLow_bits s d src, writeVec_advance_frame s d _ n⟩
  · exact legacyChecks_fault h s f ((finish_eq_fault ..).mp hf)

/-- Settles O13: opcode 10 is the move to `R ++ reg`. -/
theorem legacyMoveOpcode10 : Obligations.LegacyMoveOpcode10 := fun h reg rm s =>
  moveLegacy_spec h (vreg4 h.r reg) (vreg4 h.b rm) _ s

/-- Settles O16: opcode 11 is the same move to `B ++ rm`. -/
theorem legacyMoveOpcode11 : Obligations.LegacyMoveOpcode11 := fun h reg rm s =>
  moveLegacy_spec h (vreg4 h.b rm) (vreg4 h.r reg) _ s

/-! ## The memory forms -/

/-- A form that passes its preamble, and whose access is made and faults, raises that fault. -/
theorem exec_of_accessFault (i : Instr) (s : State) (o : MemOperand) (k : AccessKind) (f : Fault)
    (hr : Ready i s) (hm : memOperand i s = some (o, k)) (ha : AccessMade i s)
    (hdev : s.touchesDevice o.addr = false) (hf : s.accessFault o.addr k o.seg = some f) :
    exec i s = .fault f := by
  obtain ⟨t, hexec⟩ := exec_accessMade i s o k hr hm ha
  rw [hexec, finish_eq_fault]
  simp [State.accessStop, hdev, hf]

/-- Settles O14: the load merges nothing below bit 128, and its access raises its own faults. -/
theorem legacyLoad : Obligations.LegacyLoad := by
  rintro h reg m s o rfl hr
  refine ⟨fun hacc => ?_, fun f => exec_of_accessFault (.l10rm h reg m) s _ .read f hr rfl trivial⟩
  have hgo := (loadLegacy_next _ _ (vreg4 h.r reg) (Instr.l10rm h reg m).ilen s _).mpr
    ⟨⟨(legacyChecks_eq_none h s).mpr hr, hacc⟩, rfl⟩
  exact ⟨_, hgo, loadKeepUpper_bits s _ _, writeVec_advance_frame s _ _ _⟩

/-- Settles O15: the store writes its four bytes, and its access raises its own faults. -/
theorem legacyStore : Obligations.LegacyStore := by
  rintro h reg m s o rfl hr
  refine ⟨fun hacc => ?_, fun f => exec_of_accessFault (.l11mr h reg m) s _ .write f hr rfl trivial⟩
  have hgo := (storeLow_next _ _ (vreg4 h.r reg) (Instr.l11mr h reg m).ilen s _).mpr
    ⟨⟨(legacyChecks_eq_none h s).mpr hr, hacc⟩, rfl⟩
  exact ⟨_, hgo, byteAt_stored s _ _ _, write32_advance_frame s _ _ _⟩

/-! ## The preamble of the legacy forms -/

/-- The preamble of the four legacy forms. -/
theorem preamble_legacy (h : Head) (reg rm : BitVec 3) (m : MemForm) (s : State) (i : Instr)
    (hi : i = .l10rr h reg rm ∨ i = .l10rm h reg m ∨ i = .l11mr h reg m ∨ i = .l11rr h reg rm) :
    preamble i s = legacyChecks h s := by
  rcases hi with rfl | rfl | rfl | rfl <;> rfl

/-- Settles O17: each line of the preamble is reached when the ones before it are passed over. -/
theorem legacyPreambleOrder : Obligations.LegacyPreambleOrder := by
  intro i h reg rm m s hi
  have hpre := preamble_legacy h reg rm m s i hi
  rw [legacyChecks] at hpre
  split_ifs with hmode hadm hlock hen hts
  · refine exec_of_preamble_stop i s (.refuse .unsupportedMode) ?_
    rw [hpre, firstStop_of_true _ _ _ (by simpa using hmode)]
  all_goals rw [firstStop_of_false _ _ _ (by simpa using hmode)] at hpre
  all_goals rw [← legacyAdmitted_eq_false] at hadm
  · refine exec_of_preamble_stop i s (.refuse .prefixSequence) ?_
    rw [hpre, firstStop_of_true _ _ _ (by simpa using hadm)]
  all_goals rw [firstStop_of_false _ _ _ (by simpa using hadm)] at hpre
  · refine exec_of_preamble_stop i s s.ud ?_
    rw [hpre, firstStop_of_true _ _ _ (by simpa [Head.locked] using hlock)]
  all_goals rw [firstStop_of_false _ _ _ (by simpa [Head.locked] using hlock)] at hpre
  · refine exec_of_preamble_stop i s s.ud ?_
    rw [hpre, firstStop_of_true _ _ _ (by simpa using hen)]
  all_goals rw [firstStop_of_false _ _ _ (by simpa using hen)] at hpre
  · refine exec_of_preamble_stop i s s.nm ?_
    rw [hpre, firstStop_of_true _ _ _ hts]
  · rw [← preamble_eq_none_iff, hpre, firstStop_of_false _ _ _ (by simpa using hts)]
    rfl

/-! ## Completion -/

/-- A form without a memory operand completes once its preamble passes. -/
theorem exec_next_of_no_operand (i : Instr) (s : State) (hr : Ready i s)
    (hm : memOperand i s = none) : ∃ t, exec i s = .next t := by
  rw [← preamble_eq_none_iff] at hr
  cases i <;> cases hm
  case l10rr | l11rr => exact ⟨_, (moveLegacy_next ..).mpr ⟨hr, rfl⟩⟩
  case v10rr | v11rr => exact ⟨_, (moveVex_next ..).mpr ⟨hr, rfl⟩⟩
  case e10rr | e11rr => exact ⟨_, (moveEvex_next ..).mpr ⟨hr, rfl⟩⟩

/-- Settles O35: without a memory operand nothing is left to stop the form; with one, only its access, or
the check of its masked-off access, could. -/
theorem everyReadyFormCompletes : Obligations.EveryReadyFormCompletes := by
  intro i s hr hmade hmasked
  cases hm : memOperand i s with
  | none => exact exec_next_of_no_operand i s hr hm
  | some ok =>
    obtain ⟨o, k⟩ := ok
    by_cases ha : AccessMade i s
    · obtain ⟨t, hexec⟩ := exec_accessMade i s o k hr hm ha
      have hstop := (accessStop_eq_none s o k).mpr (hmade o k hm ha)
      exact ⟨t, hexec.trans ((finish_eq_next ..).mpr ⟨hstop, rfl⟩)⟩
    · obtain ⟨t, hexec, -⟩ := exec_accessMasked i s o k hr hm ha
      have hstop := probeStop_of_probeOk s o k (hmasked o k hm ha)
      exact ⟨t, hexec.trans ((finish_eq_next ..).mpr ⟨hstop, rfl⟩)⟩

/-! ## The destination register -/

/-- Settles O40: each of the four movements says what it leaves from bit 128 up. -/
theorem upperBitsAreKeptOrZeroedByClass : Obligations.UpperBitsAreKeptOrZeroedByClass := by
  intro i s t d j h hd hj
  have h32 : ¬ j < 32 := by omega
  have h128 : ¬ j < 128 := by omega
  cases i <;> cases hd
  case l10rr | l11rr =>
    obtain ⟨-, rfl⟩ := (moveLegacy_next ..).mp h
    simp [encClass, mergeLow_bits, h32]
  case l10rm =>
    obtain ⟨-, rfl⟩ := (loadLegacy_next ..).mp h
    simp [encClass, loadKeepUpper_bits, h32, h128]
  case v10rr | v11rr =>
    obtain ⟨-, rfl⟩ := (moveVex_next ..).mp h
    simp [encClass, mergeZeroUpper_bits, h32, h128]
  case v10rm =>
    obtain ⟨-, rfl⟩ := (loadVex_next ..).mp h
    simp [encClass, loadZeroUpper_bits, h32]
  case e10rr | e11rr =>
    obtain ⟨-, rfl⟩ := (moveEvex_next ..).mp h
    simp [encClass, mergeZeroUpper_bits, h32, h128]
  case e10rm =>
    rcases (loadEvex_next ..).mp h with ⟨-, -, -, rfl⟩ | ⟨-, -, -, rfl⟩ <;>
      simp [encClass, loadZeroUpper_bits, h32]

/-- A completed load whose access is made leaves the doubleword at its operand in the low doubleword of its
destination. -/
theorem lowDword_of_load (i : Instr) (s t : State) (d : VReg) (o : MemOperand)
    (h : exec i s = .next t) (hm : memOperand i s = some (o, .read)) (ha : AccessMade i s)
    (hd : destReg i = some d) : lowDword (t.readVec d) = s.read32 o.addr := by
  cases i <;> cases hm <;> cases hd
  case l10rm =>
    obtain ⟨-, rfl⟩ := (loadLegacy_next ..).mp h
    exact lowDword_loadKeepUpper s _ _
  case v10rm =>
    obtain ⟨-, rfl⟩ := (loadVex_next ..).mp h
    exact lowDword_loadZeroUpper s _ _
  case e10rm =>
    rcases (loadEvex_next ..).mp h with ⟨-, -, -, rfl⟩ | ⟨hoff, -, -, -⟩
    · exact lowDword_loadZeroUpper s _ _
    · exact absurd ((maskBit_iff_maskOn ..).mpr ha) (by simp [hoff])

/-- Settles O41: the load finds the doubleword the store left, and neither form changes a bit of it. -/
theorem storeThenLoadGivesTheStoredDoubleword :
    Obligations.StoreThenLoadGivesTheStoredDoubleword := by
  intro i j s t u src d o o' hsrc hm ha hi hm' ha' hd haddr hj b hb
  obtain ⟨src', hsrc', rfl⟩ := exec_next_of_store i s t o hi hm ha
  obtain rfl : src = src' := Option.some.inj (hsrc.symm.trans hsrc')
  have hlow : lowDword (u.readVec d) = lowDword (s.readVec src) := by
    rw [lowDword_of_load j _ u d o' hj hm' ha' hd, haddr, read32_advance, read32_write32]
  have hbit (w : Vec) : (lowDword w).getLsbD b = w.getLsbD b := by
    rw [lowDword_getLsbD, decide_eq_true hb, Bool.true_and]
  rw [← hbit, hlow, hbit]

end Sys2Proof.Machine

/-! PROOF. The VEX forms (R110 to R114): what a register move leaves, a load with full zero extension, a
store, and the order of their preamble, by a lemma that reads a preamble line by line. -/

namespace Sys2Proof.Machine

/-! ## The register moves -/

/-- Every bit of the destination of a VEX register move, whichever of its registers coincide (R13). -/
theorem mergeZeroUpper_lowDword_bits (s : State) (d s1 s2 : VReg) (j : Nat) :
    ((s.mergeZeroUpper d s1 (lowDword (s.readVec s2))).readVec d).getLsbD j =
      if j < 32 then (s.readVec s2).getLsbD j
      else if j < 128 then (s.readVec s1).getLsbD j
      else false := by
  rw [mergeZeroUpper_bits]
  split
  next h32 => rw [lowDword_getLsbD, decide_eq_true h32, Bool.true_and]
  next => rfl

/-- Both VEX register moves take bits 31:0 of the second source and bits 127:32 of the first, and raise what
the preamble raises. -/
theorem moveVex_spec (h : Head) (p : Vex) (d src : VReg) (n : Nat) (s : State) :
    (VexReady false h p s → ∃ t, moveVex (vexChecks false h p s) d p.vreg src n s = .next t ∧
      (∀ j, (t.readVec d).getLsbD j =
        if j < 32 then (s.readVec src).getLsbD j
        else if j < 128 then (s.readVec p.vreg).getLsbD j
        else false) ∧
      t.pc = s.pc + BitVec.ofNat 64 n ∧
      KeepsVecsBut d s t ∧ KeepsControl s t ∧ KeepsMem s t ∧ t.choices = s.choices) ∧
    RaisesOnlyUdOrNm s (moveVex (vexChecks false h p s) d p.vreg src n s) := by
  refine ⟨fun hr => ?_, fun f hf => ?_⟩
  · have hgo := (moveVex_next _ d p.vreg src n s _).mpr ⟨(vexChecks_eq_none ..).mpr hr, rfl⟩
    exact ⟨_, hgo, mergeZeroUpper_lowDword_bits s d p.vreg src, writeVec_advance_frame s d _ n⟩
  · exact vexChecks_fault false h p s f ((finish_eq_fault ..).mp hf)

/-- Settles O18: opcode 10 is the move to `R ++ reg`. -/
theorem vexMoveOpcode10 : Obligations.VexMoveOpcode10 := fun h p reg rm s =>
  moveVex_spec h p (vreg4 p.r reg) (vreg4 p.b rm) _ s

/-- Settles O20: opcode 11 is the same move to `B ++ rm`. -/
theorem vexMoveOpcode11 : Obligations.VexMoveOpcode11 := fun h p reg rm s =>
  moveVex_spec h p (vreg4 p.b rm) (vreg4 p.r reg) _ s

/-! ## The memory forms -/

/-- Settles O19: the load zeroes every bit above its doubleword, and its access raises its own faults. -/
theorem vexLoad : Obligations.VexLoad := by
  rintro h p reg m s o rfl hr
  refine ⟨fun hacc => ?_, fun f => exec_of_accessFault (.v10rm h p reg m) s _ .read f hr rfl trivial⟩
  have hgo := (loadVex_next _ _ (vreg4 p.r reg) (Instr.v10rm h p reg m).ilen s _).mpr
    ⟨⟨(vexChecks_eq_none ..).mpr hr, hacc⟩, rfl⟩
  exact ⟨_, hgo, loadZeroUpper_bits s _ _, writeVec_advance_frame s _ _ _⟩

/-- Settles O21: the store writes its four bytes, and its access raises its own faults. -/
theorem vexStore : Obligations.VexStore := by
  rintro h p reg m s o rfl hr
  refine ⟨fun hacc => ?_, fun f => exec_of_accessFault (.v11mr h p reg m) s _ .write f hr rfl trivial⟩
  have hgo := (storeLow_next _ _ (vreg4 p.r reg) (Instr.v11mr h p reg m).ilen s _).mpr
    ⟨⟨(vexChecks_eq_none ..).mpr hr, hacc⟩, rfl⟩
  exact ⟨_, hgo, byteAt_stored s _ _ _, write32_advance_frame s _ _ _⟩

/-! ## The preamble of the VEX forms -/

/-- One line of a preamble: where its condition holds the form ends with its stop, and else the lines after
it decide. -/
theorem exec_of_preamble_line {i : Instr} {s : State} {c : Bool} {e : Stop} {l : List (Bool × Stop)}
    {o : Host.Outcome State Fault Refusal} {P Q : Prop} [Decidable P]
    (hpre : preamble i s = firstStop ((c, e) :: l)) (hc : c = true ↔ P) (ho : e.outcome = o)
    (hrest : preamble i s = firstStop l → Q) : if P then exec i s = o else Q := by
  split
  next hP => rw [← ho, exec_of_preamble_stop i s e (hpre.trans (firstStop_of_true c e l (hc.mpr hP)))]
  next hP =>
    have hfalse : c = false := Bool.eq_false_iff.mpr (mt hc.mp hP)
    exact hrest (hpre.trans (firstStop_of_false c e l hfalse))

/-- The preamble of the four VEX forms, and which of them have a memory operand. -/
theorem preamble_vex_isMem (h : Head) (p : Vex) (reg rm : BitVec 3) (m : MemForm) (s : State) (i : Instr)
    (hi : i = .v10rr h p reg rm ∨ i = .v10rm h p reg m ∨ i = .v11rr h p reg rm ∨ i = .v11mr h p reg m) :
    ∃ isMem, preamble i s = vexChecks isMem h p s ∧
      (isMem = true ↔ i = .v10rm h p reg m ∨ i = .v11mr h p reg m) := by
  rcases hi with rfl | rfl | rfl | rfl <;> exact ⟨_, rfl, by simp⟩

/-- Settles O22: the statement's lines are the preamble's, condition by condition. -/
theorem vexPreambleOrder : Obligations.VexPreambleOrder := by
  intro i h p reg rm m s hi
  obtain ⟨isMem, hpre, hmem⟩ := preamble_vex_isMem h p reg rm m s i hi
  rw [vexChecks] at hpre
  have hov : (!h.overridesAdmitted) = true ↔
      1 < h.pfx.countP (· ∈ [.segCs, .segSs, .segDs, .segEs, .segFs, .segGs]) ∨
        1 < h.pfx.count .addrSize := by
    rw [Bool.not_eq_true', overridesAdmitted_eq_false]
  refine exec_of_preamble_line hpre (by simp) rfl fun hpre => ?_
  refine exec_of_preamble_line hpre Iff.rfl rfl fun hpre => ?_
  refine exec_of_preamble_line hpre hov rfl fun hpre => ?_
  refine exec_of_preamble_line hpre (badForVex_iff h) rfl fun hpre => ?_
  refine exec_of_preamble_line hpre (by simp) rfl fun hpre => ?_
  refine exec_of_preamble_line hpre (by simp [hmem]) rfl fun hpre => ?_
  refine exec_of_preamble_line hpre Iff.rfl rfl fun hpre => ?_
  exact (preamble_eq_none_iff i s).mp hpre

end Sys2Proof.Machine

/-! PROOF. The EVEX forms (R120 to R125): the writemask, a masked-off access that is stopped or completes
(R139), the register moves, the load and the store, the order of their preamble, and their agreement with
the VEX forms where there is no writemask. -/

namespace Sys2Proof.Machine

/-! ## The writemask -/

/-- The mask bit a meaning tests is 0 exactly where the writemask does not let the doubleword through. -/
theorem maskBit_eq_false_iff (p : Evex) (s : State) : s.maskBit p = false ↔ ¬ MaskOn p s := by
  rw [← maskBit_iff_maskOn, Bool.not_eq_true]

/-- Settles O27: the rows are those of `maskedLow_cases`, and R88 refuses the last one. -/
theorem maskedLowTruthTable : Obligations.MaskedLowTruthTable := by
  intro p s new old
  obtain ⟨hon, hmerge, hzero⟩ := maskedLow_cases p s new old
  have hoff (ha : p.aaa ≠ 0#3) (hk : (s.readMask p.aaa).getLsbD 0 = false) : ¬ MaskOn p s := by
    simp [MaskOn, ha, hk]
  refine ⟨fun ha => hon (.inl ha), fun _ hk => hon (.inr hk), fun ha hk => hmerge (hoff ha hk),
    fun ha hk => hzero (hoff ha hk), fun ha hz => ⟨?_, fun hmode h reg rm m i hi => ?_⟩⟩
  · rintro isMem isStore h ⟨-, hmask, -⟩
    exact hmask hz ha
  · obtain ⟨-, hfields, -⟩ := evexReservedFields
    obtain ⟨hrefused, -⟩ := hfields h p reg rm m s i (by simpa using hi) hmode
    exact hrefused hz ha

/-! ## The register moves -/

/-- Both EVEX register moves take bits 31:0 by the writemask and bits 127:32 of the first source, and raise
what the preamble raises. -/
theorem moveEvex_spec (h : Head) (p : Evex) (d src : VReg) (n : Nat) (s : State) :
    (EvexReady false false h p s →
      ∃ t, moveEvex (evexChecks false false h p s) p d p.vreg src n s = .next t ∧
      (∀ j, (MaskOn p s → j < 32 → (t.readVec d).getLsbD j = (s.readVec src).getLsbD j) ∧
        (¬ MaskOn p s → p.z = false → j < 32 → (t.readVec d).getLsbD j = (s.readVec d).getLsbD j) ∧
        (¬ MaskOn p s → p.z = true → j < 32 → (t.readVec d).getLsbD j = false) ∧
        (32 ≤ j → j < 128 → (t.readVec d).getLsbD j = (s.readVec p.vreg).getLsbD j) ∧
        (128 ≤ j → (t.readVec d).getLsbD j = false)) ∧
      t.pc = s.pc + BitVec.ofNat 64 n ∧
      KeepsVecsBut d s t ∧ KeepsControl s t ∧ KeepsMem s t ∧ t.choices = s.choices) ∧
    RaisesOnlyUdOrNm s (moveEvex (evexChecks false false h p s) p d p.vreg src n s) := by
  refine ⟨fun hr => ?_, fun f hf => ?_⟩
  · have hgo := (moveEvex_next _ p d p.vreg src n s _).mpr ⟨(evexChecks_eq_none ..).mpr hr, rfl⟩
    exact ⟨_, hgo, fun j => maskedMove_bits p s d p.vreg src j n _ rfl, writeVec_advance_frame s d _ n⟩
  · exact evexChecks_fault false false h p s f ((finish_eq_fault ..).mp hf)

/-- Settles O23: opcode 10 is the move to `R' ++ R ++ reg`. -/
theorem evexMoveOpcode10 : Obligations.EvexMoveOpcode10 := fun h p reg rm s =>
  moveEvex_spec h p (vreg5 p.r1 p.r reg) (vreg5 p.x p.b rm) _ s

/-- Settles O25: opcode 11 is the same move to `X ++ B ++ rm`. -/
theorem evexMoveOpcode11 : Obligations.EvexMoveOpcode11 := fun h p reg rm s =>
  moveEvex_spec h p (vreg5 p.x p.b rm) (vreg5 p.r1 p.r reg) _ s

/-! ## A masked-off access -/

/-- Under `check` a masked-off access raises what its check finds (R139). -/
theorem probeStop_of_check (s : State) (a : Word) (kind : AccessKind) (seg : Seg) (f : Fault)
    (hcfg : s.cfg.faultSuppression = .check) (hf : s.accessFault a kind seg = some f) :
    s.probeStop a kind seg = some (.fault f) := by
  simp [State.probeStop, hf, hcfg]

/-- Under `either` a masked-off access raises what its check finds, or is not stopped (R139, log 9). -/
theorem probeStop_of_either (s : State) (a : Word) (kind : AccessKind) (seg : Seg) (f : Fault)
    (hcfg : s.cfg.faultSuppression = .either) (hf : s.accessFault a kind seg = some f) :
    s.probeStop a kind seg = some (.fault f) ∨ s.probeStop a kind seg = none := by
  cases hc : Config.suppressChoice s.choices <;> simp [State.probeStop, hf, hcfg, hc]

/-- Under `either` a masked-off access whose check finds a fault takes one choice (log 9). -/
theorem afterProbe_of_either (s : State) (a : Word) (kind : AccessKind) (seg : Seg) (f : Fault)
    (hcfg : s.cfg.faultSuppression = .either) (hf : s.accessFault a kind seg = some f) :
    s.afterProbe a kind seg = { s with choices := s.choices + 1 } := by
  simp [State.afterProbe, hf, hcfg]

/-- A form that passes its preamble, and whose masked-off access is stopped by a fault, raises that fault. -/
theorem exec_of_probeFault (i : Instr) (s : State) (o : MemOperand) (k : AccessKind) (f : Fault)
    (hr : Ready i s) (hm : memOperand i s = some (o, k)) (ha : ¬ AccessMade i s)
    (hf : s.probeStop o.addr k o.seg = some (.fault f)) : exec i s = .fault f := by
  obtain ⟨t, hexec, -⟩ := exec_accessMasked i s o k hr hm ha
  rw [hexec, finish_eq_fault, hf]

/-! ## The load -/

/-- What an EVEX load leaves whose access is masked off (R121, R124): bits 31:0 of the destination as they
were, or 0 under zeroing-masking. -/
def State.loadMasked (p : Evex) (o : MemOperand) (d : VReg) (s : State) : State :=
  (s.afterProbe o.addr .read o.seg).loadZeroUpper d (maskedLow false p.z 0#32 (lowDword (s.readVec d)))

/-- Every bit of the destination of a masked-off load. -/
theorem loadMasked_bits (p : Evex) (o : MemOperand) (d : VReg) (s : State) (j : Nat) :
    ((s.loadMasked p o d).readVec d).getLsbD j =
      if j < 32 ∧ p.z = false then (s.readVec d).getLsbD j else false := by
  rw [State.loadMasked, loadZeroUpper_bits]
  by_cases h32 : j < 32
  · have hlow : (lowDword (s.readVec d)).getLsbD j = (s.readVec d).getLsbD j := by
      rw [lowDword_getLsbD, decide_eq_true h32, Bool.true_and]
    cases p.z with
    | false => simpa only [maskedLow, Bool.false_eq_true, h32, and_self, if_true, if_false] using hlow
    | true => simp [maskedLow]
  · simp [h32]

/-- A masked-off load that advances leaves everything but its destination and the choices taken, `c` of them
after its check. -/
theorem loadMasked_advance_frame (p : Evex) (o : MemOperand) (d : VReg) (n c : Nat) (s : State)
    (hc : (s.afterProbe o.addr .read o.seg).choices = c) :
    ((s.loadMasked p o d).advance n).pc = s.pc + BitVec.ofNat 64 n ∧
      KeepsVecsBut d s ((s.loadMasked p o d).advance n) ∧
      KeepsControl s ((s.loadMasked p o d).advance n) ∧ KeepsMem s ((s.loadMasked p o d).advance n) ∧
      ((s.loadMasked p o d).advance n).choices = c := by
  refine ⟨by simp [State.loadMasked], fun i hi => ?_, ?_, keepsMem_of_eq _ _ ?_ ?_, hc⟩
  · rw [readVec_advance, State.loadMasked, readVec_loadZeroUpper_other _ _ hi, readVec_afterProbe]
  · simp [KeepsControl, State.flagRegs, State.loadMasked]
  · simp [State.loadMasked]
  · simp [State.loadMasked]

/-- An EVEX load whose access is masked off, and not stopped, completes. -/
theorem execE10rm_masked (h : Head) (p : Evex) (reg : BitVec 3) (m : MemForm) (s : State) (o : MemOperand)
    (ho : o = evexOperand h p m (Instr.e10rm h p reg m).ilen s) (hr : EvexReady true false h p s)
    (hoff : ¬ MaskOn p s) (hprobe : s.probeStop o.addr .read o.seg = none) :
    exec (.e10rm h p reg m) s =
      .next ((s.loadMasked p o (vreg5 p.r1 p.r reg)).advance (Instr.e10rm h p reg m).ilen) := by
  subst ho
  exact (loadEvex_next ..).mpr
    (.inr ⟨(maskBit_eq_false_iff ..).mpr hoff, (evexChecks_eq_none ..).mpr hr, hprobe, rfl⟩)

/-- Settles O24: with the mask bit 1 the access is made as by the VEX load; with 0 the outcomes are those of
its check. -/
theorem evexLoad : Obligations.EvexLoad := by
  rintro h p reg m s o rfl hr
  refine ⟨fun hon hacc => ?_, fun hoff hok => ?_, fun f hon => ?_,
    fun f hoff hf => ⟨fun hcfg => ?_, fun hcfg => ?_⟩⟩
  · have hgo := (loadEvex_next _ p _ (vreg5 p.r1 p.r reg) (Instr.e10rm h p reg m).ilen s _).mpr
      (.inl ⟨(maskBit_iff_maskOn ..).mpr hon, (evexChecks_eq_none ..).mpr hr, hacc, rfl⟩)
    exact ⟨_, hgo, loadZeroUpper_bits s _ _, writeVec_advance_frame s _ _ _⟩
  · have hgo := execE10rm_masked h p reg m s _ rfl hr hoff (probeStop_of_probeOk s _ .read hok)
    exact ⟨_, hgo, loadMasked_bits p _ _ s, loadMasked_advance_frame p _ _ _ _ s
      (by rw [afterProbe_of_probeOk s _ .read hok])⟩
  · exact exec_of_accessFault (.e10rm h p reg m) s _ .read f hr rfl hon
  · exact exec_of_probeFault (.e10rm h p reg m) s _ .read f hr rfl hoff
      (probeStop_of_check s _ _ _ f hcfg hf)
  · rcases probeStop_of_either s _ .read _ f hcfg hf with hstop | hprobe
    · exact .inl (exec_of_probeFault (.e10rm h p reg m) s _ .read f hr rfl hoff hstop)
    · have hgo := execE10rm_masked h p reg m s _ rfl hr hoff hprobe
      exact .inr ⟨_, hgo, loadMasked_bits p _ _ s, loadMasked_advance_frame p _ _ _ _ s
        (by rw [afterProbe_of_either s _ _ _ f hcfg hf])⟩

/-! ## The store -/

/-- An EVEX store whose access is masked off, and not stopped, advances and does nothing more. -/
theorem execE11mr_masked (h : Head) (p : Evex) (reg : BitVec 3) (m : MemForm) (s : State) (o : MemOperand)
    (ho : o = evexOperand h p m (Instr.e11mr h p reg m).ilen s) (hr : EvexReady true true h p s)
    (hoff : ¬ MaskOn p s) (hprobe : s.probeStop o.addr .write o.seg = none) :
    exec (.e11mr h p reg m) s =
      .next ((s.afterProbe o.addr .write o.seg).advance (Instr.e11mr h p reg m).ilen) := by
  subst ho
  exact (storeEvex_next ..).mpr
    (.inr ⟨(maskBit_eq_false_iff ..).mpr hoff, (evexChecks_eq_none ..).mpr hr, hprobe, rfl⟩)

/-- Settles O26: with the mask bit 1 the store writes its four bytes; with 0 the outcomes are those of the
check of its access. -/
theorem evexStore : Obligations.EvexStore := by
  rintro h p reg m s o rfl hr
  refine ⟨fun hon hacc => ?_, fun hoff hok => ?_, fun f hon => ?_,
    fun f hoff hf => ⟨fun hcfg => ?_, fun hcfg => ?_⟩⟩
  · have hgo := (storeEvex_next _ p _ (vreg5 p.r1 p.r reg) (Instr.e11mr h p reg m).ilen s _).mpr
      (.inl ⟨(maskBit_iff_maskOn ..).mpr hon, (evexChecks_eq_none ..).mpr hr, hacc, rfl⟩)
    exact ⟨_, hgo, byteAt_stored s _ _ _, write32_advance_frame s _ _ _⟩
  · rw [execE11mr_masked h p reg m s _ rfl hr hoff (probeStop_of_probeOk s _ .write hok),
      afterProbe_of_probeOk s _ .write hok]
    rfl
  · exact exec_of_accessFault (.e11mr h p reg m) s _ .write f hr rfl hon
  · exact exec_of_probeFault (.e11mr h p reg m) s _ .write f hr rfl hoff
      (probeStop_of_check s _ _ _ f hcfg hf)
  · rcases probeStop_of_either s _ .write _ f hcfg hf with hstop | hprobe
    · exact .inl (exec_of_probeFault (.e11mr h p reg m) s _ .write f hr rfl hoff hstop)
    · right
      rw [execE11mr_masked h p reg m s _ rfl hr hoff hprobe, afterProbe_of_either s _ _ _ f hcfg hf]
      rfl

/-! ## The preamble of the EVEX forms -/

/-- The preamble of the four EVEX forms, which of them have a memory operand, and which is the store. -/
theorem preamble_evex_flags (h : Head) (p : Evex) (reg rm : BitVec 3) (m : MemForm) (s : State) (i : Instr)
    (hi : i = .e10rr h p reg rm ∨ i = .e10rm h p reg m ∨ i = .e11rr h p reg rm ∨ i = .e11mr h p reg m) :
    ∃ isMem isStore, preamble i s = evexChecks isMem isStore h p s ∧
      (isMem = true ↔ i = .e10rm h p reg m ∨ i = .e11mr h p reg m) ∧
      (isStore = true ↔ i = .e11mr h p reg m) := by
  rcases hi with rfl | rfl | rfl | rfl <;> exact ⟨_, _, rfl, by simp⟩

/-- Settles O28: the statement's lines are the preamble's, condition by condition. -/
theorem evexPreambleOrder : Obligations.EvexPreambleOrder := by
  intro i h p reg rm m s hi
  obtain ⟨isMem, isStore, hpre, hmem, hstore⟩ := preamble_evex_flags h p reg rm m s i hi
  rw [evexChecks] at hpre
  have hov : (!h.overridesAdmitted) = true ↔
      1 < h.pfx.countP (· ∈ [.segCs, .segSs, .segDs, .segEs, .segFs, .segGs]) ∨
        1 < h.pfx.count .addrSize := by
    rw [Bool.not_eq_true', overridesAdmitted_eq_false]
  refine exec_of_preamble_line hpre (by simp) rfl fun hpre => ?_
  refine exec_of_preamble_line hpre (by simp) rfl fun hpre => ?_
  refine exec_of_preamble_line hpre (by simp) rfl fun hpre => ?_
  refine exec_of_preamble_line hpre hov rfl fun hpre => ?_
  refine exec_of_preamble_line hpre (badForVex_iff h) rfl fun hpre => ?_
  refine exec_of_preamble_line hpre (by simp) rfl fun hpre => ?_
  refine exec_of_preamble_line hpre (by simp) rfl fun hpre => ?_
  refine exec_of_preamble_line hpre (by simp [hmem]) rfl fun hpre => ?_
  refine exec_of_preamble_line hpre (by simp [hstore]) rfl fun hpre => ?_
  refine exec_of_preamble_line hpre Iff.rfl rfl fun hpre => ?_
  refine exec_of_preamble_line hpre Iff.rfl rfl fun hpre => ?_
  exact (preamble_eq_none_iff i s).mp hpre

/-! ## No writemask -/

section
variable (stop : Option Stop) {p : Evex} (o : MemOperand) (d s1 s2 : VReg) (n : Nat) {s : State}

/-- Where the mask bit is 1, the EVEX register move is the VEX one. -/
theorem moveEvex_of_maskOn (hon : MaskOn p s) :
    moveEvex stop p d s1 s2 n s = moveVex stop d s1 s2 n s := by
  obtain ⟨hnew, -, -⟩ := maskedLow_cases p s (lowDword (s.readVec s2)) (lowDword (s.readVec d))
  rw [moveEvex, hnew hon, moveVex]

/-- Where the mask bit is 1, the EVEX load is the VEX one. -/
theorem loadEvex_of_maskOn (hon : MaskOn p s) :
    loadEvex stop p o d n s = loadVex stop o d n s := by
  rw [loadEvex, if_pos ((maskBit_iff_maskOn p s).mpr hon), loadVex]

/-- Where the mask bit is 1, the EVEX store is that of every class. -/
theorem storeEvex_of_maskOn (hon : MaskOn p s) :
    storeEvex stop p o d n s = storeLow stop o d n s := by
  rw [storeEvex, if_pos ((maskBit_iff_maskOn p s).mpr hon)]

end

/-- Two outcomes that advance one state by different lengths differ in `pc` alone. -/
theorem agree_but_pc_of_advance {a b : Host.Outcome State Fault Refusal} {w : State} {n n' : Nat}
    (ha : a = .next (w.advance n)) (hb : b = .next (w.advance n')) :
    ∃ t u, a = .next t ∧ b = .next u ∧ t = { u with pc := t.pc } :=
  ⟨_, _, ha, hb, rfl⟩

/-- Settles O34: without a writemask each EVEX movement is the VEX one, on the same operands. -/
theorem evexWithoutMaskActsAsVex : Obligations.EvexWithoutMaskActsAsVex := by
  intro h h' p q reg reg' rm rm' m m' s haaa hreg
  have hon : MaskOn p s := .inl haaa
  refine ⟨fun he hv hrm hs1 => ?_, fun he hv ho hacc => ?_, fun he hv ho hacc => ?_⟩ <;>
    rw [← evexChecks_eq_none] at he <;> rw [← vexChecks_eq_none] at hv
  · simp only [exec, execE10rr, execV10rr, execE11rr, execV11rr, moveEvex_of_maskOn _ _ _ _ _ hon, he, hv,
      hreg, hrm, hs1]
    exact ⟨agree_but_pc_of_advance rfl rfl, agree_but_pc_of_advance rfl rfl⟩
  · have hacc' := ho ▸ hacc
    simp only [exec, execE10rm, execV10rm, loadEvex_of_maskOn _ _ _ _ hon, he, hv, hreg, ho]
    exact agree_but_pc_of_advance ((loadVex_next ..).mpr ⟨⟨rfl, hacc'⟩, rfl⟩)
      ((loadVex_next ..).mpr ⟨⟨rfl, hacc'⟩, rfl⟩)
  · have hacc' := ho ▸ hacc
    simp only [exec, execE11mr, execV11mr, storeEvex_of_maskOn _ _ _ _ hon, he, hv, hreg, ho]
    exact agree_but_pc_of_advance ((storeLow_next ..).mpr ⟨⟨rfl, hacc'⟩, rfl⟩)
      ((storeLow_next ..).mpr ⟨⟨rfl, hacc'⟩, rfl⟩)

end Sys2Proof.Machine

/-! PROOF. The exceptions of a memory access and of a masked-off one, and the address every exception
carries (R134 to R137, R139, R142, R143): first what the two checks of an access answer, then how a form
ends by them. -/

namespace Sys2Proof.Machine

/-! ## The checks of an access -/

/-- `AlignCheck` forbids exactly the addresses that are no multiple of 4 (R42). -/
theorem misaligned_iff (s : State) (a : Word) :
    s.misaligned a = true ↔ s.cfg.alignCheck = true ∧ a.toNat % 4 ≠ 0 := by
  rw [State.misaligned, Bool.and_eq_true, bne_iff_ne]

theorem misaligned_eq_false_iff (s : State) (a : Word) :
    s.misaligned a = false ↔ s.cfg.alignCheck = false ∨ a.toNat % 4 = 0 := by
  rw [State.misaligned, Bool.and_eq_false_iff, bne_eq_false_iff_eq]

section
variable {s : State} {a : Word} {kind : AccessKind} {seg : Seg} {f : Fault}

/-- An aligned or unchecked access raises what `MemCheck` answers (R47). -/
theorem accessFault_of_aligned (ha : s.misaligned a = false) :
    s.accessFault a kind seg = s.memCheck a 4 kind seg := by
  unfold State.accessFault
  rw [ha]
  cases s.memCheck a 4 kind seg <;> rfl

/-- A misaligned, checked access for which `MemCheck` answers ok raises `#AC(0)` (R137). -/
theorem accessFault_of_misaligned (ha : s.misaligned a = true) (hm : s.memCheck a 4 kind seg = none) :
    s.accessFault a kind seg = some (.alignmentCheck s.pc) := by
  unfold State.accessFault
  rw [hm, ha]

/-- Where both checks of an access find an exception, it raises one of the two (R142, log 10). -/
theorem accessFault_of_both (ha : s.misaligned a = true) (hm : s.memCheck a 4 kind seg = some f) :
    s.accessFault a kind seg = some (.alignmentCheck s.pc) ∨ s.accessFault a kind seg = some f := by
  unfold State.accessFault
  rw [hm, ha]
  cases hfirst : Config.alignmentFirst s.choices with
  | true => exact .inl rfl
  | false => exact .inr rfl

/-- `MemCheck` asks for every byte of the access whether it is canonical. -/
theorem accessBytes_canonical_iff (w : LinearWidth) (a : Word) (n : Nat) :
    (accessBytes a n).all (canonical w) = true ↔
      ∀ k < n, canonical w (a + BitVec.ofNat 64 k) = true := by
  simp [accessBytes]

/-- A byte that is not canonical is answered by the segment, before the launch map (R134, R135, log 6). -/
theorem memCheck_of_not_canonical {n k : Nat} (hk : k < n)
    (hc : canonical s.cfg.linearWidth (a + BitVec.ofNat 64 k) = false) :
    s.memCheck a n kind seg =
      some (if seg = .ss then .stackFault s.pc else .generalProtection s.pc) := by
  have hall : ¬ (accessBytes a n).all (canonical s.cfg.linearWidth) = true := by
    rw [accessBytes_canonical_iff]
    exact fun h => by simp [h k hk] at hc
  rw [State.memCheck, if_neg hall]
  split_ifs <;> rfl

/-- At canonical addresses the first entry of the launch map that fits answers (R47). -/
theorem memCheck_of_first_fit {n : Nat} {e : MapEntry} {l l' : List MapEntry}
    (hc : ∀ k < n, canonical s.cfg.linearWidth (a + BitVec.ofNat 64 k) = true)
    (hmap : s.cfg.memMap = l ++ e :: l') (hl : ∀ x ∈ l, entryFits x a kind seg = false)
    (he : entryFits e a kind seg = true) :
    s.memCheck a n kind seg = answerFault s.pc a e.answer := by
  have hfind : s.cfg.memMap.find? (fun x => entryFits x a kind seg) = some e :=
    List.find?_eq_some_iff_append.mpr ⟨he, l, l', hmap, fun x hx => by simp [hl x hx]⟩
  rw [State.memCheck, if_pos ((accessBytes_canonical_iff ..).mpr hc), hfind]

end

/-! ## An access that is made -/

/-- A form that passes its preamble, and whose access is made and goes through, completes. -/
theorem exec_next_of_accessOk (i : Instr) (s : State) (o : MemOperand) (k : AccessKind) (hr : Ready i s)
    (hm : memOperand i s = some (o, k)) (ha : AccessMade i s) (hacc : AccessOk s o k) :
    ∃ t, exec i s = .next t := by
  obtain ⟨t, hexec⟩ := exec_accessMade i s o k hr hm ha
  exact ⟨t, hexec.trans ((finish_eq_next ..).mpr ⟨(accessStop_eq_none s o k).mpr hacc, rfl⟩)⟩

/-- Settles O48: where `MemCheck` answers ok, the access stops exactly by its alignment. -/
theorem misalignedAccessRaisesAlignmentCheck : Obligations.MisalignedAccessRaisesAlignmentCheck := by
  intro i s o k hr hm ha hdev hok
  refine ⟨fun hcheck hodd => ?_, fun haligned => ?_⟩
  · have hmis := (misaligned_iff s o.addr).mpr ⟨hcheck, hodd⟩
    exact exec_of_accessFault i s o k _ hr hm ha hdev (accessFault_of_misaligned hmis hok)
  · have hmis := (misaligned_eq_false_iff s o.addr).mpr haligned
    exact exec_next_of_accessOk i s o k hr hm ha ⟨hok, hmis, hdev⟩

/-- Settles O49: `MemCheck` answers a byte that is not canonical by the segment. -/
theorem nonCanonicalAccessRaisesSsOrGp : Obligations.NonCanonicalAccessRaisesSsOrGp := by
  intro i s o k n hr hm ha hdev hmis hn hc
  exact exec_of_accessFault i s o k _ hr hm ha hdev
    ((accessFault_of_aligned hmis).trans (memCheck_of_not_canonical hn hc))

/-- Settles O50: `MemCheck` answers what the first entry that fits does. -/
theorem pageFaultComesFromTheLaunchMap : Obligations.PageFaultComesFromTheLaunchMap := by
  intro i s o k e l l' code offset hr hm ha hdev hmis hc hmap hl he hans
  refine exec_of_accessFault i s o k _ hr hm ha hdev ?_
  rw [accessFault_of_aligned hmis, memCheck_of_first_fit hc hmap hl he, hans]
  rfl

/-- Settles O51: the free value picks one of the two exceptions, and the form raises it. -/
theorem alignmentCheckOrMemCheckException : Obligations.AlignmentCheckOrMemCheckException := by
  intro i s o k f hr hm ha hdev hmis hf
  exact (accessFault_of_both hmis hf).imp (exec_of_accessFault i s o k _ hr hm ha hdev)
    (exec_of_accessFault i s o k _ hr hm ha hdev)

/-! ## An access that is masked off -/

/-- A form that passes its preamble, and whose masked-off access is not stopped, completes with the choices
that its check took. -/
theorem exec_next_of_probe (i : Instr) (s : State) (o : MemOperand) (k : AccessKind) (hr : Ready i s)
    (hm : memOperand i s = some (o, k)) (ha : ¬ AccessMade i s)
    (hprobe : s.probeStop o.addr k o.seg = none) :
    ∃ t, exec i s = .next t ∧ t.choices = (s.afterProbe o.addr k o.seg).choices := by
  obtain ⟨t, hexec, hchoices, -⟩ := exec_accessMasked i s o k hr hm ha
  exact ⟨t, hexec.trans ((finish_eq_next ..).mpr ⟨hprobe, rfl⟩), hchoices⟩

/-- Settles O52: the form ends as the check of its masked-off access does under each setting, and makes no
store. -/
theorem maskedOffAccessIsSuppressedOrChecked : Obligations.MaskedOffAccessIsSuppressedOrChecked := by
  intro i s o k hr hm ha
  refine ⟨fun hcfg => ?_, fun f hcfg hf => ?_, fun f hcfg hf => ?_, fun hok => ?_, fun t ht => ?_⟩
  · obtain ⟨t, ht, -⟩ := exec_next_of_probe i s o k hr hm ha (probeStop_of_probeOk s o k (.inr hcfg))
    exact ⟨t, ht⟩
  · exact exec_of_probeFault i s o k f hr hm ha (probeStop_of_check s _ _ _ f hcfg hf)
  · rcases probeStop_of_either s _ k _ f hcfg hf with hstop | hprobe
    · exact .inl (exec_of_probeFault i s o k f hr hm ha hstop)
    · obtain ⟨t, ht, hchoices⟩ := exec_next_of_probe i s o k hr hm ha hprobe
      exact .inr ⟨t, ht, by rw [hchoices, afterProbe_of_either s _ k _ f hcfg hf]⟩
  · have hprobe : ProbeOk s o k := .inl ((accessFault_eq_none ..).mp hok)
    obtain ⟨t, ht, hchoices⟩ :=
      exec_next_of_probe i s o k hr hm ha (probeStop_of_probeOk s o k hprobe)
    exact ⟨t, ht, by rw [hchoices, afterProbe_of_probeOk s o k hprobe]⟩
  · obtain ⟨hmem, hstored⟩ := exec_mem_of_no_store i s t ht fun _ _ => ha
    exact keepsMem_of_eq s t hmem hstored

/-! ## The address an exception carries -/

/-- What stops a form faults exactly where it is a fault. -/
theorem stop_outcome_eq_fault (e : Stop) (f : Fault) : e.outcome = .fault f ↔ e = .fault f := by
  cases e <;> simp [Stop.outcome]

/-- A preamble faults only with `#UD` or `#NM` of this instruction, in every class. -/
theorem preamble_fault (i : Instr) (s : State) (f : Fault) (hf : preamble i s = some (.fault f)) :
    f = .invalidOpcode s.pc ∨ f = .deviceNotAvailable s.pc := by
  cases i with
  | l10rr | l10rm | l11mr | l11rr => exact legacyChecks_fault _ s f hf
  | v10rr | v10rm | v11rr | v11mr => exact vexChecks_fault _ _ _ s f hf
  | e10rr | e10rm | e11rr | e11mr => exact evexChecks_fault _ _ _ _ s f hf

/-- A form past its preamble faults only by its access, made or masked off. -/
theorem accessFault_of_exec_fault (i : Instr) (s : State) (f : Fault) (hr : Ready i s)
    (h : exec i s = .fault f) :
    ∃ o k, memOperand i s = some (o, k) ∧ s.accessFault o.addr k o.seg = some f := by
  cases hm : memOperand i s with
  | none =>
    obtain ⟨t, ht⟩ := exec_next_of_no_operand i s hr hm
    rw [ht] at h
    cases h
  | some ok =>
    obtain ⟨o, k⟩ := ok
    refine ⟨o, k, rfl, ?_⟩
    by_cases ha : AccessMade i s
    · obtain ⟨t, hexec⟩ := exec_accessMade i s o k hr hm ha
      rw [hexec, finish_eq_fault] at h
      rcases accessStop_cases _ _ _ _ _ h with hdev | ⟨g, hg, hf⟩
      · cases hdev
      · cases hg
        exact hf
    · obtain ⟨t, hexec, -⟩ := exec_accessMasked i s o k hr hm ha
      rw [hexec, finish_eq_fault] at h
      obtain ⟨g, hg, hf⟩ := probeStop_cases _ _ _ _ _ h
      cases hg
      exact hf

/-- A fault of a form, from its preamble or from its access, carries the address in `pc`. -/
theorem exec_fault_pc (i : Instr) (s : State) (f : Fault) (h : exec i s = .fault f) : f.pc = s.pc := by
  cases hpre : preamble i s with
  | some e =>
    rw [exec_of_preamble_stop i s e hpre, stop_outcome_eq_fault] at h
    rcases preamble_fault i s f (hpre.trans (congrArg some h)) with rfl | rfl <;> rfl
  | none =>
    obtain ⟨o, k, -, hf⟩ := accessFault_of_exec_fault i s f ((preamble_eq_none_iff i s).mp hpre) h
    exact accessFault_pc s o.addr k o.seg f hf

/-- A step that faults fetched an instruction, which raised the fault. -/
theorem step_fault (s : State) (f : Fault) (h : step s = .fault f) :
    ∃ i, s.fetch = .instr i ∧ exec i s = .fault f := by
  cases hfetch : s.fetch with
  | refuse r =>
    rw [step_of_fetch_refuse s r hfetch] at h
    cases h
  | instr i =>
    rw [step, hfetch] at h
    exact ⟨i, rfl, h⟩

/-- Settles O54: the fetch raises no fault, and the fault of a form carries the address in `pc`. -/
theorem faultsCarryThePcOfTheirInstruction : Obligations.FaultsCarryThePcOfTheirInstruction := by
  intro s f h
  obtain ⟨i, -, hexec⟩ := step_fault s f h
  exact exec_fault_pc i s f hexec

end Sys2Proof.Machine

/-! PROOF. The launch state and the power-up state (R160 to R163, logs 1, 2 and 5), and what a run of any
length keeps. -/

namespace Sys2Proof.Machine

/-! ## Runs of any length -/

theorem KeepsControl.refl (s : State) : KeepsControl s s :=
  ⟨rfl, rfl, rfl, rfl, rfl, rfl⟩

theorem KeepsControl.trans {s t u : State} (hst : KeepsControl s t) (htu : KeepsControl t u) :
    KeepsControl s u := by
  obtain ⟨hk, hx, hfs, hgs, hflags, hcfg⟩ := hst
  obtain ⟨hk', hx', hfs', hgs', hflags', hcfg'⟩ := htu
  exact ⟨hk'.trans hk, hx'.trans hx, hfs'.trans hfs, hgs'.trans hgs, hflags'.trans hflags,
    hcfg'.trans hcfg⟩

/-- Settles O56: what every step keeps, by induction on the run. -/
theorem everyRunKeepsControlStateAndTheInvariant :
    Obligations.EveryRunKeepsControlStateAndTheInvariant := by
  intro n s t h
  induction h with
  | done s => exact ⟨.refl s, id⟩
  | step n s t u hs _ ih =>
    obtain ⟨hcontrol, hinv⟩ := ih
    exact ⟨(noStepChangesControlState s t hs).trans hcontrol,
      fun hi => hinv (everyStepKeepsTheInvariant s t hi hs)⟩

/-! ## The launch state and the power-up state -/

/-- Every vector register of the launch state reads 0 (log 2). -/
@[simp] theorem readVec_reset (i : VReg) : State.reset.readVec i = 0#512 := by
  simp [State.readVec, State.reset, truncVec]

/-- Settles O57: nothing is listed or stored, every register is 0, and `pc` is 1000H. -/
theorem resetMeetsTheInvariant : Obligations.ResetMeetsTheInvariant where
  memWf := rfl
  storedOk := rfl
  vecWidth i := (readVec_reset i).trans (by simp [State.reset])
  maskWidth i := by simp [State.reset]
  absentVecs _ i _ := readVec_reset i
  pcCanonical := by decide

/-- Settles O58: R162's boot steps make every class ready, and the registers are as log 2 has them. -/
theorem resetIsTheLaunchState : Obligations.ResetIsTheLaunchState := by
  obtain ⟨-, -, -, -, henabled, hts⟩ := enabledFollowsTheControlRegisters SystemRegs.afterReset
  have hready (c : EncClass) : State.reset.classReady c = true := by
    cases c <;> simp [State.classReady, State.reset, launchAtReset, henabled]
  exact ⟨rfl, hts, hready, readVec_reset, fun i => by simp [State.readMask, State.reset],
    fun i => by simp [State.readGpr, State.reset], rfl, rfl, rfl, fun a => rfl⟩

/-- Settles O60: after reset CR4 and XCR0 enable no class, and the fetch looks at the mode first. -/
theorem nothingExecutesAfterPowerUp : Obligations.NothingExecutesAfterPowerUp := by
  refine ⟨by decide, fun m => ?_⟩
  exact stepRefusesEveryOtherMode _ (by simp [State.powerUp])

end Sys2Proof.Machine

/-! PROOF. Programs: reading the forms of a program off its bytes, the launch premises along a run, and how
a run ends (R163, R169, R142, R143, logs 14, 15, 16 and 25). -/

namespace Sys2Proof.Machine

/-! ## The bytes of forms in sequence -/

/-- R78 counts the bytes of the encoding, for every form. -/
theorem ilen_eq_encode_length (i : Instr) : i.ilen = (encode i).length := by
  cases i with
  | l10rr h reg rm => exact Laws.Length.l10rr h reg rm
  | l10rm h reg m => exact Laws.Length.l10rm h reg m
  | l11mr h reg m => exact Laws.Length.l11mr h reg m
  | l11rr h reg rm => exact Laws.Length.l11rr h reg rm
  | v10rr h p reg rm => exact Laws.Length.v10rr h p reg rm
  | v10rm h p reg m => exact Laws.Length.v10rm h p reg m
  | v11rr h p reg rm => exact Laws.Length.v11rr h p reg rm
  | v11mr h p reg m => exact Laws.Length.v11mr h p reg m
  | e10rr h p reg rm => exact Laws.Length.e10rr h p reg rm
  | e10rm h p reg m => exact Laws.Length.e10rm h p reg m
  | e11rr h p reg rm => exact Laws.Length.e11rr h p reg rm
  | e11mr h p reg m => exact Laws.Length.e11mr h p reg m

/-- Every form has a byte, so forms are no more than their bytes. -/
theorem length_le_flatMap_encode (is : List Instr) : is.length ≤ (is.flatMap encode).length := by
  induction is with
  | nil => rfl
  | cons i is ih =>
    have hpos := ilen_pos i
    rw [ilen_eq_encode_length] at hpos
    simp only [List.flatMap_cons, List.length_append, List.length_cons]
    omega

/-- The bytes of a program are those of its first forms, of the next one, and of those after it. -/
theorem flatMap_encode_at {is : List Instr} {n : Nat} {i : Instr} (h : is[n]? = some i) :
    is.flatMap encode =
      (is.take n).flatMap encode ++ (encode i ++ (is.drop (n + 1)).flatMap encode) := by
  obtain ⟨hn, rfl⟩ := List.getElem?_eq_some_iff.mp h
  rw [← List.flatMap_cons, List.getElem_cons_drop, ← List.flatMap_append, List.take_append_drop]

/-! ## Reading a program form by form -/

/-- A form at the front of the bytes is read first. -/
theorem readForms_of_decode (n : Nat) (i : Instr) (bs rest : List Byte)
    (hd : decode bs = .instr i rest) :
    readForms (n + 1) bs = (i :: (readForms n rest).1, (readForms n rest).2) := by
  cases bs with
  | nil => cases hd
  | cons c bs => rw [readForms, hd]

/-- Well-formed forms are read back from their bytes, to the last one. -/
theorem readForms_flatMap_encode (is : List Instr) (n : Nat) (hn : is.length ≤ n)
    (hwf : ∀ i ∈ is, i.wf = true) : readForms n (is.flatMap encode) = (is, .whole) := by
  induction is generalizing n with
  | nil => rw [List.flatMap_nil, readForms]
  | cons i is ih =>
    obtain ⟨hi, his⟩ := List.forall_mem_cons.mp hwf
    cases n with
    | zero => cases hn
    | succ n =>
      rw [List.flatMap_cons, readForms_of_decode n i _ _ (decodeReadsBackEveryEncoding i _ hi),
        ih n (Nat.le_of_succ_le_succ hn) his]

theorem programForms_flatMap_encode (is : List Instr) (hwf : ∀ i ∈ is, i.wf = true) :
    programForms (is.flatMap encode) = is := by
  rw [programForms, readForms_flatMap_encode is _ (length_le_flatMap_encode is) hwf]

/-- Bytes that are read to their end are those of well-formed forms. -/
theorem exists_forms_of_whole (n : Nat) (bs : List Byte) (h : (readForms n bs).2 = .whole) :
    ∃ is : List Instr, (∀ i ∈ is, i.wf = true) ∧ is.flatMap encode = bs := by
  fun_induction readForms n bs with
  | case1 => exact ⟨[], by simp, rfl⟩
  | case2 => cases h
  | case3 n c bs i rest hd ih =>
    obtain ⟨is, hwf, hbytes⟩ := ih h
    obtain ⟨hi, henc⟩ := encodeReadsBackEveryDecoding i _ rest hd
    exact ⟨i :: is, List.forall_mem_cons.mpr ⟨hi, hwf⟩, by rw [List.flatMap_cons, hbytes, henc]⟩
  | case4 => cases h
  | case5 => cases h

/-! ## Stretches of addresses -/

/-- The addresses of a stretch are those of its first part and those of the rest. -/
theorem accessBytes_add (a : Word) (m n : Nat) :
    accessBytes a (m + n) = accessBytes a m ++ accessBytes (a + BitVec.ofNat 64 m) n := by
  simp [accessBytes, List.range_add, BitVec.ofNat_add, BitVec.add_assoc]

theorem touches_add (regions : List Region) (a : Word) (m n : Nat) :
    touches regions a (m + n) =
      (touches regions a m || touches regions (a + BitVec.ofNat 64 m) n) := by
  simp [touches, accessBytes_add]

theorem add_ofNat_toNat (a : Word) (m : Nat) (h : a.toNat + m < 2 ^ 64) :
    (a + BitVec.ofNat 64 m).toNat = a.toNat + m := by
  rw [BitVec.toNat_add, BitVec.toNat_ofNat, Nat.add_mod_mod, Nat.mod_eq_of_lt h]

/-- A stretch that lies in range does so from each of its bytes on (R27, log 14). -/
theorem fetchInRange_of_within {s t : State} {m n k : Nat} (h : s.fetchInRange k = true)
    (hk : m + n ≤ k) (hpc : t.pc = s.pc + BitVec.ofNat 64 m) (hcfg : t.cfg = s.cfg) :
    t.fetchInRange n = true := by
  obtain ⟨hlt, hcanon⟩ := (fetchInRange_iff s k).mp h
  have hnum := add_ofNat_toNat s.pc m (by omega)
  refine (fetchInRange_iff t n).mpr ⟨by rw [hpc]; omega, fun j hj => ?_⟩
  rw [hcfg, hpc, BitVec.add_assoc, ← BitVec.ofNat_add]
  exact hcanon (m + j) (by omega)

/-! ## Code in memory -/

/-- What `code_mapped` asks of one state (R163): the bytes stand from `a` on, are admitted for fetch, and
none of them counts as stored. -/
structure CodeAt (prog : List Byte) (a : Word) (s : State) : Prop where
  bytes : s.bytesFrom a prog.length = prog
  admitted : touches s.cfg.noFetch a prog.length = false
  notStored : ∀ b ∈ accessBytes a prog.length, b.toNat ∉ s.stored

/-- The launch premise holds in every state of the run: a byte that a step changes counts as stored after
it, and none of the program does. -/
theorem codeAt_of_codeMapped {prog : List Byte} {base : Word} {n : Nat} {s t : State}
    (h : CodeMapped prog base s) (hr : RunsUntil (programEnd prog base) n s t) :
    CodeAt prog base t := by
  obtain ⟨hbytes, hadmitted, hstored⟩ := h
  have hruns := hr.runs
  refine ⟨?_, by rwa [runs_cfg n s t hruns], hstored n t hr⟩
  conv_rhs => rw [← hbytes]
  exact List.map_congr_left fun a ha => (runs_byteAt n s t a hruns (hstored n t hr a ha)).1

theorem CodeAt.of_append_right {p q : List Byte} {a : Word} {s : State} (h : CodeAt (p ++ q) a s) :
    CodeAt q (a + BitVec.ofNat 64 p.length) s := by
  obtain ⟨hbytes, hadmitted, hstored⟩ := h
  rw [List.length_append] at hbytes hadmitted hstored
  rw [bytesFrom_add] at hbytes
  rw [touches_add, Bool.or_eq_false_iff] at hadmitted
  refine ⟨(List.append_inj hbytes (bytesFrom_length ..)).2, hadmitted.2, fun b hb => hstored b ?_⟩
  rw [accessBytes_add]
  exact List.mem_append_right _ hb

/-- Where the bytes of a form stand at `pc`, in range, the step is that form (R82, R163). -/
theorem CodeAt.step_eq_exec {i : Instr} {rest : List Byte} {s : State}
    (h : CodeAt (encode i ++ rest) s.pc s) (hmode : s.cfg.mode = .long64) (hwf : i.wf = true)
    (hrange : s.fetchInRange i.ilen = true) : step s = exec i s := by
  obtain ⟨hbytes, hadmitted, hstored⟩ := h
  have hd : decode (s.bytesFrom s.pc (encode i ++ rest).length) = .instr i rest := by
    rw [hbytes]
    exact decodeReadsBackEveryEncoding i rest hwf
  rw [List.length_append, ← ilen_eq_encode_length] at hadmitted hstored
  have hadm : s.codeAdmitted i.ilen = true := by
    rw [touches_add, Bool.or_eq_false_iff] at hadmitted
    simp [State.codeAdmitted, hadmitted.1]
  have hmod : s.codeModified i.ilen = false := by
    rw [accessBytes_add] at hstored
    simpa [State.codeModified] using fun b hb => hstored b (List.mem_append_left _ hb)
  exact stepRunsTheDecodedInstruction s i _ rest hmode hd hrange hadm hmod

/-! ## A program of whole forms under the launch premises -/

theorem LaunchPremises.pc_eq {prog : List Byte} {base : Word} {s : State}
    (h : LaunchPremises prog base s) : s.pc = base := by
  obtain ⟨-, -, -, -, -, hpc⟩ := h
  exact hpc

section
variable {is : List Instr} {base : Word} {s t : State} {n : Nat}

/-- After `n` steps the form with number `n` runs, when `pc` is past the first `n`. -/
theorem step_eq_exec_at (hwf : ∀ i ∈ is, i.wf = true)
    (hlaunch : LaunchPremises (is.flatMap encode) base s)
    (hrange : s.fetchInRange (is.flatMap encode).length = true)
    (hr : RunsUntil (programEnd (is.flatMap encode) base) n s t)
    (hpc : t.pc = base + BitVec.ofNat 64 ((is.take n).flatMap encode).length)
    {i : Instr} (hi : is[n]? = some i) : step t = exec i t := by
  obtain ⟨hmode, -, -, -, hcode, rfl⟩ := hlaunch
  have hcfg := runs_cfg n s t hr.runs
  have hat := codeAt_of_codeMapped hcode hr
  rw [flatMap_encode_at hi] at hat hrange
  refine CodeAt.step_eq_exec (rest := (is.drop (n + 1)).flatMap encode) ?_ (by rwa [hcfg])
    (hwf i (List.mem_of_getElem? hi)) (fetchInRange_of_within hrange ?_ hpc hcfg)
  · rw [hpc]
    exact hat.of_append_right
  · simp [ilen_eq_encode_length]

/-- `n` steps are made by the first `n` forms, and leave `pc` past them. -/
theorem runsUntil_pc (hwf : ∀ i ∈ is, i.wf = true)
    (hlaunch : LaunchPremises (is.flatMap encode) base s)
    (hrange : s.fetchInRange (is.flatMap encode).length = true)
    (hr : RunsUntil (programEnd (is.flatMap encode) base) n s t) :
    n ≤ is.length ∧ t.pc = base + BitVec.ofNat 64 ((is.take n).flatMap encode).length := by
  induction n generalizing t with
  | zero =>
    cases hr
    simpa using hlaunch.pc_eq
  | succ n ih =>
    obtain ⟨u, hu, hnotEnd, hstep⟩ := runsUntil_last _ _ _ _ hr
    obtain ⟨hn, hpc⟩ := ih hu
    have hlt : n < is.length := by
      refine Nat.lt_of_le_of_ne hn fun he => hnotEnd ?_
      rw [hpc, he, List.take_length, programEnd]
    have hi := List.getElem?_eq_getElem hlt
    have hexec := (step_eq_exec_at hwf hlaunch hrange hu hpc hi).symm.trans hstep
    refine ⟨hlt, ?_⟩
    rw [exec_pc _ u t hexec, hpc, List.take_succ_eq_append_getElem hlt, List.flatMap_append,
      List.flatMap_singleton, List.length_append, BitVec.ofNat_add, BitVec.add_assoc, ilen_eq_encode_length]

/-- In range, `pc` past the first `n` forms is the end of the program only when there are no more. -/
theorem atEnd_iff (hn : n ≤ is.length) (hlt : base.toNat + (is.flatMap encode).length < 2 ^ 64)
    (hpc : t.pc = base + BitVec.ofNat 64 ((is.take n).flatMap encode).length) :
    n = is.length ↔ AtEnd (is.flatMap encode) base t := by
  constructor
  · rintro rfl
    rw [AtEnd, hpc, List.take_length, programEnd]
  · intro hend
    have hsplit : (is.flatMap encode).length =
        ((is.take n).flatMap encode).length + ((is.drop n).flatMap encode).length := by
      rw [← List.length_append, ← List.flatMap_append, List.take_append_drop]
    have hnum := congrArg BitVec.toNat (hpc.symm.trans hend)
    rw [programEnd, add_ofNat_toNat _ _ (by omega), add_ofNat_toNat _ _ hlt] at hnum
    have hle := length_le_flatMap_encode (is.drop n)
    rw [List.length_drop] at hle
    omega

end

/-- Settles O11: the launch premises hold in every state of the run, where `pc` is past the forms that have
run. -/
theorem underTheLaunchPremisesTheFirstInstructionRuns :
    Obligations.UnderTheLaunchPremisesTheFirstInstructionRuns := by
  refine ⟨fun i rest base s hwf hlaunch hrange => ?_, fun is base s t n hwf hlaunch hrange hr => ?_⟩
  · obtain ⟨hmode, -, -, -, hcode, rfl⟩ := hlaunch
    have hstep := (codeAt_of_codeMapped hcode (.done s)).step_eq_exec hmode hwf hrange
    refine ⟨hstep, fun t ht hrest => ?_⟩
    rw [AtEnd, exec_pc i s t (hstep.symm.trans ht), hrest, List.append_nil, programEnd,
      ilen_eq_encode_length]
  · obtain ⟨hn, hpc⟩ := runsUntil_pc hwf hlaunch hrange hr
    obtain ⟨hlt, -⟩ := (fetchInRange_iff s _).mp hrange
    rw [hlaunch.pc_eq] at hlt
    exact ⟨programForms_flatMap_encode is hwf, hn, hpc,
      fun i hi => step_eq_exec_at hwf hlaunch hrange hr hpc hi, atEnd_iff hn hlt hpc⟩

/-! ## The refusal of a program at its launch -/

/-- What a program that is not refused at its launch meets. -/
theorem programRefusal_eq_none_iff (prog : List Byte) (base : Word) (s : State) :
    s.programRefusal prog base = none ↔
      State.fetchInRange { s with pc := base } prog.length = true ∧
      State.codeAdmitted { s with pc := base } prog.length = true ∧
      (∀ i ∈ programForms prog, formRefusal i s = none) ∧ programReading prog ≠ .notMovss := by
  rw [← List.findSome?_eq_none_iff, State.programRefusal]
  cases State.fetchInRange { s with pc := base } prog.length with
  | false => simp
  | true =>
    cases State.codeAdmitted { s with pc := base } prog.length with
    | false => simp
    | true =>
      cases (programForms prog).findSome? (fun i => formRefusal i s) with
      | some r => simp
      | none => simp

/-- A program refused at its launch has no run. -/
theorem runProgram_of_programRefusal {prog : List Byte} {base : Word} {s : State}
    (h : s.programRefusal prog base ≠ none) : ∃ r, s.runProgram prog base = .refused r := by
  obtain ⟨r, hr⟩ := Option.ne_none_iff_exists'.mp h
  exact ⟨r, by rw [State.runProgram, hr]⟩

theorem runProgram_of_not_refused {prog : List Byte} {base : Word} {s : State}
    (h : s.programRefusal prog base = none) :
    s.runProgram prog base = s.runTo (programEnd prog base) prog.length := by
  rw [State.runProgram, h]

/-- An end other than a refusal is that of the steps of a program that was not refused at its launch. -/
theorem runTo_of_runProgram {prog : List Byte} {base : Word} {s : State} {e : RunEnd}
    (h : s.runProgram prog base = e) (he : ∀ r, e ≠ .refused r) :
    s.programRefusal prog base = none ∧ s.runTo (programEnd prog base) prog.length = e := by
  have hnone : s.programRefusal prog base = none := by
    by_contra hne
    obtain ⟨r, hr⟩ := runProgram_of_programRefusal hne
    exact he r (h.symm.trans hr)
  exact ⟨hnone, (runProgram_of_not_refused hnone).symm.trans h⟩

/-! ## How a run ends -/

theorem runTo_of_pc (stop : Word) (n : Nat) (s : State) (h : s.pc = stop) :
    s.runTo stop n = .final s := by
  cases n <;> rw [State.runTo, if_pos h]

/-- A run whose steps are over has made all of them. -/
theorem runTo_unended (stop : Word) (n : Nat) (s t : State) (h : s.runTo stop n = .unended t) :
    t.pc ≠ stop ∧ RunsUntil stop n s t := by
  fun_induction State.runTo stop n s with
  | case1 => cases h
  | case2 s hp => cases h; exact ⟨hp, .done _⟩
  | case3 => cases h
  | case4 n s hp u hs ih =>
    obtain ⟨hend, hr⟩ := ih h
    exact ⟨hend, .step n s u t hp hs hr⟩
  | case5 => cases h
  | case6 => cases h

section
variable {prog : List Byte} {base : Word} {s t : State} {n : Nat}

/-- A run of a program that is not refused goes through every state that steps lead to. -/
theorem runProgram_of_runsUntil (hnone : s.programRefusal prog base = none) (hn : n ≤ prog.length)
    (hr : RunsUntil (programEnd prog base) n s t) :
    s.runProgram prog base = t.runTo (programEnd prog base) (prog.length - n) := by
  rw [runProgram_of_not_refused hnone, ← runTo_of_runsUntil _ n _ s t hr, Nat.add_sub_cancel' hn]

/-- The end of a program in range is no more steps away than it has bytes. -/
theorem runsUntil_le_length (hbase : s.pc = base) (hnone : s.programRefusal prog base = none)
    (hr : RunsUntil (programEnd prog base) n s t) (hend : AtEnd prog base t) : n ≤ prog.length := by
  obtain ⟨hrange, -⟩ := (programRefusal_eq_none_iff prog base s).mp hnone
  obtain ⟨hlt, -⟩ := (fetchInRange_iff _ _).mp hrange
  have hend : t.pc.toNat = base.toNat + prog.length := by rw [hend, programEnd, add_ofNat_toNat _ _ hlt]
  have hle := runs_pc_le n s t hr.runs
  rw [hend, hbase] at hle
  exact Nat.le_of_add_le_add_left hle

/-- Before the end, a run that has steps left goes on with the next one. -/
theorem runProgram_before_end (hnone : s.programRefusal prog base = none) (hn : n < prog.length)
    (hr : RunsUntil (programEnd prog base) n s t) (hend : ¬ AtEnd prog base t) :
    (∀ f, step t = .fault f → s.runProgram prog base = .faulted f t) ∧
      (∀ r, step t = .refused r → s.runProgram prog base = .refused r) := by
  obtain ⟨k, hk⟩ := Nat.exists_eq_add_of_lt hn
  have hleft : prog.length - n = k + 1 := by omega
  rw [runProgram_of_runsUntil hnone hn.le hr, hleft, State.runTo, if_neg (show t.pc ≠ _ from hend)]
  exact ⟨fun f hf => by rw [hf], fun r hrf => by rw [hrf]⟩

/-- A refusal of a form in some state, other than for a device, is one in every state (R143). -/
theorem formRefusal_ne_none {i : Instr} {u : State} {r : Refusal} (hmode : u.cfg.mode = .long64)
    (h : exec i u = .refused r) (hr : r ≠ .deviceAccess) (s : State) : formRefusal i s ≠ none := by
  have hu : formRefusal i u = some r := (exec_refused i u r h).resolve_right hr
  by_cases hs : s.cfg.mode = .long64
  · simp [formRefusal_mode i s u (hs.trans hmode.symm), hu]
  · simp [formRefusal_other_mode i s hs]

/-- The programs that have no run whatever the state of their launch holds (R82, R87, R88, R62, R60). -/
theorem programRefusal_ne_none
    (h : (∃ i ∈ programForms prog, ∃ u : State, ∃ r, u.cfg.mode = .long64 ∧ exec i u = .refused r ∧
        r ≠ .deviceAccess) ∨
      programReading prog = .notMovss ∨ (programForms prog ≠ [] ∧ s.cfg.mode ≠ .long64)) :
    s.programRefusal prog base ≠ none := by
  intro hnone
  obtain ⟨-, -, hforms, hreading⟩ := (programRefusal_eq_none_iff prog base s).mp hnone
  rcases h with ⟨i, hi, u, r, hmode, hexec, hr⟩ | hnot | ⟨hne, hmode⟩
  · exact formRefusal_ne_none hmode hexec hr s (hforms i hi)
  · exact hreading hnot
  · obtain ⟨i, hi⟩ := List.exists_mem_of_ne_nil _ hne
    simpa [formRefusal_other_mode i s hmode] using hforms i hi

/-- A whole program has made its last step when as many steps as it has bytes are over. -/
theorem runProgram_ne_unended (hwhole : programReading prog = .whole)
    (hlaunch : LaunchPremises prog base s) : s.runProgram prog base ≠ .unended t := by
  intro h
  obtain ⟨hnone, hrun⟩ := runTo_of_runProgram h nofun
  obtain ⟨hend, hr⟩ := runTo_unended _ _ _ _ hrun
  obtain ⟨hrange, -⟩ := (programRefusal_eq_none_iff prog base s).mp hnone
  obtain ⟨is, hwf, rfl⟩ := exists_forms_of_whole _ _ hwhole
  obtain rfl := hlaunch.pc_eq
  obtain ⟨hle, hpc⟩ := runsUntil_pc hwf hlaunch hrange hr
  obtain ⟨hlt, -⟩ := (fetchInRange_iff s _).mp hrange
  exact hend ((atEnd_iff hle hlt hpc).mp (hle.antisymm (length_le_flatMap_encode is)))

end

/-- Settles O12: a run follows the steps of its program, and what is refused at the launch has none. -/
theorem aRunEndsAtTheEndOfItsProgram : Obligations.ARunEndsAtTheEndOfItsProgram := by
  intro prog base s t
  refine ⟨fun h => ?_, fun f h => ?_, fun n hbase hnone hr => ⟨fun hend => ?_, ?_, ?_⟩,
    fun h => runProgram_of_programRefusal (programRefusal_ne_none h), runProgram_ne_unended⟩
  · exact runTo_final _ _ _ _ (runTo_of_runProgram h nofun).2
  · exact runTo_faulted _ _ _ _ _ (runTo_of_runProgram h nofun).2
  · rw [runProgram_of_runsUntil hnone (runsUntil_le_length hbase hnone hr hend) hr]
    exact runTo_of_pc _ _ _ hend
  · exact fun f hend hn hf => (runProgram_before_end hnone hn hr hend).1 f hf
  · exact fun r hend hn href => (runProgram_before_end hnone hn hr hend).2 r href

end Sys2Proof.Machine
